-- ==== Sys2Proof/Word.lean ====
section
/-! DEFINITION. The widths of the machine and the pixel (R9, R20 to R24). -/

namespace Sys2Proof

/-- A byte of a stream, a colour channel (R7, R9). -/
abbrev Byte := BitVec 8

/-- A word of the host register block (R32). -/
abbrev Word := BitVec 32

/-- A 64-bit counter or position (R23, R24, R29, D27). -/
abbrev Count := BitVec 64

/-- A pixel `(r,g,b,a)`; equality is channel by channel (R9). -/
structure Pixel where
  r : Byte
  g : Byte
  b : Byte
  a : Byte
  deriving DecidableEq, Repr

/-- The pixel `(0,0,0,0)`, the contents of every cache slot at the start of a pass (R47). -/
def Pixel.zero : Pixel := ⟨0, 0, 0, 0⟩

end Sys2Proof
end

