-- ==== Sys2Proof/Config.lean ====
section
/-! DEFINITION. The open parameters of the spec (R6, R74): what one implementation fixes and the spec does not. -/

namespace Sys2Proof

/-- The named OPEN parameters. Every definition that needs one takes a `Params` argument, so a statement can
range over all of them. -/
structure Params where
  /-- `MAGIC`, four bytes; the first byte of the stream is the most significant one here (R121, D4). -/
  magic : Word
  /-- `MAX_BUFFER_BYTES`, the largest legal `width*height*channels` (R124, D5). -/
  maxBufferBytes : Nat
  /-- `REG_BASE`, the address of the register block on the host's bus (R74, D3). -/
  regBase : Nat
  /-- How many bytes of the block's window lie above offset 0x40; R44 speaks of such offsets and gives no
  extent (notes/assumptions/4.md). -/
  regWindowExtra : Nat
  deriving DecidableEq, Repr, Inhabited

/-- The parameters of the machine `step` runs. No body: no proof can learn a value of them
(notes/assumptions/3.md). -/
opaque Config.params : Params

end Sys2Proof
end

