-- ==== Sys2Proof/Syntax.lean ====
section
/-! DEFINITION. The instructions: one constructor for each row of spec/opcode_table.json, with the fields as they are stored
in the group's bytes (R93 to R98, R100). -/

namespace Sys2Proof

/-- An opcode group of the stream, or the end marker. -/
inductive Instr where
  /-- INDEX `k`: the cache slot (R93). -/
  | index (k : BitVec 6)
  /-- DIFF: the stored fields `dr+2`, `dg+2`, `db+2` (R94). -/
  | diff (fr fg fb : BitVec 2)
  /-- LUMA: the stored fields `dg+32`, `(dr-dg)+8`, `(db-dg)+8` (R95). -/
  | luma (fdg : BitVec 6) (fdr fdb : BitVec 4)
  /-- RUN: the stored field `L`, the run length less 1; 62 and 63 spell the tags and are no RUN (R96). -/
  | run (len : BitVec 6)
  /-- RGB `r, g, b` (R97). -/
  | rgb (r g b : Byte)
  /-- RGBA `r, g, b, a` (R98). -/
  | rgba (r g b a : Byte)
  /-- END: the eight zero bytes that end a stream, not an opcode (R100). -/
  | endMarker
  deriving DecidableEq, Repr

end Sys2Proof
end

