-- ==== Sys2Proof/Machine/State.lean ====
section
/-! DEFINITION. The state of the core (R20 to R31), of its two channels and of the host that drives it, and the ways a
step can stop. -/

namespace Sys2Proof.Machine

/-- `PHASE` (R25). -/
inductive Phase where
  | idle
  | header
  | body
  | final
  | done
  | error
  deriving DecidableEq, Repr

/-- `MODE` and `CTRL.MODE` (R26, R33). -/
inductive Mode where
  | encode
  | decode
  deriving DecidableEq, Repr

/-- `ERR_CODE` (R270): exactly the listed values (U11). -/
inductive ErrCode where
  | none
  | formatError
  | truncatedStream
  | sizeMismatch
  deriving DecidableEq, Repr

/-- `ERR_CAUSE` (R271): exactly the listed values (U11). -/
inductive ErrCause where
  | none
  | badMagic
  | badChannels
  | sizeLimit
  | headerShort
  | opcodeShort
  | operandShort
  | inputLen
  | inputShort
  deriving DecidableEq, Repr

/-- What the host can do to the core (R316). A bus access carries its address on the host's bus and its width in bytes. -/
inductive HostMove where
  /-- Write a register. -/
  | write (addr width : Nat) (value : Word)
  /-- Read a register; the reply is appended to `State.replies`. -/
  | read (addr width : Nat)
  /-- Supply the next input byte of the pass (R62). -/
  | supply (b : Byte)
  /-- Signal end of input (R62). -/
  | endInput
  /-- Become ready for `count` more output bytes (R63). -/
  | accept (count : Nat)
  /-- Assert and release reset (R300, R301). -/
  | reset
  deriving DecidableEq, Repr

/-- Who moves next. A list of these fixes one interleaving of host and core; every interleaving is some list. -/
inductive Turn where
  | core
  | host (m : HostMove)
  deriving DecidableEq, Repr

/-- The whole machine. The first block is the core's own state (R20); the second is the register block's; the third is the
two channels and the host, which R20 keeps outside the core and a closed machine must carry (notes/assumptions/2.md). -/
structure State where
  /-- `PREV` (R21). -/
  prev : Pixel
  /-- `RUN` (R22). -/
  run : BitVec 6
  /-- `PIXCNT` (R23). -/
  pixCount : Count
  /-- `BYTECNT` (R24), the program counter of a decode pass. -/
  byteCount : Count
  /-- `PHASE` (R25). -/
  phase : Phase
  /-- `MODE`, latched at the start of the pass (R26). -/
  mode : Mode
  /-- `N`, an unbounded product (R27). -/
  n : Nat
  /-- `CACHE` (R30, R170). -/
  cache : Vector Pixel 64
  /-- `ERR_CODE` (R29). -/
  errCode : ErrCode
  /-- `ERR_CAUSE` (R29). -/
  errCause : ErrCause
  /-- `ERR_POS` (R29). -/
  errPos : Count
  /-- `CTRL.MODE` (R33). -/
  ctrlMode : Mode
  /-- `WIDTH` (R28, R36). -/
  width : Word
  /-- `HEIGHT` (R28, R37). -/
  height : Word
  /-- `FORMAT.CHANNELS` (R28, R38). -/
  channels : Byte
  /-- `FORMAT.COLORSPACE` (R28, R38). -/
  colorspace : Byte
  /-- `IN_LEN` (R28, R39). -/
  inLen : Count
  /-- The input channel: bytes supplied for this pass and not taken yet, next first (R62). -/
  inQueue : List Byte
  /-- The host has given end of input for this pass (R62). -/
  inEnd : Bool
  /-- The output channel: bytes given in this pass, first first (R63). -/
  out : List Byte
  /-- How many more output bytes the host is ready to accept (R63, R312). -/
  outRoom : Nat
  /-- The replies to the host's register reads, first first (R316). -/
  replies : List Word
  /-- The moves still to come; with none left the core moves. -/
  turns : List Turn
  deriving DecidableEq, Repr

/-- Why the machine stops with a fault. -/
inductive Fault where
  /-- Raised by a core step that would carry `BYTECNT` past 2^64 - 1. R24 says it never wraps and D27 leaves streams of
  more than 2^64 bytes open (notes/assumptions/8.md). Safe: the model stops where hardware may go on. -/
  | byteCountWraps
  deriving DecidableEq, Repr

/-- Why the model has no meaning for a move. -/
inductive Refusal where
  /-- An instruction without a meaning yet; raised by no arm of `exec` now. Safe. -/
  | notModelled (mnemonic : String)
  /-- Raised by a host access that is not an aligned 32-bit word; R69 says a model refuses it (notes/assumptions/9.md).
  Safe. -/
  | accessShape
  /-- Raised by a host access to an address outside the register block's window: another device of the host's
  bus (notes/assumptions/4.md). Safe. -/
  | outsideBlock
  /-- Raised by a host that supplies a byte, or signals end of input again, after end of input; R316 has it signalled
  once, after the last byte (notes/assumptions/9.md). Safe. -/
  | inputAfterEnd
  deriving DecidableEq, Repr

/-- The machine right after reset (R46, R300). `N`, `PREV` and `CACHE` are unspecified there: zero is the model's own value
(notes/assumptions/1.md). The channels are empty and the host has no move pending. -/
def State.reset : State where
  prev := Pixel.zero
  run := 0
  pixCount := 0
  byteCount := 0
  phase := .idle
  mode := .encode
  n := 0
  cache := Vector.replicate 64 Pixel.zero
  errCode := .none
  errCause := .none
  errPos := 0
  ctrlMode := .encode
  width := 0
  height := 0
  channels := 0
  colorspace := 0
  inLen := 0
  inQueue := []
  inEnd := false
  out := []
  outRoom := 0
  replies := []
  turns := []

end Sys2Proof.Machine
end

