-- ==== Sys2Proof/Machine/Flags.lean ====
section
/-! DEFINITION. The codes of the state's names and the STATUS flags, all functions of `PHASE` and `RUN` (R25, R31, R34, R270,
R271). -/

namespace Sys2Proof.Machine

/-- The value of `PHASE` (R25). -/
def Phase.code : Phase → BitVec 3
  | .idle => 0
  | .header => 1
  | .body => 2
  | .final => 3
  | .done => 4
  | .error => 5

/-- The value of a mode bit (R26). -/
def Mode.code : Mode → BitVec 1
  | .encode => 0
  | .decode => 1

/-- The mode a mode bit names (R26). -/
def Mode.ofBit (b : Bool) : Mode := if b then .decode else .encode

/-- The value of `ERR_CODE` (R270). -/
def ErrCode.code : ErrCode → BitVec 4
  | .none => 0
  | .formatError => 1
  | .truncatedStream => 2
  | .sizeMismatch => 3

/-- The value of `ERR_CAUSE` (R271). -/
def ErrCause.code : ErrCause → BitVec 4
  | .none => 0
  | .badMagic => 1
  | .badChannels => 2
  | .sizeLimit => 3
  | .headerShort => 4
  | .opcodeShort => 5
  | .operandShort => 6
  | .inputLen => 7
  | .inputShort => 8

/-- The one error code each cause belongs to (R271). -/
def ErrCause.errCode : ErrCause → ErrCode
  | .none => .none
  | .badMagic => .formatError
  | .badChannels => .formatError
  | .sizeLimit => .formatError
  | .headerShort => .truncatedStream
  | .opcodeShort => .truncatedStream
  | .operandShort => .truncatedStream
  | .inputLen => .sizeMismatch
  | .inputShort => .sizeMismatch

/-- `BUSY` (R34). -/
def Phase.busy : Phase → Bool
  | .idle => false
  | .header => true
  | .body => true
  | .final => true
  | .done => false
  | .error => false

/-- `DONE` (R34). -/
def Phase.isDone (ph : Phase) : Bool := ph == .done

/-- `ERROR` (R34). -/
def Phase.isError (ph : Phase) : Bool := ph == .error

/-- `RUN_ACTIVE`, the AccumulatingRun state (R34, R247). -/
def State.runActive (s : State) : Bool := decide (0 < s.run.toNat)

end Sys2Proof.Machine
end

