-- ==== Sys2Proof/Machine/Operands.lean ====
section
/-! DEFINITION. The pure functions of the datapath: operand biases (R101), the pixel hash and comparators (R140 to R143),
rollover normalisation and the window tests (R144 to R147), reconstruction (R149, R150) and packing (R151, R152). -/

namespace Sys2Proof.Machine

/-- `PREV` and a cache slot as a word: r at bits 31:24 down to a at 7:0 (R21). -/
def packPixel (p : Pixel) : Word := p.r ++ p.g ++ p.b ++ p.a

/-- `hash(p)` of the spec (R140): the low six bits of the sum are its remainder mod 64. -/
def pixelHash (p : Pixel) : BitVec 6 :=
  BitVec.ofNat 6 (p.r.toNat * 3 + p.g.toNat * 5 + p.b.toNat * 7 + p.a.toNat * 11)

/-- The pixel-equality comparator `EQ` (R142). -/
def pixelEq (p q : Pixel) : Bool := p.r == q.r && p.g == q.g && p.b == q.b && p.a == q.a

/-- The alpha comparator `ADIFF` (R143). -/
def alphaDiffers (p q : Pixel) : Bool := p.a != q.a

/-- The delta a 2-bit DIFF field stands for (R101). -/
def diffDelta (f : BitVec 2) : Int := (f.toNat : Int) - 2

/-- The green delta a LUMA first byte stands for (R101). -/
def lumaGreen (f : BitVec 6) : Int := (f.toNat : Int) - 32

/-- The offset a 4-bit LUMA field stands for (R101). -/
def lumaOffset (f : BitVec 4) : Int := (f.toNat : Int) - 8

/-- The run length a RUN field stands for (R101). -/
def runLength (len : BitVec 6) : Nat := len.toNat + 1

/-- A channel moved by a signed delta, modulo 256 (R8, R153). -/
def addDelta (c : Byte) (d : Int) : Byte := BitVec.ofInt 8 ((c.toNat : Int) + d)

/-- `norm(d)` of the spec: rollover normalisation of a raw channel difference (R144). -/
def normDelta (d : Int) : Int :=
  let d := if d > 128 then d - 256 else d
  if d < -127 then d + 256 else d

/-- The normalised difference of two channels (R145). -/
def channelDelta (new prev : Byte) : Int := normDelta ((new.toNat : Int) - (prev.toNat : Int))

/-- `fitsDiff` (R146). -/
def fitsDiff (dr dg db : Int) : Bool :=
  decide (-2 ≤ dr ∧ dr ≤ 1) && decide (-2 ≤ dg ∧ dg ≤ 1) && decide (-2 ≤ db ∧ db ≤ 1)

/-- `fitsLuma` (R147): the offsets are plain differences of the normalised deltas. -/
def fitsLuma (dr dg db : Int) : Bool :=
  decide (-32 ≤ dg ∧ dg ≤ 31) && decide (-8 ≤ dr - dg ∧ dr - dg ≤ 7) && decide (-8 ≤ db - dg ∧ db - dg ≤ 7)

/-- `applySmallDiff` (R149), on the payload's three fields. -/
def applySmallDiff (prev : Pixel) (fr fg fb : BitVec 2) : Pixel :=
  ⟨addDelta prev.r (diffDelta fr), addDelta prev.g (diffDelta fg), addDelta prev.b (diffDelta fb), prev.a⟩

/-- `applyLumaDiff` (R150), on the first byte's field and the second byte's two nibbles. -/
def applyLumaDiff (prev : Pixel) (fdg : BitVec 6) (fdr fdb : BitVec 4) : Pixel :=
  ⟨addDelta prev.r (lumaGreen fdg + lumaOffset fdr), addDelta prev.g (lumaGreen fdg),
    addDelta prev.b (lumaGreen fdg + lumaOffset fdb), prev.a⟩

/-- `packDiff` (R151). -/
def packDiff (dr dg db : Int) : Byte :=
  0x40#8 ||| (BitVec.ofInt 8 (dr + 2) <<< 4) ||| (BitVec.ofInt 8 (dg + 2) <<< 2) ||| BitVec.ofInt 8 (db + 2)

/-- The first byte of `packLuma` (R152). -/
def packLumaFirst (dg : Int) : Byte := 0x80#8 ||| BitVec.ofInt 8 (dg + 32)

/-- The second byte of `packLuma` (R152). -/
def packLumaSecond (dr dg db : Int) : Byte :=
  (BitVec.ofInt 8 (dr - dg + 8) <<< 4) ||| BitVec.ofInt 8 (db - dg + 8)

/-- The byte of a RUN whose stored field is `len` (R96, R238). -/
def packRun (len : BitVec 6) : Byte := 0xC0#8 ||| len.zeroExtend 8

end Sys2Proof.Machine
end

