-- ==== Sys2Proof/Machine/Ops.lean ====
section
/-! DEFINITION. The named operations over the state: the channel primitives (R62 to R66), the cache's read, write and lookup
(R171, R172, R174), entering an error (R274) and starting a pass (R47, R302). -/

namespace Sys2Proof.Machine

/-- `INIT_PREV` (R6, R47). -/
def initPrev : Pixel := ⟨0, 0, 0, 255⟩

/-- `INIT_CACHE` (R6, R47). -/
def initCache : Vector Pixel 64 := Vector.replicate 64 Pixel.zero

/-- `RUN_MAX` (R6). -/
def runMax : Nat := 62

/-- `HEADER_BYTES` (R6). -/
def headerBytes : Nat := 14

/-- Take the next `k` bytes of the input channel; in decode mode each counts in `BYTECNT` (R62). -/
def State.takeInput (s : State) (k : Nat) : State :=
  { s with
    inQueue := s.inQueue.drop k
    byteCount := match s.mode with
      | .decode => s.byteCount + BitVec.ofNat 64 k
      | .encode => s.byteCount }

/-- `OutByte` of each byte in order; in encode mode each counts in `BYTECNT` (R63). -/
def State.outBytes (s : State) (vs : List Byte) : State :=
  { s with
    out := s.out ++ vs
    byteCount := match s.mode with
      | .encode => s.byteCount + BitVec.ofNat 64 vs.length
      | .decode => s.byteCount }

/-- `OutByte` (R63). -/
def State.outByte (s : State) (v : Byte) : State := s.outBytes [v]

/-- The bytes `OutPixel` gives: alpha only where `CHANNELS` is 4 (R64, R65). -/
def pixelBytes (channels : Byte) (p : Pixel) : List Byte :=
  if channels = 4 then [p.r, p.g, p.b, p.a] else [p.r, p.g, p.b]

/-- `OutPixel` (R64). -/
def State.outPixel (s : State) (p : Pixel) : State :=
  { s.outBytes (pixelBytes s.channels p) with pixCount := s.pixCount + 1 }

/-- `repeat k times: OutPixel(p)` (R199). -/
def State.outPixels (s : State) (p : Pixel) : Nat → State
  | 0 => s
  | k + 1 => (s.outPixel p).outPixels p k

/-- How many input bytes one pixel of an encode pass has (R66). -/
def pixelSize (channels : Byte) : Nat := if channels = 4 then 4 else 3

/-- The pixel at the head of the input channel, if its bytes are there; three-channel input has alpha 255 (R66). -/
def State.nextPixel (s : State) : Option Pixel :=
  if s.channels = 4 then
    match s.inQueue with
    | r :: g :: b :: a :: _ => some ⟨r, g, b, a⟩
    | _ => none
  else
    match s.inQueue with
    | r :: g :: b :: _ => some ⟨r, g, b, 255⟩
    | _ => none

/-- `CACHE[k]` (R171). -/
def State.readCache (s : State) (k : BitVec 6) : Pixel := s.cache[k.toNat]'k.isLt

/-- `CACHE[k] <- p` (R172). -/
def State.writeCache (s : State) (k : BitVec 6) (p : Pixel) : State :=
  { s with cache := s.cache.set k.toNat p k.isLt }

/-- `UpdateCache(p)` (R172). -/
def State.updateCache (s : State) (p : Pixel) : State := s.writeCache (pixelHash p) p

/-- `Lookup(p)`: whether slot `hash(p)` holds `p`, and that slot; no other slot counts (R174, R177). -/
def State.lookup (s : State) (p : Pixel) : Bool × BitVec 6 := (pixelEq (s.readCache (pixelHash p)) p, pixelHash p)

/-- `raise E(cause)` with its position: the error record is written, `PHASE` becomes ERROR, all else stays (R274). -/
def State.raise (s : State) (cause : ErrCause) (pos : Count) : State :=
  { s with
    errCode := cause.errCode
    errCause := cause
    errPos := pos
    phase := .error }

/-- What an accepted START does after `CTRL.MODE` is written (R47, R302). Both channels' streams begin again; the host's
readiness to accept output stays (notes/assumptions/7.md). `N` keeps its old value until the header step. -/
def State.startPass (s : State) : State :=
  { s with
    prev := initPrev
    cache := initCache
    run := 0
    pixCount := 0
    byteCount := 0
    errCode := .none
    errCause := .none
    errPos := 0
    mode := s.ctrlMode
    phase := .header
    inQueue := []
    inEnd := false
    out := [] }

/-- The tail of every decoder rule but RUN's: `OutPixel(new)`, then `PREV <- new` (R194 to R198). -/
def State.producePixel (s : State) (new : Pixel) : State := { s.outPixel new with prev := new }

end Sys2Proof.Machine
end

