-- ==== Sys2Proof/Machine/Bus.lean ====
section
/-! DEFINITION. The host register block and the host's moves (R32 to R45, R69, R302, R316). -/

namespace Sys2Proof.Machine

/-- The registers of the block (R32). -/
inductive Reg where
  | ctrl
  | status
  | err
  | width
  | height
  | format
  | inLenLo
  | inLenHi
  | pixCntLo
  | pixCntHi
  | byteCntLo
  | byteCntHi
  | errPosLo
  | errPosHi
  | runLen
  | reserved
  deriving DecidableEq, Repr

/-- The block's map (R32). -/
def regMap : List (Nat × Reg) :=
  [(0x00, .ctrl), (0x04, .status), (0x08, .err), (0x0C, .width), (0x10, .height), (0x14, .format),
   (0x18, .inLenLo), (0x1C, .inLenHi), (0x20, .pixCntLo), (0x24, .pixCntHi), (0x28, .byteCntLo),
   (0x2C, .byteCntHi), (0x30, .errPosLo), (0x34, .errPosHi), (0x38, .runLen)]

/-- The register at an offset; every other offset of the window is reserved (R44). -/
def regAt (off : Nat) : Reg := (regMap.lookup off).getD .reserved

/-- The size of the block's window (R32, R44). -/
def windowBytes (p : Params) : Nat := 0x40 + p.regWindowExtra

/-- The register a bus access reaches: inside the window, 32 bits wide and at a multiple of 4 (R69, R74). -/
def regOf (p : Params) (addr width : Nat) : Except Refusal Reg :=
  if addr < p.regBase ∨ p.regBase + windowBytes p ≤ addr then .error .outsideBlock
  else if width ≠ 4 ∨ (addr - p.regBase) % 4 ≠ 0 then .error .accessShape
  else .ok (regAt (addr - p.regBase))

/-- Bits 31:0 of a 64-bit value (R69). -/
def loWord (v : Count) : Word := v.extractLsb' 0 32

/-- Bits 63:32 of a 64-bit value (R69). -/
def hiWord (v : Count) : Word := v.extractLsb' 32 32

/-- STATUS (R34). -/
def State.status (s : State) : Word :=
  0#25 ++ s.phase.code ++ BitVec.ofBool s.runActive ++ BitVec.ofBool s.phase.isError
    ++ BitVec.ofBool s.phase.isDone ++ BitVec.ofBool s.phase.busy

/-- ERR (R35). -/
def State.err (s : State) : Word := 0#20 ++ s.errCause.code ++ 0#4 ++ s.errCode.code

/-- CTRL; START reads as 0 (R33). -/
def State.ctrl (s : State) : Word := 0#30 ++ s.ctrlMode.code ++ 0#1

/-- FORMAT (R38). -/
def State.format (s : State) : Word := 0#16 ++ s.colorspace ++ s.channels

/-- The value a register reads as (R33 to R44). -/
def readReg (r : Reg) (s : State) : Word :=
  match r with
  | .ctrl => s.ctrl
  | .status => s.status
  | .err => s.err
  | .width => s.width
  | .height => s.height
  | .format => s.format
  | .inLenLo => loWord s.inLen
  | .inLenHi => hiWord s.inLen
  | .pixCntLo => loWord s.pixCount
  | .pixCntHi => hiWord s.pixCount
  | .byteCntLo => loWord s.byteCount
  | .byteCntHi => hiWord s.byteCount
  | .errPosLo => loWord s.errPos
  | .errPosHi => hiWord s.errPos
  | .runLen => 0#26 ++ s.run
  | .reserved => 0

/-- A CTRL write while not BUSY: the mode bit first, then START (R33, R302). -/
def writeCtrl (v : Word) (s : State) : State :=
  let t := { s with ctrlMode := Mode.ofBit (v.getLsbD 1) }
  if v.getLsbD 0 then t.startPass else t

/-- A register write while not BUSY (R33 to R44). -/
def writeIdle (r : Reg) (v : Word) (s : State) : State :=
  match r with
  | .ctrl => writeCtrl v s
  | .width => { s with width := v }
  | .height => { s with height := v }
  | .format => { s with channels := v.extractLsb' 0 8, colorspace := v.extractLsb' 8 8 }
  | .inLenLo => { s with inLen := hiWord s.inLen ++ v }
  | .inLenHi => { s with inLen := v ++ loWord s.inLen }
  | .status => s
  | .err => s
  | .pixCntLo => s
  | .pixCntHi => s
  | .byteCntLo => s
  | .byteCntHi => s
  | .errPosLo => s
  | .errPosHi => s
  | .runLen => s
  | .reserved => s

/-- A register write: ignored while BUSY (R45). -/
def writeReg (r : Reg) (v : Word) (s : State) : State := if s.phase.busy then s else writeIdle r v s

/-- Reset, at any time (R300, R301). The host keeps the replies it has had and the moves it has still to make. -/
def State.doReset (s : State) : State := { State.reset with replies := s.replies, turns := s.turns }

/-- One move of the host (R316). -/
def hostMove (p : Params) (m : HostMove) (s : State) : Host.Outcome State Fault Refusal :=
  match m with
  | .write addr width v =>
    match regOf p addr width with
    | .ok r => .next (writeReg r v s)
    | .error e => .refused e
  | .read addr width =>
    match regOf p addr width with
    | .ok r => .next { s with replies := s.replies ++ [readReg r s] }
    | .error e => .refused e
  | .supply b => if s.inEnd then .refused .inputAfterEnd else .next { s with inQueue := s.inQueue ++ [b] }
  | .endInput => if s.inEnd then .refused .inputAfterEnd else .next { s with inEnd := true }
  | .accept count => .next { s with outRoom := s.outRoom + count }
  | .reset => .next s.doReset

end Sys2Proof.Machine
end

