-- ==== Sys2Proof/WellFormed.lean ====
section
/-! DEFINITION. Which terms of `Instr` are instructions: the one limit the encodings set beyond the fields' widths. -/

namespace Sys2Proof

/-- A RUN stores `L` from 0 to 61 (R96, R104); every value of every other field is legal (R102). -/
def Instr.wf : Instr → Bool
  | .index _ => true
  | .diff _ _ _ => true
  | .luma _ _ _ => true
  | .run len => decide (len.toNat ≤ 61)
  | .rgb _ _ _ => true
  | .rgba _ _ _ _ => true
  | .endMarker => true

end Sys2Proof
end

