-- ==== Sys2Proof/Decode.lean ====
section
/-! DEFINITION. Decoding of opcode groups and of the end marker, total on any bytes, and the encoder written from the same
encodings (R91 to R101). -/

namespace Sys2Proof

/-- Why bytes give no instruction. No first byte is illegal (R102), so only missing bytes and a wrong marker do. -/
inductive DecodeError where
  /-- There is no byte at all. -/
  | noByte
  /-- The first byte is there, one of the group's later bytes is not. -/
  | operandShort
  /-- At the end marker's place the next eight bytes are not eight zeros. -/
  | noMarker
  deriving DecidableEq, Repr

/-- The two parts of a stream after its header (R61). Only the position tells the end marker from eight INDEX 0
(R100). -/
inductive StreamPart where
  | groups
  | marker
  deriving DecidableEq, Repr

/-- `b0[7:6]`, the class of a byte that is no tag (R91). -/
def classOf (b0 : Byte) : BitVec 2 := b0.extractLsb' 6 2

/-- `b0[5:0]`, the payload of a class byte (R99). -/
def payloadOf (b0 : Byte) : BitVec 6 := b0.extractLsb' 0 6

/-- The length of a group, from its first byte alone (R92). -/
def groupLength (b0 : Byte) : Nat :=
  if b0 = 0xFE then 4
  else if b0 = 0xFF then 5
  else if classOf b0 = 0b10 then 2
  else 1

/-- One opcode group: the tags are tested before the class (R91), the fields stand where R99 puts them. -/
def decodeGroup : List Byte → Except DecodeError (Instr × List Byte)
  | [] => .error .noByte
  | b0 :: rest =>
    if b0 = 0xFE then
      match rest with
      | r :: g :: b :: rest' => .ok (.rgb r g b, rest')
      | _ => .error .operandShort
    else if b0 = 0xFF then
      match rest with
      | r :: g :: b :: a :: rest' => .ok (.rgba r g b a, rest')
      | _ => .error .operandShort
    else if classOf b0 = 0b00 then
      .ok (.index (payloadOf b0), rest)
    else if classOf b0 = 0b01 then
      .ok (.diff (b0.extractLsb' 4 2) (b0.extractLsb' 2 2) (b0.extractLsb' 0 2), rest)
    else if classOf b0 = 0b10 then
      match rest with
      | b1 :: rest' => .ok (.luma (payloadOf b0) (b1.extractLsb' 4 4) (b1.extractLsb' 0 4), rest')
      | [] => .error .operandShort
    else
      .ok (.run (payloadOf b0), rest)

/-- The end marker's bytes (R100). -/
def endMarkerBytes : List Byte := [0, 0, 0, 0, 0, 0, 0, 0]

/-- The instruction at a place of the stream, and the bytes after it. The machine reads only `.groups`
(R200); `.marker` serves a reader of whole streams. -/
def decodeAt (part : StreamPart) (bytes : List Byte) : Except DecodeError (Instr × List Byte) :=
  match part with
  | .groups => decodeGroup bytes
  | .marker =>
    if bytes.take 8 = endMarkerBytes then .ok (.endMarker, bytes.drop 8) else .error .noMarker

/-- The part of the stream an instruction stands in (R61). -/
def partOf : Instr → StreamPart
  | .endMarker => .marker
  | _ => .groups

/-- The bytes of an instruction (R93 to R98, R100). -/
def encode : Instr → List Byte
  | .index k => [0b00#2 ++ k]
  | .diff fr fg fb => [0b01#2 ++ fr ++ fg ++ fb]
  | .luma fdg fdr fdb => [0b10#2 ++ fdg, fdr ++ fdb]
  | .run len => [0b11#2 ++ len]
  | .rgb r g b => [0xFE, r, g, b]
  | .rgba r g b a => [0xFF, r, g, b, a]
  | .endMarker => endMarkerBytes

/-- The table's `length_bytes` of an instruction's row. -/
def lengthBytes : Instr → Nat
  | .index _ => 1
  | .diff _ _ _ => 1
  | .luma _ _ _ => 2
  | .run _ => 1
  | .rgb _ _ _ => 4
  | .rgba _ _ _ _ => 5
  | .endMarker => 8

/-- The first `k` bytes of a number whose bits 7:0 are the first byte. -/
def bytesOfNat : Nat → Nat → List Byte
  | 0, _ => []
  | k + 1, w => BitVec.ofNat 8 w :: bytesOfNat k (w / 256)

/-- The bytes the opcode table's row of `nbits` bits stands for, with zeros after them up to the longest instruction of
its part of the stream. -/
def tableBytes (nbits w : Nat) : List Byte :=
  if nbits = 64 then bytesOfNat 8 w else bytesOfNat 5 (w % 2 ^ nbits)

/-- The part of the stream a row of `nbits` bits stands in: the end marker is the only row of 64 bits
(notes/assumptions/6.md). -/
def tablePart (nbits : Nat) : StreamPart := if nbits = 64 then .marker else .groups

/-- What the decoder reads from the bits of a row of the opcode table. -/
def decodeTableWord (nbits w : Nat) : Option Instr :=
  match decodeAt (tablePart nbits) (tableBytes nbits w) with
  | .ok (i, _) => some i
  | .error _ => none

end Sys2Proof
end

