-- ==== Sys2Proof/Machine/CacheIndex.lean ====
section
/-! DEFINITION. INDEX, the group that names a cache slot. It never writes the cache (R172). -/

namespace Sys2Proof.Machine

/-- `DoINDEX`: the slot's pixel, whatever it is (R178, R196). -/
def doIndex (k : BitVec 6) (s : State) : State := s.producePixel (s.readCache k)

/-- The INDEX emission: `OutByte(k)` (R239). -/
def emitIndex (k : BitVec 6) (s : State) : State := s.outByte (k.zeroExtend 8)

/-- INDEX: R196 in a decode pass, R239 in an encode pass. -/
def execIndex (k : BitVec 6) (s : State) : Host.Outcome State Fault Refusal :=
  match s.mode with
  | .decode => .next (doIndex k s)
  | .encode => .next (emitIndex k s)

end Sys2Proof.Machine
end

