-- ==== Sys2Proof/Machine/Delta.lean ====
section
/-! DEFINITION. DIFF and LUMA, the groups that carry differences from `PREV`. -/

namespace Sys2Proof.Machine

/-- `DoDIFF` (R197). -/
def doDiff (fr fg fb : BitVec 2) (s : State) : State :=
  let new := applySmallDiff s.prev fr fg fb
  (s.updateCache new).producePixel new

/-- The DIFF emission: `OutByte(packDiff(dr, dg, db))`, then `UpdateCache(new)` (R242). -/
def emitDiff (dr dg db : Int) (new : Pixel) (s : State) : State :=
  (s.outByte (packDiff dr dg db)).updateCache new

/-- DIFF: R197 in a decode pass, R242 in an encode pass. -/
def execDiff (fr fg fb : BitVec 2) (s : State) : Host.Outcome State Fault Refusal :=
  match s.mode with
  | .decode => .next (doDiff fr fg fb s)
  | .encode =>
    .next (emitDiff (diffDelta fr) (diffDelta fg) (diffDelta fb) (applySmallDiff s.prev fr fg fb) s)

/-- `DoLUMA`, after its bytes are taken (R198). -/
def doLuma (fdg : BitVec 6) (fdr fdb : BitVec 4) (s : State) : State :=
  let new := applyLumaDiff s.prev fdg fdr fdb
  (s.updateCache new).producePixel new

/-- The LUMA emission: both bytes of `packLuma(dr, dg, db)`, first byte first, then `UpdateCache(new)` (R244). -/
def emitLuma (dr dg db : Int) (new : Pixel) (s : State) : State :=
  (s.outBytes [packLumaFirst dg, packLumaSecond dr dg db]).updateCache new

/-- LUMA: R198 in a decode pass, R244 in an encode pass. -/
def execLuma (fdg : BitVec 6) (fdr fdb : BitVec 4) (s : State) : Host.Outcome State Fault Refusal :=
  match s.mode with
  | .decode => .next (doLuma fdg fdr fdb s)
  | .encode =>
    .next (emitLuma (lumaGreen fdg + lumaOffset fdr) (lumaGreen fdg) (lumaGreen fdg + lumaOffset fdb)
      (applyLumaDiff s.prev fdg fdr fdb) s)

end Sys2Proof.Machine
end

