-- ==== Sys2Proof/Machine/EndMarker.lean ====
section
/-! DEFINITION. END, the end marker. The encoder emits it; the decoder never reads it (R100, R200, R203). -/

namespace Sys2Proof.Machine

/-- The END emission: `OutByte(0x00)` eight times and `PHASE <- DONE` (R249). -/
def emitEnd (s : State) : State := { s.outBytes endMarkerBytes with phase := .done }

/-- END: R249 in an encode pass; in a decode pass the marker is ignored and nothing happens (R203, U10). -/
def execEndMarker (s : State) : Host.Outcome State Fault Refusal :=
  match s.mode with
  | .encode => .next (emitEnd s)
  | .decode => .next s

end Sys2Proof.Machine
end

