-- ==== Sys2Proof/Machine/FullPixel.lean ====
section
/-! DEFINITION. RGB and RGBA, the groups that carry whole channels. In a decode pass an instruction's meaning is its decoder rule,
applied after the step has taken the group's bytes; in an encode pass it is its emission rule (notes/assumptions/5.md). -/

namespace Sys2Proof.Machine

/-- `DoRGB`, after its bytes are taken (R194). -/
def doRgb (r g b : Byte) (s : State) : State :=
  let new : Pixel := ⟨r, g, b, s.prev.a⟩
  (s.updateCache new).producePixel new

/-- `EmitRGB(new)`, then `UpdateCache(new)` (R245). -/
def emitRgb (new : Pixel) (s : State) : State :=
  (s.outBytes [0xFE, new.r, new.g, new.b]).updateCache new

/-- RGB: R194 in a decode pass, R245 in an encode pass. -/
def execRgb (r g b : Byte) (s : State) : Host.Outcome State Fault Refusal :=
  match s.mode with
  | .decode => .next (doRgb r g b s)
  | .encode => .next (emitRgb ⟨r, g, b, s.prev.a⟩ s)

/-- `DoRGBA`, after its bytes are taken (R195). -/
def doRgba (r g b a : Byte) (s : State) : State :=
  let new : Pixel := ⟨r, g, b, a⟩
  (s.updateCache new).producePixel new

/-- `EmitRGBA(new)`, then `UpdateCache(new)` (R240). -/
def emitRgba (new : Pixel) (s : State) : State :=
  (s.outBytes [0xFF, new.r, new.g, new.b, new.a]).updateCache new

/-- RGBA: R195 in a decode pass, R240 in an encode pass. -/
def execRgba (r g b a : Byte) (s : State) : Host.Outcome State Fault Refusal :=
  match s.mode with
  | .decode => .next (doRgba r g b a s)
  | .encode => .next (emitRgba ⟨r, g, b, a⟩ s)

end Sys2Proof.Machine
end

