-- ==== Sys2Proof/Machine/RunLength.lean ====
section
/-! DEFINITION. RUN, the group that repeats `PREV`. It never writes the cache (R172). -/

namespace Sys2Proof.Machine

/-- `DoRUN`: a run past `N` is clipped (R199). -/
def doRun (len : BitVec 6) (s : State) : State :=
  s.outPixels s.prev (min (runLength len) (s.n - s.pixCount.toNat))

/-- The RUN emission of a stored field, and `RUN <- 0` (R238, R248). -/
def emitRun (len : BitVec 6) (s : State) : State := { s.outByte (packRun len) with run := 0 }

/-- RUN: R199 in a decode pass, R238 in an encode pass. -/
def execRun (len : BitVec 6) (s : State) : Host.Outcome State Fault Refusal :=
  match s.mode with
  | .decode => .next (doRun len s)
  | .encode => .next (emitRun len s)

/-- The run flush: a pending run is emitted and cleared (R238, R248). -/
def flushRun (s : State) : State := if 0 < s.run.toNat then emitRun (s.run - 1) s else s

/-- A pixel equal to `PREV`: the run grows (R236), or at the cap it is flushed and a new one starts (R237). -/
def extendRun (s : State) : State :=
  if s.run.toNat < runMax then { s with run := s.run + 1 } else { emitRun (s.run - 1) s with run := 1 }

end Sys2Proof.Machine
end

