-- ==== Sys2Proof/Machine/Dispatch.lean ====
section
/-! DEFINITION. The meaning of an instruction, one arm for each row of the opcode table. -/

namespace Sys2Proof.Machine

def exec (i : Instr) (s : State) : Host.Outcome State Fault Refusal :=
  match i with
  | .index k => Sys2Proof.Machine.execIndex k s
  | .diff fr fg fb => Sys2Proof.Machine.execDiff fr fg fb s
  | .luma fdg fdr fdb => Sys2Proof.Machine.execLuma fdg fdr fdb s
  | .run len => Sys2Proof.Machine.execRun len s
  | .rgb r g b => Sys2Proof.Machine.execRgb r g b s
  | .rgba r g b a => Sys2Proof.Machine.execRgba r g b a s
  | .endMarker => Sys2Proof.Machine.execEndMarker s

end Sys2Proof.Machine
end

