-- ==== Sys2Proof/Machine/Header.lean ====
section
/-! DEFINITION. The 14-byte header: byte order (R67), parse (R120 to R127) and write (R128), and the header step of either
mode (R191, R192, R231, R232). -/

namespace Sys2Proof.Machine

/-- The fields of a header (R90). -/
structure Header where
  width : Word
  height : Word
  channels : Byte
  colorspace : Byte
  deriving DecidableEq, Repr

/-- A 32-bit field's four bytes, most significant first (R67). -/
def be32 (v : Word) : List Byte :=
  [v.extractLsb' 24 8, v.extractLsb' 16 8, v.extractLsb' 8 8, v.extractLsb' 0 8]

/-- The value of four bytes, most significant first (R67, R122). -/
def ofBe32 (b3 b2 b1 b0 : Byte) : Word :=
  BitVec.ofNat 32 (b3.toNat * 2 ^ 24 + b2.toNat * 2 ^ 16 + b1.toNat * 2 ^ 8 + b0.toNat)

/-- `CHANNELS_LEGAL` (R6, R123). -/
def channelsLegal (c : Byte) : Bool := c == 3 || c == 4

/-- The byte length of a pixel buffer, an unbounded product (R65, R124). -/
def bufferBytes (w h : Word) (c : Byte) : Nat := w.toNat * h.toNat * c.toNat

/-- `ParseHeader`, with its checks in the order of R127; anything but 14 bytes is a short header, which the caller
rules out (R120). -/
def parseHeader (p : Params) (bytes : List Byte) : Except ErrCause Header :=
  match bytes with
  | [m3, m2, m1, m0, w3, w2, w1, w0, h3, h2, h1, h0, c, cs] =>
    if [m3, m2, m1, m0] ≠ be32 p.magic then .error .badMagic
    else
      let w := ofBe32 w3 w2 w1 w0
      let h := ofBe32 h3 h2 h1 h0
      if !channelsLegal c then .error .badChannels
      else if bufferBytes w h c > p.maxBufferBytes then .error .sizeLimit
      else .ok ⟨w, h, c, cs⟩
  | _ => .error .headerShort

/-- The 14 bytes `WriteHeader` emits (R128). -/
def headerBytesOf (p : Params) (h : Header) : List Byte :=
  be32 p.magic ++ be32 h.width ++ be32 h.height ++ [h.channels, h.colorspace]

/-- The commit of a parsed header (R192, R193). -/
def State.commitHeader (s : State) (h : Header) : State :=
  let n := h.width.toNat * h.height.toNat
  { s with
    width := h.width
    height := h.height
    channels := h.channels
    colorspace := h.colorspace
    n := n
    phase := if n = 0 then .done else .body }

/-- The decoder's header step (R191, R192). Without 14 bytes and without end of input the core holds (R62). -/
def decodeHeader (p : Params) (s : State) : State :=
  if headerBytes ≤ s.inQueue.length then
    match parseHeader p (s.inQueue.take headerBytes) with
    | .ok h => (s.takeInput headerBytes).commitHeader h
    | .error cause => (s.takeInput headerBytes).raise cause 0
  else if s.inEnd then (s.takeInput s.inQueue.length).raise .headerShort 0
  else s

/-- `EncodeChecks`: the cause of the first failing check, if any (R231). -/
def encodeChecks (p : Params) (s : State) : Option ErrCause :=
  if !channelsLegal s.channels then some .badChannels
  else if bufferBytes s.width s.height s.channels > p.maxBufferBytes then some .sizeLimit
  else if s.inLen.toNat ≠ bufferBytes s.width s.height s.channels then some .inputLen
  else none

/-- The encoder's header step (R231 to R233). -/
def encodeHeader (p : Params) (s : State) : State :=
  match encodeChecks p s with
  | some cause => s.raise cause 0
  | none =>
    let n := s.width.toNat * s.height.toNat
    { s.outBytes (headerBytesOf p ⟨s.width, s.height, s.channels, s.colorspace⟩) with
      n := n
      phase := if n = 0 then .final else .body }

end Sys2Proof.Machine
end

