-- ==== Sys2Proof/Machine/Decoder.lean ====
section
/-! DEFINITION. The decoder's opcode step (R190, R200 to R202). -/

namespace Sys2Proof.Machine

/-- `if PIXCNT == N: PHASE <- DONE`, the end of every opcode step (R190, R200). -/
def finishAtN (s : State) : State :=
  if s.pixCount.toNat = s.n then { s with phase := .done } else s

/-- An instruction run by the opcode step, on a state whose channel has given the group's bytes. -/
def execGroup (i : Instr) (s : State) : Host.Outcome State Fault Refusal :=
  match exec i s with
  | .next t => .next (finishAtN t)
  | .fault r => .fault r
  | .refused r => .refused r

/-- `DecodeStep` (R190). Where the bytes of a whole group are not there the core holds (R62), or with end of input raises
OPCODE_SHORT (R201) or OPERAND_SHORT, the partial group's bytes taken (R202). -/
def decodeStep (s : State) : Host.Outcome State Fault Refusal :=
  if s.pixCount.toNat < s.n then
    match decodeAt .groups s.inQueue with
    | .ok (i, _) => execGroup i (s.takeInput (lengthBytes i))
    | .error .noByte => if s.inEnd then .next (s.raise .opcodeShort s.byteCount) else .next s
    | .error _ =>
      if s.inEnd then .next ((s.takeInput s.inQueue.length).raise .operandShort s.byteCount) else .next s
  else .next s

end Sys2Proof.Machine
end

