-- ==== Sys2Proof/Machine/Encoder.lean ====
section
/-! DEFINITION. The encoder's pixel step and final step (R234 to R249). -/

namespace Sys2Proof.Machine

/-- Steps 3 to 7 of the decision chain, for a pixel that differs from `PREV` and after the run flush: the first branch
that applies decides (R235, R239 to R245). -/
def encodeChanged (new : Pixel) (s : State) : State :=
  let dr := channelDelta new.r s.prev.r
  let dg := channelDelta new.g s.prev.g
  let db := channelDelta new.b s.prev.b
  if (s.lookup new).1 then emitIndex (s.lookup new).2 s
  else if alphaDiffers new s.prev then emitRgba new s
  else if fitsDiff dr dg db then emitDiff dr dg db new s
  else if fitsLuma dr dg db then emitLuma dr dg db new s
  else emitRgb new s

/-- The decision chain for one pixel, from the run test to the flush and the emission (R235). -/
def encodeChain (new : Pixel) (s : State) : State :=
  if pixelEq new s.prev then extendRun s else encodeChanged new (flushRun s)

/-- The chain, `PREV <- new` (R246), and FINAL when the last pixel is consumed (R235). -/
def encodePixel (new : Pixel) (s : State) : State :=
  let t := { encodeChain new s with prev := new }
  if t.pixCount.toNat = t.n then { t with phase := .final } else t

/-- The pixel step (R234, R235): `InPixel`, then the chain. Without the pixel's bytes and without end of input the core
holds (R62); with end of input it raises INPUT_SHORT at the count of bytes taken before (R234, R272). -/
def pixelStep (s : State) : State :=
  if s.pixCount.toNat < s.n then
    match s.nextPixel with
    | some new => encodePixel new { s.takeInput (pixelSize s.channels) with pixCount := s.pixCount + 1 }
    | none =>
      if s.inEnd then
        (s.takeInput s.inQueue.length).raise .inputShort (s.pixCount * s.channels.zeroExtend 64)
      else s
  else s

/-- The final step: the run flush (R248), then the end marker (R249). -/
def finalStep (s : State) : Host.Outcome State Fault Refusal := exec .endMarker (flushRun s)

end Sys2Proof.Machine
end

