-- ==== Sys2Proof/Machine/CoreStep.lean ====
section
/-! DEFINITION. One step of the core: which step each phase takes (R190, R230, R306), and the output channel's part in it
(R63, R312). -/

namespace Sys2Proof.Machine

/-- What the phase and mode have the core do, the output channel aside. IDLE, DONE and ERROR do nothing (R280, R284,
R305), nor does FINAL in a decode pass, which no pass reaches (R306; notes/assumptions/10.md). -/
def coreAction (p : Params) (s : State) : Host.Outcome State Fault Refusal :=
  match s.phase, s.mode with
  | .header, .decode => .next (decodeHeader p s)
  | .header, .encode => .next (encodeHeader p s)
  | .body, .decode => decodeStep s
  | .body, .encode => .next (pixelStep s)
  | .final, .encode => finalStep s
  | .final, .decode => .next s
  | .idle, _ => .next s
  | .done, _ => .next s
  | .error, _ => .next s

/-- A step is taken only if the output channel accepts every byte it gives; else the core holds and no state changes
(R63, R312). A step that would carry `BYTECNT` round to a smaller value faults (R24; notes/assumptions/8.md). -/
def gate (s t : State) : Host.Outcome State Fault Refusal :=
  if s.outRoom < t.out.length - s.out.length then .next s
  else if t.byteCount.toNat < s.byteCount.toNat then .fault .byteCountWraps
  else .next { t with outRoom := s.outRoom - (t.out.length - s.out.length) }

/-- The core's turn. -/
def coreStep (p : Params) (s : State) : Host.Outcome State Fault Refusal :=
  match coreAction p s with
  | .next t => gate s t
  | .fault r => .fault r
  | .refused r => .refused r

/-- One turn of the closed machine: the move named first, or the core's where none is named (notes/assumptions/2.md). -/
def turnStep (p : Params) (s : State) : Host.Outcome State Fault Refusal :=
  match s.turns with
  | [] => coreStep p s
  | .core :: ts => coreStep p { s with turns := ts }
  | .host m :: ts => hostMove p m { s with turns := ts }

/-- `s` with the end marker as the core's next work: the final step of an encode pass with no run pending. -/
def State.withMarkerNext (s : State) : State :=
  { s with
    phase := .final
    mode := .encode
    run := 0
    turns := []
    outRoom := max s.outRoom 8 }

/-- `s` with an opcode group as the core's next work: a decode pass that still wants the longest run's pixels, the bytes next in
the input channel, and room for that run's output. -/
def State.withGroupNext (s : State) (bytes : List Byte) : State :=
  { s with
    phase := .body
    mode := .decode
    n := max s.n (s.pixCount.toNat + 62)
    turns := []
    inQueue := bytes
    outRoom := max s.outRoom 248 }

end Sys2Proof.Machine
end

