-- ==== Sys2Proof/Machine/Step.lean ====
section
/-! DEFINITION. One step of the machine, and the state in which a given instruction is the next it runs. -/

namespace Sys2Proof.Machine

/-- One step, with the open parameters as an argument. -/
def stepWith (p : Params) (s : State) : Host.Outcome State Fault Refusal := turnStep p s

/-- One step of the machine with its own parameters. -/
def step (s : State) : Host.Outcome State Fault Refusal := stepWith Config.params s

/-- `s` with the opcode-table word stored where `step` fetches its next instruction (notes/assumptions/6.md). -/
def State.withFetchWord (s : State) (nbits w : Nat) : State :=
  match tablePart nbits with
  | .marker => s.withMarkerNext
  | .groups => s.withGroupNext (tableBytes nbits w)

end Sys2Proof.Machine
end

