-- ==== Sys2Proof/Machine/Assembly.lean ====
section
/-! DEFINITION. The assembler syntax and the pseudo-instructions (R104, R105). An operand outside its range is refused, never
wrapped. -/

namespace Sys2Proof.Machine

/-- A line of assembly (R104, R105). -/
inductive AsmLine where
  | index (k : Int)
  | diff (dr dg db : Int)
  | luma (dg drdg dbdg : Int)
  | run (n : Int)
  | rgb (r g b : Int)
  | rgba (r g b a : Int)
  | header (w h c cs : Int)
  | endLine
  | runs (n : Nat)
  deriving DecidableEq, Repr

/-- A value stored with a bias in a field of `bits` bits, if it lies in the field's range (R101, R104). -/
def asmField (bits : Nat) (bias v : Int) : Option (BitVec bits) :=
  if 0 ≤ v + bias ∧ v + bias < 2 ^ bits then some (BitVec.ofInt bits (v + bias)) else none

/-- RUN `n`, for `n` from 1 to 62: 63 and 64 would spell the tags (R104). -/
def asmRun (n : Int) : Option (List Byte) :=
  if 1 ≤ n ∧ n ≤ 62 then some (encode (.run (BitVec.ofInt 6 (n - 1)))) else none

/-- The expansion of `RUNS n` (R105). -/
def runsBytes (n : Nat) : List Byte :=
  List.replicate (n / 62) 0xFD ++ if n % 62 = 0 then [] else encode (.run (BitVec.ofNat 6 (n % 62 - 1)))

/-- The bytes of a line, or nothing where a line is not legal (R104, R105). HEADER's operand ranges are its fields' own
(notes/assumptions/11.md). -/
def assemble (p : Params) : AsmLine → Option (List Byte)
  | .index k => do
    let k ← asmField 6 0 k
    some (encode (.index k))
  | .diff dr dg db => do
    let fr ← asmField 2 2 dr
    let fg ← asmField 2 2 dg
    let fb ← asmField 2 2 db
    some (encode (.diff fr fg fb))
  | .luma dg drdg dbdg => do
    let fdg ← asmField 6 32 dg
    let fdr ← asmField 4 8 drdg
    let fdb ← asmField 4 8 dbdg
    some (encode (.luma fdg fdr fdb))
  | .run n => asmRun n
  | .rgb r g b => do
    let r ← asmField 8 0 r
    let g ← asmField 8 0 g
    let b ← asmField 8 0 b
    some (encode (.rgb r g b))
  | .rgba r g b a => do
    let r ← asmField 8 0 r
    let g ← asmField 8 0 g
    let b ← asmField 8 0 b
    let a ← asmField 8 0 a
    some (encode (.rgba r g b a))
  | .header w h c cs => do
    let w ← asmField 32 0 w
    let h ← asmField 32 0 h
    let c ← asmField 8 0 c
    let cs ← asmField 8 0 cs
    some (headerBytesOf p ⟨w, h, c, cs⟩)
  | .endLine => some (encode .endMarker)
  | .runs n => if 1 ≤ n then some (runsBytes n) else none

end Sys2Proof.Machine
end

