-- ==== Sys2Proof/Safety.lean ====
section
/-! DEFINITION. The terms claims are stated in: whose turn it is, what a step may leave unchanged, when a pass is over and what
it then shows, the machine's invariant, and the relation between an encoder and the decoder that follows it. -/

namespace Sys2Proof.Machine

/-- The machine with given parameters, as `Sys2Proof.core` is the machine with `Config.params`. -/
def coreWith (p : Params) : Host.Core :=
  { State := State, Fault := Fault, Refusal := Refusal, step := stepWith p, reset := State.reset }

/-- The core moves next. -/
def State.coreTurn (s : State) : Bool :=
  match s.turns with
  | [] => true
  | .core :: _ => true
  | .host _ :: _ => false

/-- `s` with the turn that is being taken off its list. -/
def State.afterTurn (s : State) : State := { s with turns := s.turns.tail }

/-- The host's next move is `m`. -/
def State.HostTurn (s : State) (m : HostMove) : Prop := s.turns.head? = some (.host m)

/-- The configuration registers are the same (R28, R33). -/
structure SameConfig (s t : State) : Prop where
  ctrlMode : t.ctrlMode = s.ctrlMode
  width : t.width = s.width
  height : t.height = s.height
  channels : t.channels = s.channels
  colorspace : t.colorspace = s.colorspace
  inLen : t.inLen = s.inLen

/-- The error record is the same (R29). -/
structure SameError (s t : State) : Prop where
  errCode : t.errCode = s.errCode
  errCause : t.errCause = s.errCause
  errPos : t.errPos = s.errPos

/-- The host's side is the same but for its readiness to accept output. -/
structure SameHost (s t : State) : Prop where
  inEnd : t.inEnd = s.inEnd
  replies : t.replies = s.replies
  turns : t.turns = s.turns

/-- Nothing is different but `PREV`, the cache, the counters, the output, `RUN` and `PHASE`. -/
structure SameRest (s t : State) : Prop where
  mode : t.mode = s.mode
  n : t.n = s.n
  inQueue : t.inQueue = s.inQueue
  outRoom : t.outRoom = s.outRoom
  config : SameConfig s t
  error : SameError s t
  host : SameHost s t

/-- One pixel was appended to the output and made `PREV` (R64, R23). -/
structure PixelProduced (s t : State) (new : Pixel) : Prop where
  prev : t.prev = new
  out : t.out = s.out ++ (if s.channels = 4 then [new.r, new.g, new.b, new.a] else [new.r, new.g, new.b])
  pixCount : t.pixCount = s.pixCount + 1

/-- The cache slot of `new` holds `new`, every other slot is as before (R172). -/
structure SlotWritten (s t : State) (new : Pixel) : Prop where
  slot : t.readCache (pixelHash new) = new
  others : ∀ k, k ≠ pixelHash new → t.readCache k = s.readCache k

/-- The bytes of one output pixel of a pass with this channel count (R64). -/
def State.pixelWidth (s : State) : Nat := if s.channels = 4 then 4 else 3

/-- In a decode pass that still wants pixels (of `N` below 2^64, R27), a group's bytes are next in the channel, and the output channel accepts whatever
the group gives. -/
structure GroupReady (s : State) (bytes rest : List Byte) : Prop where
  turn : s.coreTurn = true
  phase : s.phase = .body
  mode : s.mode = .decode
  wanted : s.pixCount.toNat < s.n
  fits : s.n < 2 ^ 64
  queue : s.inQueue = bytes ++ rest
  room : 248 ≤ s.outRoom
  count : s.byteCount.toNat + bytes.length < 2 ^ 64

/-- What every complete opcode step does beside its instruction's own effect: the bytes are taken and counted, the pass is
DONE when `PIXCNT` reaches `N` (R24, R190, R200), and the output channel has so many bytes less room. -/
structure GroupTaken (s t : State) (len pixels : Nat) (rest : List Byte) : Prop where
  byteCount : t.byteCount = s.byteCount + BitVec.ofNat 64 len
  queue : t.inQueue = rest
  phase : t.phase = if s.pixCount.toNat + pixels = s.n then .done else .body
  room : t.outRoom = s.outRoom - pixels * s.pixelWidth
  run : t.run = s.run
  mode : t.mode = s.mode
  n : t.n = s.n
  config : SameConfig s t
  error : SameError s t
  host : SameHost s.afterTurn t

/-- Error entry (R274): the record is written, `PHASE` is ERROR, and nothing else changes but what the step had taken from the
input channel before it, and its count. -/
structure Raises (s t : State) (cause : ErrCause) (pos : Count) : Prop where
  phase : t.phase = .error
  errCause : t.errCause = cause
  errCode : t.errCode = cause.errCode
  errPos : t.errPos = pos
  prev : t.prev = s.prev
  cache : t.cache = s.cache
  run : t.run = s.run
  pixCount : t.pixCount = s.pixCount
  out : t.out = s.out
  outRoom : t.outRoom = s.outRoom
  mode : t.mode = s.mode
  n : t.n = s.n
  config : SameConfig s t
  host : SameHost s.afterTurn t

/-- In an encode pass that still wants pixels (of `N` below 2^64, R27), the pixel `new` is next in the channel, and the output channel accepts whatever
the pixel step gives (at most six bytes, R253). -/
structure PixelReady (s : State) (new : Pixel) : Prop where
  turn : s.coreTurn = true
  phase : s.phase = .body
  mode : s.mode = .encode
  wanted : s.pixCount.toNat < s.n
  fits : s.n < 2 ^ 64
  pixel : s.nextPixel = some new
  room : 6 ≤ s.outRoom
  count : s.byteCount.toNat + 6 < 2 ^ 64

/-- What every pixel step does, whichever branch of the chain it takes: the pixel is consumed and counted, the branch's bytes
are given and counted, `PREV` becomes the pixel, and the pass is FINAL when `PIXCNT` reaches `N` (R234, R235, R246). -/
structure PixelTaken (s t : State) (new : Pixel) (bytes : List Byte) : Prop where
  prev : t.prev = new
  pixCount : t.pixCount = s.pixCount + 1
  queue : t.inQueue = s.inQueue.drop s.pixelWidth
  out : t.out = s.out ++ bytes
  byteCount : t.byteCount = s.byteCount + BitVec.ofNat 64 bytes.length
  room : t.outRoom = s.outRoom - bytes.length
  phase : t.phase = if s.pixCount.toNat + 1 = s.n then .final else .body
  mode : t.mode = s.mode
  n : t.n = s.n
  config : SameConfig s t
  error : SameError s t
  host : SameHost s.afterTurn t

/-- The bytes of a run flush: none where no run is pending (R238). -/
def State.flushBytes (s : State) : List Byte :=
  if s.run = 0 then [] else [BitVec.ofNat 8 (0xC0 + (s.run.toNat - 1))]

/-- The pass is over: `BUSY` is 0 after a START (R305, R315). -/
def State.ended (s : State) : Bool := s.phase.isDone || s.phase.isError

/-- What is observed at the end of a pass (R315). -/
inductive Observation where
  /-- The stream an encode pass gave. -/
  | encoded (stream : List Byte)
  /-- The buffer a decode pass gave, the header's fields and the count of stream bytes taken. -/
  | decoded (buffer : List Byte) (header : Header) (byteCount : Count)
  /-- The error record; the output is void (R275). -/
  | failed (code : ErrCode) (cause : ErrCause) (pos : Count)
  deriving DecidableEq, Repr

/-- The observation of a state, if its pass is over: output counts only in DONE (R205, R275, R310). -/
def State.observe (s : State) : Option Observation :=
  match s.phase with
  | .done =>
    match s.mode with
    | .encode => some (.encoded s.out)
    | .decode => some (.decoded s.out ⟨s.width, s.height, s.channels, s.colorspace⟩ s.byteCount)
  | .error => some (.failed s.errCode s.errCause s.errPos)
  | .idle => none
  | .header => none
  | .body => none
  | .final => none

/-- What holds of the machine between any two turns. -/
structure State.Inv (s : State) : Prop where
  /-- `RUN` lies in [0, 62] (R22). -/
  runBound : s.run.toNat ≤ 62
  /-- `RUN` stays 0 for a whole decode pass (R22). -/
  runInDecode : s.mode = .decode → s.run = 0
  /-- A run is pending only while pixels are consumed, before the final flush, or frozen by an error. -/
  runPhase : s.run ≠ 0 → s.phase = .body ∨ s.phase = .final ∨ s.phase = .error
  /-- The pending pixels were consumed. -/
  runCounted : s.run.toNat ≤ s.pixCount.toNat
  /-- `N` is below 2^64 (R27). -/
  nBound : s.n < 2 ^ 64
  /-- Before the header step nothing is counted and nothing is given. -/
  fresh : s.phase = .idle ∨ s.phase = .header → s.pixCount = 0 ∧ s.byteCount = 0 ∧ s.out = []
  /-- In BODY pixels are still wanted (R25). -/
  bodyCount : s.phase = .body → s.pixCount.toNat < s.n
  /-- FINAL is an encode pass with all pixels consumed (R25). -/
  finalCount : s.phase = .final → s.mode = .encode ∧ s.pixCount.toNat = s.n
  /-- DONE is reached at exactly `N` pixels (R200, R305). -/
  doneCount : s.phase = .done → s.pixCount.toNat = s.n
  /-- While pixels are handled, `N` is `WIDTH*HEIGHT` and the channel count is legal (R27, R123). -/
  active : s.phase = .body ∨ s.phase = .final →
    s.n = s.width.toNat * s.height.toNat ∧ (s.channels = 3 ∨ s.channels = 4)
  /-- ERR is 0 exactly outside ERROR (R35). -/
  errorPhase : s.phase = .error ↔ s.errCode ≠ .none
  /-- The cause belongs to the code (R271). -/
  errorCause : s.errCode = s.errCause.errCode
  /-- Outside ERROR the position is clear (R29). -/
  errorPos : s.phase ≠ .error → s.errPos = 0
  /-- A slot holds (0,0,0,0) or a pixel of its own hash (R173). -/
  cacheSlots : ∀ k, s.readCache k = Pixel.zero ∨ pixelHash (s.readCache k) = k
  /-- In an encode pass `BYTECNT` counts the bytes given (R24). -/
  encodedOut : s.mode = .encode → s.out.length = s.byteCount.toNat
  /-- In a decode pass the output is `PIXCNT` pixels (R23, R64). -/
  decodedOut : s.mode = .decode → s.phase = .body → s.out.length = s.pixCount.toNat * s.pixelWidth

/-- The pixel that a group passes to `UpdateCache`, if it does: RGB, RGBA, DIFF and LUMA do, the others never write the
cache (R172). -/
def cachedPixel (i : Instr) (prev : Pixel) : Option Pixel :=
  match i with
  | .index _ => none
  | .diff fr fg fb => some (applySmallDiff prev fr fg fb)
  | .luma fdg fdr fdb => some (applyLumaDiff prev fdg fdr fdb)
  | .run _ => none
  | .rgb r g b => some ⟨r, g, b, prev.a⟩
  | .rgba r g b a => some ⟨r, g, b, a⟩
  | .endMarker => none

/-- The bound of R253 while the stream is being written: a pending run is charged to its pixels. -/
def State.SizeBounded (s : State) : Prop :=
  s.mode = .encode →
    (s.phase = .body ∨ s.phase = .final →
      s.out.length + (if s.run = 0 then 0 else 1) ≤ 14 + 5 * s.pixCount.toNat) ∧
    (s.phase = .done → s.out.length ≤ 14 + 5 * s.n + 8)

/-- The rows of R306's table that the core's own steps take; `t` is the state after. -/
def CoreEdge (s t : State) : Prop :=
  (s.phase = .header ∧ s.mode = .decode ∧ t.phase = .done ∧ t.n = 0) ∨
  (s.phase = .header ∧ s.mode = .decode ∧ t.phase = .body ∧ 0 < t.n) ∨
  (s.phase = .header ∧ s.mode = .encode ∧ t.phase = .final ∧ t.n = 0) ∨
  (s.phase = .header ∧ s.mode = .encode ∧ t.phase = .body ∧ 0 < t.n) ∨
  (s.phase = .body ∧ s.mode = .decode ∧ t.phase = .done ∧ t.pixCount.toNat = t.n) ∨
  (s.phase = .body ∧ s.mode = .encode ∧ t.phase = .final ∧ t.pixCount.toNat = t.n) ∨
  (s.phase = .final ∧ s.mode = .encode ∧ t.phase = .done) ∨
  ((s.phase = .header ∨ s.phase = .body) ∧ t.phase = .error)

/-- The instruction the chain's steps 3 to 7 pick for a pixel that differs from `PREV` (R239 to R245). -/
def State.chosenGroup (s : State) (new : Pixel) : Instr :=
  let dr := normDelta ((new.r.toNat : Int) - s.prev.r.toNat)
  let dg := normDelta ((new.g.toNat : Int) - s.prev.g.toNat)
  let db := normDelta ((new.b.toNat : Int) - s.prev.b.toNat)
  if s.readCache (pixelHash new) = new then .index (pixelHash new)
  else if new.a ≠ s.prev.a then .rgba new.r new.g new.b new.a
  else if fitsDiff dr dg db then .diff (BitVec.ofInt 2 (dr + 2)) (BitVec.ofInt 2 (dg + 2)) (BitVec.ofInt 2 (db + 2))
  else if fitsLuma dr dg db then
    .luma (BitVec.ofInt 6 (dg + 32)) (BitVec.ofInt 4 (dr - dg + 8)) (BitVec.ofInt 4 (db - dg + 8))
  else .rgb new.r new.g new.b

/-- Two states that differ at most in `N`, and not in `N` where a step reads it: a stale `N` of an earlier pass (R48). -/
structure SameButStaleN (s t : State) : Prop where
  rest : { s with n := 0 } = { t with n := 0 }
  read : s.phase = .body ∨ s.phase = .final → s.n = t.n

/-- `count` copies of a pixel's output bytes. -/
def runBytes (channels : Byte) (p : Pixel) (count : Nat) : List Byte :=
  (List.replicate count (pixelBytes channels p)).flatten

/-- An encoder `e` and a decoder `d` that has executed all of `e`'s groups: same `PREV`, same cache; the decoder is behind by
the pending run only, in its pixel count and in its output (R176). `image` is what the encoder has consumed. -/
structure Lockstep (e d : State) (image : List Byte) : Prop where
  prev : d.prev = e.prev
  cache : d.cache = e.cache
  n : d.n = e.n
  channels : d.channels = e.channels
  pixCount : e.pixCount.toNat = d.pixCount.toNat + e.run.toNat
  out : d.out ++ runBytes e.channels e.prev e.run.toNat = image

/-- A state right after a START by a CTRL write of `v`, with the pass's whole input supplied, readiness for `room` output
bytes, and only the core left to move (R303, R304). -/
def State.started (s : State) (v : Word) (input : List Byte) (inEnd : Bool) (room : Nat) : State :=
  { writeReg .ctrl v s with inQueue := input, inEnd := inEnd, outRoom := room, turns := [] }

/-- An encode pass that R231 accepts and that fits the 64-bit byte counter (D27). -/
structure EncodeLegal (p : Params) (s : State) (input : List Byte) : Prop where
  free : s.phase.busy = false
  channels : s.channels = 3 ∨ s.channels = 4
  limit : s.width.toNat * s.height.toNat * s.channels.toNat ≤ p.maxBufferBytes
  inLen : s.inLen.toNat = s.width.toNat * s.height.toNat * s.channels.toNat
  input : input.length = s.inLen.toNat
  counter : 14 + 5 * (s.width.toNat * s.height.toNat) + 8 < 2 ^ 64

end Sys2Proof.Machine
end

