-- ==== Sys2Proof/Certificates/Slice0/Obligations.lean ====
section
/-! DEFINITION. The statements for the provers. Each docstring names the rule of spec/ it formalises. A statement about `step`
holds for whatever the open parameters are; where a statement depends on them it ranges over all `Params`. -/

open Sys2Proof Sys2Proof.Machine

/-! ## Encoding -/

/-- Decoding the bytes of any well-formed instruction, with any bytes after them, gives the instruction back and leaves
those bytes: no bit of an encoding is dropped (R93 to R98, R100). -/
def Obligations.DecodeOfEncode : Prop :=
  ∀ (i : Instr) (rest : List Byte), i.wf = true →
    decodeAt (partOf i) (encode i ++ rest) = .ok (i, rest)

/-- What the opcode decoder reads is well formed, is no end marker, and its encoding is exactly the bytes read: every
group has one meaning (R99, R102). -/
def Obligations.EncodeOfDecode : Prop :=
  ∀ (bytes rest : List Byte) (i : Instr), decodeAt .groups bytes = .ok (i, rest) →
    i.wf = true ∧ i ≠ .endMarker ∧ bytes = encode i ++ rest

/-- R99: the first-byte opcode map over all 256 values, with the payload fields as numbers. -/
def Obligations.FirstByteMap : Prop :=
  ∀ (b0 : Byte),
    (b0.toNat ≤ 0x3F → groupLength b0 = 1 ∧ ∀ rest,
      decodeAt .groups (b0 :: rest) = .ok (.index (BitVec.ofNat 6 (b0.toNat % 64)), rest)) ∧
    (0x40 ≤ b0.toNat ∧ b0.toNat ≤ 0x7F → groupLength b0 = 1 ∧ ∀ rest,
      decodeAt .groups (b0 :: rest) = .ok (.diff (BitVec.ofNat 2 (b0.toNat / 16 % 4))
        (BitVec.ofNat 2 (b0.toNat / 4 % 4)) (BitVec.ofNat 2 (b0.toNat % 4)), rest)) ∧
    (0x80 ≤ b0.toNat ∧ b0.toNat ≤ 0xBF → groupLength b0 = 2 ∧ ∀ b1 rest,
      decodeAt .groups (b0 :: b1 :: rest) = .ok (.luma (BitVec.ofNat 6 (b0.toNat % 64))
        (BitVec.ofNat 4 (b1.toNat / 16)) (BitVec.ofNat 4 (b1.toNat % 16)), rest)) ∧
    (0xC0 ≤ b0.toNat ∧ b0.toNat ≤ 0xFD → groupLength b0 = 1 ∧ b0.toNat % 64 ≤ 61 ∧ ∀ rest,
      decodeAt .groups (b0 :: rest) = .ok (.run (BitVec.ofNat 6 (b0.toNat % 64)), rest)) ∧
    (b0.toNat = 0xFE → groupLength b0 = 4 ∧ ∀ b1 b2 b3 rest,
      decodeAt .groups (b0 :: b1 :: b2 :: b3 :: rest) = .ok (.rgb b1 b2 b3, rest)) ∧
    (b0.toNat = 0xFF → groupLength b0 = 5 ∧ ∀ b1 b2 b3 b4 rest,
      decodeAt .groups (b0 :: b1 :: b2 :: b3 :: b4 :: rest) = .ok (.rgba b1 b2 b3 b4, rest))

/-- One word of each family, written out from the spec's encoding of it (R93 to R98), decodes to what it stands for; the
end marker at its own place is END, and at a group's place reads as INDEX 0 (R100). -/
def Obligations.SampleWordsDecode : Prop :=
  decodeAt .groups [0b00001100] = .ok (.index 12, []) ∧
  decodeAt .groups [0b01011011] = .ok (.diff 1 2 3, []) ∧
  decodeAt .groups [0b10100101, 0b10000110] = .ok (.luma 37 8 6, []) ∧
  decodeAt .groups [0b11000001] = .ok (.run 1, []) ∧
  decodeAt .groups [0xFE, 10, 20, 30] = .ok (.rgb 10 20 30, []) ∧
  decodeAt .groups [0xFF, 10, 20, 30, 40] = .ok (.rgba 10 20 30 40, []) ∧
  decodeAt .marker [0, 0, 0, 0, 0, 0, 0, 0] = .ok (.endMarker, []) ∧
  decodeAt .groups [0, 0, 0, 0, 0, 0, 0, 0] = .ok (.index 0, [0, 0, 0, 0, 0, 0, 0])

/-- R104 and R105: the bytes of every line of assembly, one per opcode and the three pseudo-instructions, and that an operand outside
the range its rule gives is refused, never wrapped. R105 gives HEADER no ranges: its operands are its fields' values here, and any
others are in `WriteHeaderBytes`. -/
def Obligations.AssemblerLines : Prop :=
  ∀ p : Params,
    (∀ k : Int, assemble p (.index k) = if 0 ≤ k ∧ k ≤ 63 then some [BitVec.ofInt 8 k] else none) ∧
    (∀ dr dg db : Int, assemble p (.diff dr dg db) =
      if (-2 ≤ dr ∧ dr ≤ 1) ∧ (-2 ≤ dg ∧ dg ≤ 1) ∧ (-2 ≤ db ∧ db ≤ 1) then
        some [BitVec.ofInt 8 (0x40 + (dr + 2) * 16 + (dg + 2) * 4 + (db + 2))] else none) ∧
    (∀ dg ro bo : Int, assemble p (.luma dg ro bo) =
      if (-32 ≤ dg ∧ dg ≤ 31) ∧ (-8 ≤ ro ∧ ro ≤ 7) ∧ (-8 ≤ bo ∧ bo ≤ 7) then
        some [BitVec.ofInt 8 (0x80 + (dg + 32)), BitVec.ofInt 8 ((ro + 8) * 16 + (bo + 8))] else none) ∧
    (∀ n : Int, assemble p (.run n) = if 1 ≤ n ∧ n ≤ 62 then some [BitVec.ofInt 8 (0xC0 + (n - 1))] else none) ∧
    (∀ r g b : Int, assemble p (.rgb r g b) =
      if (0 ≤ r ∧ r ≤ 255) ∧ (0 ≤ g ∧ g ≤ 255) ∧ (0 ≤ b ∧ b ≤ 255) then
        some [0xFE, BitVec.ofInt 8 r, BitVec.ofInt 8 g, BitVec.ofInt 8 b] else none) ∧
    (∀ r g b a : Int, assemble p (.rgba r g b a) =
      if (0 ≤ r ∧ r ≤ 255) ∧ (0 ≤ g ∧ g ≤ 255) ∧ (0 ≤ b ∧ b ≤ 255) ∧ (0 ≤ a ∧ a ≤ 255) then
        some [0xFF, BitVec.ofInt 8 r, BitVec.ofInt 8 g, BitVec.ofInt 8 b, BitVec.ofInt 8 a] else none) ∧
    (∀ (w h : Word) (c cs : Byte), assemble p (.header w.toNat h.toNat c.toNat cs.toNat) =
      some [p.magic.extractLsb' 24 8, p.magic.extractLsb' 16 8, p.magic.extractLsb' 8 8, p.magic.extractLsb' 0 8,
        w.extractLsb' 24 8, w.extractLsb' 16 8, w.extractLsb' 8 8, w.extractLsb' 0 8,
        h.extractLsb' 24 8, h.extractLsb' 16 8, h.extractLsb' 8 8, h.extractLsb' 0 8, c, cs]) ∧
    assemble p .endLine = some [0, 0, 0, 0, 0, 0, 0, 0] ∧
    (∀ n : Nat, assemble p (.runs n) =
      if 1 ≤ n then
        some (List.replicate (n / 62) 0xFD ++ if n % 62 = 0 then [] else [BitVec.ofNat 8 (0xC0 + (n % 62 - 1))])
      else none)

/-! ## Pixel arithmetic -/

/-- R140: the hash, its range, the bound of the sum, and the rule's corner cases and example. -/
def Obligations.HashIsSumMod64 : Prop :=
  (∀ p : Pixel, (pixelHash p).toNat = (p.r.toNat * 3 + p.g.toNat * 5 + p.b.toNat * 7 + p.a.toNat * 11) % 64 ∧
    (pixelHash p).toNat ≤ 63 ∧ p.r.toNat * 3 + p.g.toNat * 5 + p.b.toNat * 7 + p.a.toNat * 11 ≤ 6630) ∧
  pixelHash ⟨0, 0, 0, 0⟩ = 0 ∧ pixelHash ⟨0, 0, 0, 255⟩ = 53 ∧ pixelHash ⟨255, 255, 255, 255⟩ = 38 ∧
  pixelHash ⟨10, 20, 30, 40⟩ = 12

/-- R142 and R143: the equality comparator is channel-wise equality, which is equality of the packed words, and the alpha
comparator is inequality of alpha. -/
def Obligations.ComparatorsAreChannelwise : Prop :=
  ∀ p q : Pixel,
    (pixelEq p q = true ↔ p.r = q.r ∧ p.g = q.g ∧ p.b = q.b ∧ p.a = q.a) ∧
    (pixelEq p q = true ↔ packPixel p = packPixel q) ∧
    (alphaDiffers p q = true ↔ p.a ≠ q.a)

/-- R144: rollover normalisation, its closed form, its range, its congruence and the rule's corner cases; and neither end of the wrap,
128 or -128, lies in a window. -/
def Obligations.NormFoldsToShortestPath : Prop :=
  (∀ d : Int, -255 ≤ d ∧ d ≤ 255 →
    (128 < d → normDelta d = d - 256) ∧ (d < -127 → normDelta d = d + 256) ∧
    (-127 ≤ d ∧ d ≤ 128 → normDelta d = d) ∧ normDelta d = (d + 127) % 256 - 127 ∧
    -127 ≤ normDelta d ∧ normDelta d ≤ 128 ∧ normDelta d % 256 = d % 256) ∧
  normDelta (-255) = 1 ∧ normDelta 255 = -1 ∧ normDelta 128 = 128 ∧ normDelta (-128) = 128 ∧
  normDelta 129 = -127 ∧ normDelta (-129) = 127 ∧ normDelta 0 = 0 ∧
  (∀ x y d : Int, d = 128 ∨ d = -128 →
    fitsDiff d x y = false ∧ fitsDiff x d y = false ∧ fitsDiff x y d = false ∧
    fitsLuma d x y = false ∧ fitsLuma x d y = false ∧ fitsLuma x y d = false)

/-- R146 to R148: the two window tests; on channels' differences they are tests on 8-bit differences alone, and the stored fields are
the low bits of the same sums. -/
def Obligations.WindowTests : Prop :=
  (∀ dr dg db : Int,
    (fitsDiff dr dg db = true ↔ (-2 ≤ dr ∧ dr ≤ 1) ∧ (-2 ≤ dg ∧ dg ≤ 1) ∧ (-2 ≤ db ∧ db ≤ 1)) ∧
    (fitsLuma dr dg db = true ↔
      (-32 ≤ dg ∧ dg ≤ 31) ∧ (-8 ≤ dr - dg ∧ dr - dg ≤ 7) ∧ (-8 ≤ db - dg ∧ db - dg ≤ 7))) ∧
  (∀ new prev : Pixel,
    let dr := channelDelta new.r prev.r
    let dg := channelDelta new.g prev.g
    let db := channelDelta new.b prev.b
    let ur : Byte := new.r - prev.r
    let ug : Byte := new.g - prev.g
    let ub : Byte := new.b - prev.b
    (fitsDiff dr dg db = true ↔ (ur + 2).toNat ≤ 3 ∧ (ug + 2).toNat ≤ 3 ∧ (ub + 2).toNat ≤ 3) ∧
    (fitsLuma dr dg db = true ↔
      (ug + 32).toNat ≤ 63 ∧ (ur - ug + 8).toNat ≤ 15 ∧ (ub - ug + 8).toNat ≤ 15) ∧
    (fitsDiff dr dg db = true →
      dr + 2 = (ur + 2).toNat ∧ dg + 2 = (ug + 2).toNat ∧ db + 2 = (ub + 2).toNat) ∧
    (fitsLuma dr dg db = true →
      dg + 32 = (ug + 32).toNat ∧ dr - dg + 8 = (ur - ug + 8).toNat ∧ db - dg + 8 = (ub - ug + 8).toNat))

/-- R149 and R150: reconstruction from a payload's bits, each channel modulo 256, alpha carried over. -/
def Obligations.ReconstructionPerChannel : Prop :=
  (∀ (prev : Pixel) (payload : BitVec 6),
    let new := applySmallDiff prev (payload.extractLsb' 4 2) (payload.extractLsb' 2 2) (payload.extractLsb' 0 2)
    (new.r.toNat : Int) = (prev.r.toNat + ((payload.toNat / 16 : Nat) - 2 : Int)) % 256 ∧
    (new.g.toNat : Int) = (prev.g.toNat + ((payload.toNat / 4 % 4 : Nat) - 2 : Int)) % 256 ∧
    (new.b.toNat : Int) = (prev.b.toNat + ((payload.toNat % 4 : Nat) - 2 : Int)) % 256 ∧ new.a = prev.a) ∧
  (∀ (prev : Pixel) (field : BitVec 6) (b1 : Byte),
    let new := applyLumaDiff prev field (b1.extractLsb' 4 4) (b1.extractLsb' 0 4)
    let dg : Int := field.toNat - 32
    let odr : Int := (b1.toNat / 16 : Nat) - 8
    let odb : Int := (b1.toNat % 16 : Nat) - 8
    (new.r.toNat : Int) = (prev.r.toNat + dg + odr) % 256 ∧ (new.g.toNat : Int) = (prev.g.toNat + dg) % 256 ∧
    (new.b.toNat : Int) = (prev.b.toNat + dg + odb) % 256 ∧ new.a = prev.a)

/-- R154: packing followed by reconstruction is the identity, read from the packed bytes' own fields. -/
def Obligations.PackThenReconstruct : Prop :=
  ∀ new prev : Pixel, new.a = prev.a →
    let dr := channelDelta new.r prev.r
    let dg := channelDelta new.g prev.g
    let db := channelDelta new.b prev.b
    (fitsDiff dr dg db = true →
      let b0 := packDiff dr dg db
      b0.extractLsb' 6 2 = 0b01 ∧
      applySmallDiff prev (b0.extractLsb' 4 2) (b0.extractLsb' 2 2) (b0.extractLsb' 0 2) = new) ∧
    (fitsLuma dr dg db = true →
      let b0 := packLumaFirst dg
      let b1 := packLumaSecond dr dg db
      b0.extractLsb' 6 2 = 0b10 ∧
      applyLumaDiff prev (b0.extractLsb' 0 6) (b1.extractLsb' 4 4) (b1.extractLsb' 0 4) = new)

/-! ## Header -/

/-- R129: header symmetry, whatever the magic and the size limit are. -/
def Obligations.HeaderSymmetry : Prop :=
  ∀ (p : Params) (h : Header), h.channels = 3 ∨ h.channels = 4 →
    h.width.toNat * h.height.toNat * h.channels.toNat ≤ p.maxBufferBytes →
    parseHeader p (headerBytesOf p h) = .ok h

/-- R120: the parse of 14 header bytes: the checks in their order, the big-endian fields, the channel and colorspace bytes
as they stand. `m3` to `m0` are compared with the bytes of MAGIC. -/
def Obligations.ParseHeaderChecksInOrder : Prop :=
  ∀ (p : Params) (m3 m2 m1 m0 w3 w2 w1 w0 h3 h2 h1 h0 c cs : Byte),
    let result := parseHeader p [m3, m2, m1, m0, w3, w2, w1, w0, h3, h2, h1, h0, c, cs]
    let w := w3.toNat * 2 ^ 24 + w2.toNat * 2 ^ 16 + w1.toNat * 2 ^ 8 + w0.toNat
    let h := h3.toNat * 2 ^ 24 + h2.toNat * 2 ^ 16 + h1.toNat * 2 ^ 8 + h0.toNat
    let magicOk := m3.toNat * 2 ^ 24 + m2.toNat * 2 ^ 16 + m1.toNat * 2 ^ 8 + m0.toNat = p.magic.toNat
    (¬ magicOk → result = .error .badMagic) ∧
    (magicOk → c ≠ 3 ∧ c ≠ 4 → result = .error .badChannels) ∧
    (magicOk → c = 3 ∨ c = 4 → p.maxBufferBytes < w * h * c.toNat → result = .error .sizeLimit) ∧
    (magicOk → c = 3 ∨ c = 4 → w * h * c.toNat ≤ p.maxBufferBytes →
      result = .ok ⟨BitVec.ofNat 32 w, BitVec.ofNat 32 h, c, cs⟩ ∧ w < 2 ^ 32 ∧ h < 2 ^ 32)

/-- R128: the 14 bytes of a written header, each as a number. And the model's own choice (notes/assumptions/11.md), as R105 gives
HEADER no operand ranges: a HEADER line is legal exactly where each operand fits its field. -/
def Obligations.WriteHeaderBytes : Prop :=
  (∀ (p : Params) (h : Header),
    (headerBytesOf p h).map BitVec.toNat =
      [p.magic.toNat / 2 ^ 24, p.magic.toNat / 2 ^ 16 % 256, p.magic.toNat / 2 ^ 8 % 256, p.magic.toNat % 256,
       h.width.toNat / 2 ^ 24, h.width.toNat / 2 ^ 16 % 256, h.width.toNat / 2 ^ 8 % 256, h.width.toNat % 256,
       h.height.toNat / 2 ^ 24, h.height.toNat / 2 ^ 16 % 256, h.height.toNat / 2 ^ 8 % 256, h.height.toNat % 256,
       h.channels.toNat, h.colorspace.toNat]) ∧
  (∀ (p : Params) (w h c cs : Int), (assemble p (.header w h c cs)).isSome = true ↔
    (0 ≤ w ∧ w < 2 ^ 32) ∧ (0 ≤ h ∧ h < 2 ^ 32) ∧ (0 ≤ c ∧ c < 2 ^ 8) ∧ (0 ≤ cs ∧ cs < 2 ^ 8))

/-- R191 and R192: the decoder's header step. With 14 bytes that parse, the fields are committed, `N` is the product and the
pass is in BODY, or in DONE where `N` is 0 (R193). With 14 bytes that do not parse, the parse's cause is raised at position
0 and no configuration is written. With fewer and end of input, HEADER_SHORT is raised at 0, the bytes counted. -/
def Obligations.DecodeHeaderStep : Prop :=
  ∀ (p : Params) (s : State), s.coreTurn = true → s.phase = .header → s.mode = .decode →
    s.byteCount.toNat + 14 < 2 ^ 64 →
    (∀ h, 14 ≤ s.inQueue.length → parseHeader p (s.inQueue.take 14) = .ok h →
      ∃ t, stepWith p s = .next t ∧ t.width = h.width ∧ t.height = h.height ∧ t.channels = h.channels ∧
        t.colorspace = h.colorspace ∧ t.n = h.width.toNat * h.height.toNat ∧
        t.phase = (if h.width.toNat * h.height.toNat = 0 then .done else .body) ∧
        t.byteCount = s.byteCount + 14 ∧ t.inQueue = s.inQueue.drop 14 ∧ t.out = s.out ∧ t.outRoom = s.outRoom ∧
        t.prev = s.prev ∧ t.cache = s.cache ∧ t.run = s.run ∧ t.pixCount = s.pixCount ∧ t.mode = s.mode ∧
        t.ctrlMode = s.ctrlMode ∧ t.inLen = s.inLen ∧ SameError s t ∧ SameHost s.afterTurn t) ∧
    (∀ cause, 14 ≤ s.inQueue.length → parseHeader p (s.inQueue.take 14) = .error cause →
      ∃ t, stepWith p s = .next t ∧ Raises s t cause 0 ∧ t.byteCount = s.byteCount + 14 ∧
        t.inQueue = s.inQueue.drop 14) ∧
    (s.inQueue.length < 14 → s.inEnd = true →
      ∃ t, stepWith p s = .next t ∧ Raises s t .headerShort 0 ∧
        t.byteCount = s.byteCount + BitVec.ofNat 64 s.inQueue.length ∧ t.inQueue = [])

/-- R231 and R232: the encoder's header step: the checks in their order, each raising at position 0 with nothing taken or
given; and when they pass, `N`, the written header and the phase (FINAL where `N` is 0). -/
def Obligations.EncodeHeaderStep : Prop :=
  ∀ (p : Params) (s : State), s.coreTurn = true → s.phase = .header → s.mode = .encode → 14 ≤ s.outRoom →
    s.byteCount.toNat + 14 < 2 ^ 64 →
    let size := s.width.toNat * s.height.toNat * s.channels.toNat
    let legal := s.channels = 3 ∨ s.channels = 4
    (∀ cause,
      (cause = .badChannels ∧ ¬ legal) ∨ (cause = .sizeLimit ∧ legal ∧ p.maxBufferBytes < size) ∨
        (cause = .inputLen ∧ legal ∧ size ≤ p.maxBufferBytes ∧ s.inLen.toNat ≠ size) →
      ∃ t, stepWith p s = .next t ∧ Raises s t cause 0 ∧ t.byteCount = s.byteCount ∧ t.inQueue = s.inQueue) ∧
    (legal → size ≤ p.maxBufferBytes → s.inLen.toNat = size →
      ∃ t, stepWith p s = .next t ∧ t.n = s.width.toNat * s.height.toNat ∧
        t.out = s.out ++ headerBytesOf p ⟨s.width, s.height, s.channels, s.colorspace⟩ ∧
        t.byteCount = s.byteCount + 14 ∧ t.outRoom = s.outRoom - 14 ∧
        t.phase = (if s.width.toNat * s.height.toNat = 0 then .final else .body) ∧
        t.inQueue = s.inQueue ∧ t.prev = s.prev ∧ t.cache = s.cache ∧ t.run = s.run ∧ t.pixCount = s.pixCount ∧
        t.mode = s.mode ∧ SameConfig s t ∧ SameError s t ∧ SameHost s.afterTurn t)

/-! ## The decoder's instructions -/

/-- R194. RGB produces the channels of its operands with the alpha of `PREV`, writes the pixel's slot and counts four bytes;
`exec` completes in every decode state; a group cut short by the end of input raises OPERAND_SHORT. -/
def Obligations.RgbDecodes : Prop :=
  (∀ (r g b : Byte) (s : State), s.mode = .decode →
    ∃ t, exec (.rgb r g b) s = .next t ∧ PixelProduced s t ⟨r, g, b, s.prev.a⟩ ∧
      SlotWritten s t ⟨r, g, b, s.prev.a⟩ ∧
      t.byteCount = s.byteCount ∧ t.run = s.run ∧ t.phase = s.phase ∧ SameRest s t) ∧
  (∀ (r g b : Byte) (rest : List Byte) (s : State), GroupReady s [0xFE, r, g, b] rest →
    ∃ t, step s = .next t ∧ PixelProduced s t ⟨r, g, b, s.prev.a⟩ ∧ SlotWritten s t ⟨r, g, b, s.prev.a⟩ ∧
      GroupTaken s t 4 1 rest) ∧
  (∀ (ops : List Byte) (s : State), GroupReady s (0xFE :: ops) [] → ops.length < 3 → s.inEnd = true →
    ∃ t, step s = .next t ∧ Raises s t .operandShort s.byteCount)

/-- R195. RGBA produces exactly its operands, whatever the channel count, writes the pixel's slot and counts five bytes. -/
def Obligations.RgbaDecodes : Prop :=
  (∀ (r g b a : Byte) (s : State), s.mode = .decode →
    ∃ t, exec (.rgba r g b a) s = .next t ∧ PixelProduced s t ⟨r, g, b, a⟩ ∧ SlotWritten s t ⟨r, g, b, a⟩ ∧
      t.byteCount = s.byteCount ∧ t.run = s.run ∧ t.phase = s.phase ∧ SameRest s t) ∧
  (∀ (r g b a : Byte) (rest : List Byte) (s : State), GroupReady s [0xFF, r, g, b, a] rest →
    ∃ t, step s = .next t ∧ PixelProduced s t ⟨r, g, b, a⟩ ∧ SlotWritten s t ⟨r, g, b, a⟩ ∧
      GroupTaken s t 5 1 rest) ∧
  (∀ (ops : List Byte) (s : State), GroupReady s (0xFF :: ops) [] → ops.length < 4 → s.inEnd = true →
    ∃ t, step s = .next t ∧ Raises s t .operandShort s.byteCount)

/-- R196. INDEX produces the slot's pixel, whatever it is, never writes the cache and counts one byte. -/
def Obligations.IndexDecodes : Prop :=
  (∀ (k : BitVec 6) (s : State), s.mode = .decode →
    ∃ t, exec (.index k) s = .next t ∧ PixelProduced s t (s.readCache k) ∧ t.cache = s.cache ∧
      t.byteCount = s.byteCount ∧ t.run = s.run ∧ t.phase = s.phase ∧ SameRest s t) ∧
  (∀ (b0 : Byte) (rest : List Byte) (s : State), b0.toNat ≤ 0x3F → GroupReady s [b0] rest →
    ∃ t, step s = .next t ∧ PixelProduced s t (s.readCache (BitVec.ofNat 6 b0.toNat)) ∧ t.cache = s.cache ∧
      GroupTaken s t 1 1 rest)

/-- R197. DIFF produces `PREV` moved by its three biased fields, writes the pixel's slot and counts one byte. -/
def Obligations.DiffDecodes : Prop :=
  (∀ (fr fg fb : BitVec 2) (s : State), s.mode = .decode →
    ∃ t, exec (.diff fr fg fb) s = .next t ∧ PixelProduced s t (applySmallDiff s.prev fr fg fb) ∧
      SlotWritten s t (applySmallDiff s.prev fr fg fb) ∧
      t.byteCount = s.byteCount ∧ t.run = s.run ∧ t.phase = s.phase ∧ SameRest s t) ∧
  (∀ (b0 : Byte) (rest : List Byte) (s : State), 0x40 ≤ b0.toNat → b0.toNat ≤ 0x7F → GroupReady s [b0] rest →
    let new := applySmallDiff s.prev (BitVec.ofNat 2 (b0.toNat / 16)) (BitVec.ofNat 2 (b0.toNat / 4))
      (BitVec.ofNat 2 b0.toNat)
    ∃ t, step s = .next t ∧ PixelProduced s t new ∧ SlotWritten s t new ∧ GroupTaken s t 1 1 rest)

/-- R198. LUMA produces `PREV` moved by its green delta and two offsets, writes the pixel's slot and counts two bytes; its
first byte alone before the end of input raises OPERAND_SHORT. -/
def Obligations.LumaDecodes : Prop :=
  (∀ (fdg : BitVec 6) (fdr fdb : BitVec 4) (s : State), s.mode = .decode →
    ∃ t, exec (.luma fdg fdr fdb) s = .next t ∧ PixelProduced s t (applyLumaDiff s.prev fdg fdr fdb) ∧
      SlotWritten s t (applyLumaDiff s.prev fdg fdr fdb) ∧
      t.byteCount = s.byteCount ∧ t.run = s.run ∧ t.phase = s.phase ∧ SameRest s t) ∧
  (∀ (b0 b1 : Byte) (rest : List Byte) (s : State), 0x80 ≤ b0.toNat → b0.toNat ≤ 0xBF →
    GroupReady s [b0, b1] rest →
    let new := applyLumaDiff s.prev (BitVec.ofNat 6 b0.toNat) (BitVec.ofNat 4 (b1.toNat / 16))
      (BitVec.ofNat 4 b1.toNat)
    ∃ t, step s = .next t ∧ PixelProduced s t new ∧ SlotWritten s t new ∧ GroupTaken s t 2 1 rest) ∧
  (∀ (b0 : Byte) (s : State), 0x80 ≤ b0.toNat → b0.toNat ≤ 0xBF → GroupReady s [b0] [] → s.inEnd = true →
    ∃ t, step s = .next t ∧ Raises s t .operandShort s.byteCount)

/-- R199. RUN repeats `PREV` for its length, clipped to the pixels still wanted; `PREV` and the cache are unchanged; one byte
is counted. -/
def Obligations.RunDecodes : Prop :=
  (∀ (len : BitVec 6) (s : State), s.mode = .decode →
    let k := min (len.toNat + 1) (s.n - s.pixCount.toNat)
    ∃ t, exec (.run len) s = .next t ∧ t.out = s.out ++ runBytes s.channels s.prev k ∧
      t.pixCount = s.pixCount + BitVec.ofNat 64 k ∧ t.prev = s.prev ∧ t.cache = s.cache ∧
      t.byteCount = s.byteCount ∧ t.run = s.run ∧ t.phase = s.phase ∧ SameRest s t) ∧
  (∀ (b0 : Byte) (rest : List Byte) (s : State), 0xC0 ≤ b0.toNat → b0.toNat ≤ 0xFD → GroupReady s [b0] rest →
    let k := min (b0.toNat % 64 + 1) (s.n - s.pixCount.toNat)
    ∃ t, step s = .next t ∧ t.out = s.out ++ runBytes s.channels s.prev k ∧
      t.pixCount = s.pixCount + BitVec.ofNat 64 k ∧ t.prev = s.prev ∧ t.cache = s.cache ∧
      GroupTaken s t 1 k rest)

/-- A step runs the decoded instruction. When the bytes next in the channel decode to `i`, the step is `exec i` on the state
whose channel has given the group's bytes, then DONE if `PIXCNT` is `N`, then the output channel's gate; and the final step of
an encode pass is the run flush, then `exec` of the end marker, then the gate (R190, R248, R249). -/
def Obligations.StepRunsDecodedGroup : Prop :=
  (∀ (s : State) (i : Instr) (rest : List Byte), s.coreTurn = true → s.phase = .body → s.mode = .decode →
    s.pixCount.toNat < s.n → decodeAt .groups s.inQueue = .ok (i, rest) →
    i.wf = true ∧ (s.afterTurn.takeInput (lengthBytes i)).inQueue = rest ∧
    step s = match exec i (s.afterTurn.takeInput (lengthBytes i)) with
      | .next t => gate s.afterTurn (finishAtN t)
      | .fault r => .fault r
      | .refused r => .refused r) ∧
  (∀ s : State, s.coreTurn = true → s.phase = .final → s.mode = .encode →
    step s = match exec .endMarker (flushRun s.afterTurn) with
      | .next t => gate s.afterTurn t
      | .fault r => .fault r
      | .refused r => .refused r)

/-- R201 and R202: end of input where an opcode's first byte is needed raises OPCODE_SHORT at the offset of the missing byte; end of
input within a group raises OPERAND_SHORT at the group's first byte, with the partial group's bytes taken and counted. Neither
produces a pixel nor changes `PREV` or the cache. -/
def Obligations.TruncatedGroupRaises : Prop :=
  ∀ s : State, s.coreTurn = true → s.phase = .body → s.mode = .decode → s.pixCount.toNat < s.n → s.inEnd = true →
    (s.inQueue = [] →
      ∃ t, step s = .next t ∧ Raises s t .opcodeShort s.byteCount ∧ t.byteCount = s.byteCount ∧ t.inQueue = []) ∧
    (∀ (b0 : Byte) (ops : List Byte), s.inQueue = b0 :: ops → s.inQueue.length < groupLength b0 →
      s.byteCount.toNat + s.inQueue.length < 2 ^ 64 →
      ∃ t, step s = .next t ∧ Raises s t .operandShort s.byteCount ∧
        t.byteCount = s.byteCount + BitVec.ofNat 64 s.inQueue.length ∧ t.inQueue = [])

/-- In an encode pass every instruction's meaning is its emission: exactly its encoding is given and counted; RGB, RGBA, DIFF and
LUMA write the slot of the pixel they stand for, the others leave the cache; RUN clears `RUN`; END ends the pass (R238 to
R249). -/
def Obligations.EncodeModeEmitsEncoding : Prop :=
  ∀ (i : Instr) (s : State), s.mode = .encode →
    ∃ t, exec i s = .next t ∧ t.out = s.out ++ encode i ∧
      t.byteCount = s.byteCount + BitVec.ofNat 64 (lengthBytes i) ∧
      (∀ new, cachedPixel i s.prev = some new → SlotWritten s t new) ∧
      (cachedPixel i s.prev = none → t.cache = s.cache) ∧
      ((∃ len, i = .run len) → t.run = 0) ∧ ((∀ len, i ≠ .run len) → t.run = s.run) ∧
      (i = .endMarker → t.phase = .done) ∧ (i ≠ .endMarker → t.phase = s.phase) ∧
      t.prev = s.prev ∧ t.pixCount = s.pixCount ∧ SameRest s t

/-- END in a decode pass changes nothing: the decoder never reads or checks the marker (R203). -/
def Obligations.EndMarkerIgnoredByDecoder : Prop :=
  ∀ s : State, s.mode = .decode → exec .endMarker s = .next s

/-- In IDLE, DONE and ERROR the core's turn changes nothing: no byte is taken or given after the pass is over (R280, R284, R305;
the end of R200). -/
def Obligations.NothingRunsOutsideAPass : Prop :=
  ∀ s : State, s.coreTurn = true → s.phase = .idle ∨ s.phase = .done ∨ s.phase = .error →
    step s = .next s.afterTurn

/-! ## The encoder's pixel step -/

/-- R236: a pixel equal to `PREV` with `RUN < 62` extends the run and gives nothing, even where its slot holds it. -/
def Obligations.RunExtension : Prop :=
  ∀ (s : State) (new : Pixel), PixelReady s new → new = s.prev → s.run.toNat < 62 →
    ∃ t, step s = .next t ∧ PixelTaken s t new [] ∧ t.run = s.run + 1 ∧ t.cache = s.cache

/-- R237: a pixel equal to `PREV` with `RUN = 62` gives 0xFD and starts a new run of 1. -/
def Obligations.RunAtCapSplits : Prop :=
  ∀ (s : State) (new : Pixel), PixelReady s new → new = s.prev → s.run = 62 →
    ∃ t, step s = .next t ∧ PixelTaken s t new [0xFD] ∧ t.run = 1 ∧ t.cache = s.cache

/-- R239: a pixel that differs from `PREV` and stands in its own slot gives that slot's index, after the flush of a pending run,
and leaves the cache; so even where its alpha differs. -/
def Obligations.CacheHitEmitsIndex : Prop :=
  ∀ (s : State) (new : Pixel), PixelReady s new → new ≠ s.prev → s.readCache (pixelHash new) = new →
    ∃ t, step s = .next t ∧ PixelTaken s t new (s.flushBytes ++ [BitVec.ofNat 8 (pixelHash new).toNat]) ∧
      t.run = 0 ∧ t.cache = s.cache

/-- R240 and R252: a pixel that misses and whose alpha differs gives RGBA, whatever its colours are; in a pass of three channels
every pixel's alpha is 255. -/
def Obligations.AlphaChangeEmitsRgba : Prop :=
  (∀ (s : State) (new : Pixel), PixelReady s new → s.readCache (pixelHash new) ≠ new → new.a ≠ s.prev.a →
    ∃ t, step s = .next t ∧ PixelTaken s t new (s.flushBytes ++ [0xFF, new.r, new.g, new.b, new.a]) ∧
      t.run = 0 ∧ SlotWritten s t new) ∧
  (∀ (s : State) (new : Pixel), PixelReady s new → s.channels = 3 → new.a = 255)

/-- R242: a pixel that misses, keeps the alpha and fits the small window gives one DIFF byte. -/
def Obligations.SmallDiffEmitsDiff : Prop :=
  ∀ (s : State) (new : Pixel), PixelReady s new → new ≠ s.prev → s.readCache (pixelHash new) ≠ new →
    new.a = s.prev.a →
    let dr := normDelta ((new.r.toNat : Int) - s.prev.r.toNat)
    let dg := normDelta ((new.g.toNat : Int) - s.prev.g.toNat)
    let db := normDelta ((new.b.toNat : Int) - s.prev.b.toNat)
    fitsDiff dr dg db = true →
    ∃ t, step s = .next t ∧
      PixelTaken s t new (s.flushBytes ++ [BitVec.ofInt 8 (0x40 + (dr + 2) * 16 + (dg + 2) * 4 + (db + 2))]) ∧
      t.run = 0 ∧ SlotWritten s t new

/-- R244: a pixel that misses, keeps the alpha and fits only the luma window gives the two LUMA bytes. -/
def Obligations.LumaDiffEmitsLuma : Prop :=
  ∀ (s : State) (new : Pixel), PixelReady s new → new ≠ s.prev → s.readCache (pixelHash new) ≠ new →
    new.a = s.prev.a →
    let dr := normDelta ((new.r.toNat : Int) - s.prev.r.toNat)
    let dg := normDelta ((new.g.toNat : Int) - s.prev.g.toNat)
    let db := normDelta ((new.b.toNat : Int) - s.prev.b.toNat)
    fitsDiff dr dg db = false → fitsLuma dr dg db = true →
    ∃ t, step s = .next t ∧
      PixelTaken s t new (s.flushBytes ++
        [BitVec.ofInt 8 (0x80 + (dg + 32)), BitVec.ofInt 8 ((dr - dg + 8) * 16 + (db - dg + 8))]) ∧
      t.run = 0 ∧ SlotWritten s t new

/-- R245: a pixel that no earlier branch takes gives RGB. -/
def Obligations.FallbackEmitsRgb : Prop :=
  ∀ (s : State) (new : Pixel), PixelReady s new → new ≠ s.prev → s.readCache (pixelHash new) ≠ new →
    new.a = s.prev.a →
    let dr := normDelta ((new.r.toNat : Int) - s.prev.r.toNat)
    let dg := normDelta ((new.g.toNat : Int) - s.prev.g.toNat)
    let db := normDelta ((new.b.toNat : Int) - s.prev.b.toNat)
    fitsDiff dr dg db = false → fitsLuma dr dg db = false →
    ∃ t, step s = .next t ∧ PixelTaken s t new (s.flushBytes ++ [0xFE, new.r, new.g, new.b]) ∧
      t.run = 0 ∧ SlotWritten s t new

/-- The encoder and the instruction set agree: what the chain does for a pixel that differs from `PREV` is what `exec` does, in an
encode pass, with the instruction the chain picks. For DIFF and LUMA this rests on R154: `exec` rebuilds the pixel from the
fields, the chain has it. -/
def Obligations.ChainRunsChosenGroup : Prop :=
  ∀ (s : State) (new : Pixel), s.mode = .encode → new ≠ s.prev →
    (s.chosenGroup new).wf = true ∧ exec (s.chosenGroup new) s = .next (encodeChanged new s)

/-- R234: end of input before the pixel's last byte raises INPUT_SHORT at the count of input bytes taken before the step. -/
def Obligations.InputShortRaised : Prop :=
  ∀ s : State, s.coreTurn = true → s.phase = .body → s.mode = .encode → s.pixCount.toNat < s.n →
    s.channels = 3 ∨ s.channels = 4 → s.inQueue.length < s.channels.toNat → s.inEnd = true →
    s.pixCount.toNat * s.channels.toNat < 2 ^ 64 →
    ∃ t, step s = .next t ∧ Raises s t .inputShort (BitVec.ofNat 64 (s.pixCount.toNat * s.channels.toNat)) ∧
      t.byteCount = s.byteCount ∧ t.inQueue = []

/-- R248 and R249: the final step gives the pending run's byte, if any, and the eight zero bytes, clears `RUN` and ends the pass
in DONE. -/
def Obligations.FinalStepFlushesAndEnds : Prop :=
  ∀ s : State, s.coreTurn = true → s.phase = .final → s.mode = .encode → 9 ≤ s.outRoom →
    s.byteCount.toNat + 9 < 2 ^ 64 →
    ∃ t, step s = .next t ∧ t.out = s.out ++ s.flushBytes ++ [0, 0, 0, 0, 0, 0, 0, 0] ∧ t.run = 0 ∧
      t.phase = .done ∧ t.byteCount = s.byteCount + BitVec.ofNat 64 (s.flushBytes.length + 8) ∧
      t.outRoom = s.outRoom - (s.flushBytes.length + 8) ∧ t.prev = s.prev ∧ t.cache = s.cache ∧
      t.pixCount = s.pixCount ∧ t.inQueue = s.inQueue ∧ t.mode = s.mode ∧ t.n = s.n ∧ SameConfig s t ∧
      SameError s t ∧ SameHost s.afterTurn t

/-- R251: `m` pixels equal to `PREV` are given, once the run is flushed, as `m / 62` bytes 0xFD and one byte for the rest, the
pseudo-instruction RUNS `m`; every such byte encodes a length from 1 to 62. -/
def Obligations.RunsSplitAtSixtyTwo : Prop :=
  (∀ (s : State) (m : Nat) (rest : List Byte), s.turns = [] → s.phase = .body → s.mode = .encode → s.run = 0 →
    s.n < 2 ^ 64 → s.pixCount.toNat + m ≤ s.n → (s.channels ≠ 4 → s.prev.a = 255) →
    s.inQueue = runBytes s.channels s.prev m ++ rest → m ≤ s.outRoom → s.byteCount.toNat + m < 2 ^ 64 →
    ∃ t, Sys2Proof.core.run m s = .next t ∧ (flushRun t).out = s.out ++ runsBytes m ∧ t.prev = s.prev ∧
      t.cache = s.cache ∧ t.inQueue = rest ∧ t.pixCount = s.pixCount + BitVec.ofNat 64 m) ∧
  (∀ (m : Nat) (b : Byte), b ∈ runsBytes m → 1 ≤ b.toNat - 0xBF ∧ b.toNat - 0xBF ≤ 62)

/-! ## The channels -/

/-- R62: where a step needs a byte that the host has not supplied, and the host has not given end of input, the core holds: its turn
changes nothing. -/
def Obligations.CoreHoldsForInput : Prop :=
  ∀ s : State, s.coreTurn = true → s.inEnd = false →
    (s.phase = .header ∧ s.mode = .decode ∧ s.inQueue.length < 14) ∨
    (s.phase = .body ∧ s.mode = .decode ∧ s.pixCount.toNat < s.n ∧ s.inQueue = []) ∨
    (s.phase = .body ∧ s.mode = .decode ∧ s.pixCount.toNat < s.n ∧
      ∃ b0 ops, s.inQueue = b0 :: ops ∧ s.inQueue.length < groupLength b0) ∨
    (s.phase = .body ∧ s.mode = .encode ∧ s.pixCount.toNat < s.n ∧ s.inQueue.length < s.pixelWidth) →
    step s = .next s.afterTurn

/-- R63 and R312: a step that would give more bytes than the host is ready to accept is not taken, and the core's turn then changes
nothing; any other step is taken whole (`BYTECNT` not wrapping, R24; notes/assumptions/2.md and 8.md). A step that is taken gives
at most that many bytes, appends them, and uses up so much readiness. -/
def Obligations.OutputIsGated : Prop :=
  ∀ s : State, s.coreTurn = true →
    (∀ u, coreAction Config.params s.afterTurn = .next u →
      (s.outRoom < u.out.length - s.out.length → step s = .next s.afterTurn) ∧
      (u.out.length - s.out.length ≤ s.outRoom → s.byteCount.toNat ≤ u.byteCount.toNat →
        step s = .next { u with outRoom := s.outRoom - (u.out.length - s.out.length) })) ∧
    (∀ t, step s = .next t →
      t = s.afterTurn ∨
        ∃ bytes, t.out = s.out ++ bytes ∧ bytes.length ≤ s.outRoom ∧ t.outRoom = s.outRoom - bytes.length)

/-- R62 and R63 from the host's side: a supplied byte joins the end of the input, end of input is recorded, readiness adds up; input
after end of input is refused. -/
def Obligations.HostFeedsChannels : Prop :=
  ∀ s : State,
    (∀ b, s.HostTurn (.supply b) → s.inEnd = false →
      step s = .next { s.afterTurn with inQueue := s.inQueue ++ [b] }) ∧
    (s.HostTurn .endInput → s.inEnd = false → step s = .next { s.afterTurn with inEnd := true }) ∧
    (∀ k, s.HostTurn (.accept k) → step s = .next { s.afterTurn with outRoom := s.outRoom + k }) ∧
    (∀ b, s.HostTurn (.supply b) ∨ s.HostTurn .endInput → s.inEnd = true → step s = .refused .inputAfterEnd)

/-! ## The register block and reset -/

/-- R302 with R47: a CTRL write with START while not BUSY sets the mode bit first, initialises `PREV`, the cache, `RUN`, both counters and
the error record, latches the mode and enters HEADER; the configuration stays. Without START it sets the mode bit only; while BUSY
it is ignored. That START empties `inQueue`, `inEnd` and `out` is the model's inference from R302's streams that begin again, and
that it keeps `outRoom` is the model's own choice (notes/assumptions/7.md). -/
def Obligations.CtrlWrites : Prop :=
  ∀ (p : Params) (s : State) (v : Word), s.HostTurn (.write p.regBase 4 v) →
    (s.phase.busy = false → v.getLsbD 0 = true →
      ∃ t, stepWith p s = .next t ∧ t.ctrlMode = (if v.getLsbD 1 then .decode else .encode) ∧
        t.mode = t.ctrlMode ∧ t.phase = .header ∧ t.prev = ⟨0, 0, 0, 255⟩ ∧
        (∀ k, t.readCache k = ⟨0, 0, 0, 0⟩) ∧ t.run = 0 ∧ t.pixCount = 0 ∧ t.byteCount = 0 ∧ t.errCode = .none ∧
        t.errCause = .none ∧ t.errPos = 0 ∧ t.inQueue = [] ∧ t.inEnd = false ∧ t.out = [] ∧ t.width = s.width ∧
        t.height = s.height ∧ t.channels = s.channels ∧ t.colorspace = s.colorspace ∧ t.inLen = s.inLen ∧
        t.outRoom = s.outRoom ∧ t.replies = s.replies ∧ t.turns = s.turns.tail) ∧
    (s.phase.busy = false → v.getLsbD 0 = false →
      stepWith p s = .next { s.afterTurn with ctrlMode := if v.getLsbD 1 then .decode else .encode }) ∧
    (s.phase.busy = true → stepWith p s = .next s.afterTurn)

/-- R45: while BUSY a write to any register is ignored; a read, at any time, is answered with the register's value, which
`RegisterReads` gives field by field, and changes nothing else. -/
def Obligations.BusyWritesIgnored : Prop :=
  ∀ (p : Params) (s : State) (off : Nat), off < windowBytes p → off % 4 = 0 →
    (∀ v, s.phase.busy = true → s.HostTurn (.write (p.regBase + off) 4 v) → stepWith p s = .next s.afterTurn) ∧
    (s.HostTurn (.read (p.regBase + off) 4) →
      stepWith p s = .next { s.afterTurn with replies := s.replies ++ [readReg (regAt off) s] })

/-- R32 to R44: what each register of the block reads as, its bits as a sum of weights; reserved offsets read as 0. A bus read
answers with this value: `BusyWritesIgnored`. -/
def Obligations.RegisterReads : Prop :=
  ∀ s : State,
    (readReg (regAt 0x00) s).toNat = 2 * (if s.ctrlMode = .decode then 1 else 0) ∧
    (readReg (regAt 0x04) s).toNat =
      (if s.phase = .header ∨ s.phase = .body ∨ s.phase = .final then 1 else 0) +
      2 * (if s.phase = .done then 1 else 0) + 4 * (if s.phase = .error then 1 else 0) +
      8 * (if s.run = 0 then 0 else 1) + 16 * s.phase.code.toNat ∧
    (readReg (regAt 0x08) s).toNat = s.errCode.code.toNat + 256 * s.errCause.code.toNat ∧
    readReg (regAt 0x0C) s = s.width ∧ readReg (regAt 0x10) s = s.height ∧
    (readReg (regAt 0x14) s).toNat = s.channels.toNat + 256 * s.colorspace.toNat ∧
    (readReg (regAt 0x18) s).toNat = s.inLen.toNat % 2 ^ 32 ∧ (readReg (regAt 0x1C) s).toNat = s.inLen.toNat / 2 ^ 32 ∧
    (readReg (regAt 0x20) s).toNat = s.pixCount.toNat % 2 ^ 32 ∧
    (readReg (regAt 0x24) s).toNat = s.pixCount.toNat / 2 ^ 32 ∧
    (readReg (regAt 0x28) s).toNat = s.byteCount.toNat % 2 ^ 32 ∧
    (readReg (regAt 0x2C) s).toNat = s.byteCount.toNat / 2 ^ 32 ∧
    (readReg (regAt 0x30) s).toNat = s.errPos.toNat % 2 ^ 32 ∧ (readReg (regAt 0x34) s).toNat = s.errPos.toNat / 2 ^ 32 ∧
    (readReg (regAt 0x38) s).toNat = s.run.toNat ∧
    (∀ off, off = 0x3C ∨ 0x40 ≤ off → readReg (regAt off) s = 0)

/-- R36 to R39 and R44: while not BUSY a bus write reaches the register at its offset; a configuration register is read back as
written, with FORMAT's reserved bits as 0, and the write changes that register alone; a write to a read-only or reserved register
changes nothing. -/
def Obligations.ConfigurationReadsBack : Prop :=
  ∀ (s : State) (v : Word), s.phase.busy = false →
    (∀ (p : Params) (off : Nat), off < windowBytes p → off % 4 = 0 → s.HostTurn (.write (p.regBase + off) 4 v) →
      stepWith p s = .next (writeReg (regAt off) v s.afterTurn)) ∧
    writeReg (regAt 0x0C) v s = { s with width := v } ∧ readReg (regAt 0x0C) (writeReg (regAt 0x0C) v s) = v ∧
    writeReg (regAt 0x10) v s = { s with height := v } ∧ readReg (regAt 0x10) (writeReg (regAt 0x10) v s) = v ∧
    (∃ c cs, writeReg (regAt 0x14) v s = { s with channels := c, colorspace := cs }) ∧
    (readReg (regAt 0x14) (writeReg (regAt 0x14) v s)).toNat = v.toNat % 2 ^ 16 ∧
    (∃ len, writeReg (regAt 0x18) v s = { s with inLen := len }) ∧
    readReg (regAt 0x18) (writeReg (regAt 0x18) v s) = v ∧
    readReg (regAt 0x1C) (writeReg (regAt 0x18) v s) = readReg (regAt 0x1C) s ∧
    (∃ len, writeReg (regAt 0x1C) v s = { s with inLen := len }) ∧
    readReg (regAt 0x1C) (writeReg (regAt 0x1C) v s) = v ∧
    readReg (regAt 0x18) (writeReg (regAt 0x1C) v s) = readReg (regAt 0x18) s ∧
    (∀ off, off = 0x04 ∨ off = 0x08 ∨ 0x20 ≤ off → writeReg (regAt off) v s = s)

/-- R69: an access inside the block's window that is not an aligned 32-bit word is refused. -/
def Obligations.MisshapenAccessRefused : Prop :=
  ∀ (p : Params) (s : State) (off width : Nat) (v : Word), off < windowBytes p → width ≠ 4 ∨ off % 4 ≠ 0 →
    s.HostTurn (.write (p.regBase + off) width v) ∨ s.HostTurn (.read (p.regBase + off) width) →
    stepWith p s = .refused .accessShape

/-- The numbers of the error causes with the code each belongs to (R270, R271), of the phases (R25) and of the modes (R26). -/
def Obligations.CodeNumbers : Prop :=
  (∀ c : ErrCause, (c, c.code.toNat, c.errCode.code.toNat) ∈
    [(ErrCause.none, 0, 0), (.badMagic, 1, 1), (.badChannels, 2, 1), (.sizeLimit, 3, 1), (.headerShort, 4, 2),
      (.opcodeShort, 5, 2), (.operandShort, 6, 2), (.inputLen, 7, 3), (.inputShort, 8, 3)]) ∧
  (∀ ph : Phase, (ph, ph.code.toNat) ∈
    [(Phase.idle, 0), (.header, 1), (.body, 2), (.final, 3), (.done, 4), (.error, 5)]) ∧
  Mode.encode.code = 0 ∧ Mode.decode.code = 1

/-- R46: what power-on leaves, for every item whose value the rule gives. -/
def Obligations.PowerOnValues : Prop :=
  let s := State.reset
  s.phase = .idle ∧ s.mode = .encode ∧ s.ctrlMode = .encode ∧ s.width = 0 ∧ s.height = 0 ∧ s.channels = 0 ∧
  s.colorspace = 0 ∧ s.inLen = 0 ∧ s.pixCount = 0 ∧ s.byteCount = 0 ∧ s.errCode = .none ∧ s.errCause = .none ∧
  s.errPos = 0 ∧ s.run = 0 ∧ (∀ off, readReg (regAt off) s = 0)

/-- R300 and R301: a reset, in any phase, leaves the power-on values and both channels empty; the host keeps the replies it has had. -/
def Obligations.ResetFromAnyPhase : Prop :=
  ∀ s : State, s.HostTurn .reset →
    ∃ t, step s = .next t ∧ t.phase = .idle ∧ (∀ off, readReg (regAt off) t = 0) ∧ t.mode = .encode ∧ t.inQueue = [] ∧
      t.inEnd = false ∧ t.out = [] ∧ t.outRoom = 0 ∧ t.replies = s.replies ∧ t.turns = s.turns.tail

/-! ## The whole machine -/

/-- The machine's invariant holds after reset. Its cache clause there rests on the model's own reset value of the cache
(notes/assumptions/1.md). -/
def Obligations.ResetMeetsInvariant : Prop := State.reset.Inv

/-- Every step, of the core or of the host, keeps the machine's invariant: `RUN` in [0, 62] (R22), the counts of each phase (R25, R200),
legal channels and `N` while pixels are handled (R27, R123), the error record tied to ERROR (R35, R271), every cache slot zero or
of its own hash (R173), and the output's length tied to the counters (R23, R24). -/
def Obligations.StepKeepsInvariant : Prop :=
  ∀ s t : State, s.Inv → step s = .next t → t.Inv

/-- R306: no phase transition but those of the table. -/
def Obligations.PhaseTransitions : Prop :=
  ∀ s t : State, step s = .next t →
    (s.coreTurn = true → t.phase = s.phase ∨ CoreEdge s t) ∧
    (∀ m, s.HostTurn m →
      (m = .reset ∧ t.phase = .idle) ∨ t.phase = s.phase ∨
      ((s.phase = .idle ∨ s.phase = .done ∨ s.phase = .error) ∧ t.phase = .header ∧
        ∃ addr v, m = .write addr 4 v ∧ v.getLsbD 0 = true ∧ regOf Config.params addr 4 = .ok .ctrl))

/-- R253: the stream of an encode pass is at most `14 + 5*N + 8` bytes long: the bound with the pending run charged to its pixels is
kept by every step. -/
def Obligations.StreamLengthBounded : Prop :=
  ∀ s t : State, s.Inv → s.SizeBounded → step s = .next t → t.SizeBounded

/-- R172: the cache is written in two ways only. A core step leaves it, or writes the slot of the pixel it makes `PREV`, and that pixel
alone; the host clears it by a START, a CTRL write with bit 0 set while not BUSY (R47), and but for a reset changes no slot
otherwise. -/
def Obligations.CacheWrittenTwoWays : Prop :=
  ∀ s t : State, step s = .next t →
    (s.coreTurn = true → t.cache = s.cache ∨ SlotWritten s t t.prev) ∧
    (∀ m, s.HostTurn m → t.cache = s.cache ∨ m = .reset ∨
      (s.phase.busy = false ∧ t.phase = .header ∧ (∀ k, t.readCache k = ⟨0, 0, 0, 0⟩) ∧
        ∃ addr v, m = .write addr 4 v ∧ v.getLsbD 0 = true ∧ regOf Config.params addr 4 = .ok .ctrl))

/-- R309 with R45 and R192: while BUSY no step but a decoder's header step and a reset changes the configuration. -/
def Obligations.ConfigurationFixedWhileBusy : Prop :=
  ∀ s t : State, s.phase.busy = true → step s = .next t →
    SameConfig s t ∨ s.HostTurn .reset ∨
      (s.coreTurn = true ∧ s.phase = .header ∧ s.mode = .decode ∧ t.ctrlMode = s.ctrlMode ∧ t.inLen = s.inLen)

/-- R48 and R73: nothing of an earlier pass reaches a later one. After a START two machines with the same configuration and the same
host agree on everything but a stale `N`, and from then on every step keeps them so, whatever the host does, and stops the one
exactly where it stops the other. That START drops what the channels held is the model's inference (notes/assumptions/7.md). -/
def Obligations.PassIndependentOfPast : Prop :=
  (∀ (s t : State) (v : Word), s.phase.busy = false → t.phase.busy = false → v.getLsbD 0 = true → SameConfig s t →
    s.outRoom = t.outRoom → s.replies = t.replies → s.turns = t.turns →
    SameButStaleN (writeReg .ctrl v s) (writeReg .ctrl v t)) ∧
  (∀ s t : State, SameButStaleN s t →
    (∀ s', step s = .next s' → ∃ t', step t = .next t' ∧ SameButStaleN s' t') ∧
    (∀ r, step s = .fault r → step t = .fault r) ∧ (∀ r, step s = .refused r → step t = .refused r))

/-- R314 for an encode pass: with live channels it ends in DONE after exactly `2 + N` steps, and not before. -/
def Obligations.EncodePassTakesTwoPlusN : Prop :=
  ∀ (p : Params) (s : State) (input : List Byte) (inEnd : Bool) (room : Nat), EncodeLegal p s input →
    14 + 5 * (s.width.toNat * s.height.toNat) + 8 ≤ room →
    (∀ k, k < 2 + s.width.toNat * s.height.toNat →
      ∃ e, (coreWith p).run k (s.started 1 input inEnd room) = .next e ∧ e.phase.busy = true) ∧
    ∃ e, (coreWith p).run (2 + s.width.toNat * s.height.toNat) (s.started 1 input inEnd room) = .next e ∧
      e.phase = .done

/-- R314 for a decode pass: with live channels, on any input at all, it ends in DONE or ERROR within `1 + N` steps. -/
def Obligations.DecodePassEnds : Prop :=
  ∀ (p : Params) (s : State) (input : List Byte) (room : Nat), s.phase.busy = false → input.length < 2 ^ 64 →
    p.maxBufferBytes ≤ room →
    ∃ k t, (coreWith p).run k (s.started 3 input true room) = .next t ∧ t.ended = true ∧ k ≤ 1 + t.n

/-- R176: the lockstep of encoder and decoder, pixel by pixel. Where a decoder has executed all an encoder has given, and the encoder
takes one more pixel and gives `bytes`, the decoder executes exactly those bytes, in at most two steps, and is in lockstep
again; what it has output, with the pending run, is what the encoder has consumed. -/
def Obligations.LockstepPerPixel : Prop :=
  ∀ (e d e' : State) (new : Pixel) (image bytes rest : List Byte), PixelReady e new →
    e.channels = 3 ∨ e.channels = 4 → e.run.toNat ≤ 62 → Lockstep e d image →
    step e = .next e' → e'.out = e.out ++ bytes →
    d.turns = [] → d.phase = .body → d.mode = .decode → d.inQueue = bytes ++ rest → 252 ≤ d.outRoom →
    d.byteCount.toNat + 6 < 2 ^ 64 →
    ∃ k d', k ≤ 2 ∧ Sys2Proof.core.run k d = .next d' ∧ d'.inQueue = rest ∧
      Lockstep e' d' (image ++ pixelBytes e.channels new) ∧
      d'.phase = if d'.pixCount.toNat = d.n then .done else .body

/-- R250: the round trip. An encode pass of a legal buffer ends in DONE, and a decode pass of the stream it gave, with any bytes after
it, on any machine, ends in DONE with exactly the buffer and the header's fields. -/
def Obligations.RoundTrip : Prop :=
  ∀ (p : Params) (s : State) (input : List Byte) (inEnd : Bool) (room : Nat), EncodeLegal p s input →
    14 + 5 * (s.width.toNat * s.height.toNat) + 8 ≤ room →
    ∃ k e, (coreWith p).run k (s.started 1 input inEnd room) = .next e ∧ e.observe = some (.encoded e.out) ∧
      ∀ (d : State) (more : List Byte) (inEnd' : Bool) (room' : Nat), d.phase.busy = false → input.length ≤ room' →
        ∃ k' d' count, (coreWith p).run k' (d.started 3 (e.out ++ more) inEnd' room') = .next d' ∧
          d'.observe = some (.decoded input ⟨s.width, s.height, s.channels, s.colorspace⟩ count)
end

