-- ==== Sys2Proof/Laws/Assembly.lean ====
section
/-! SUPPORT. An assembler's operand: when it is legal, and its field then. -/

namespace Sys2Proof.Machine

/-- An operand is legal exactly in its field's range (R104). -/
theorem asmField_isSome (bits : Nat) (bias v : Int) :
    (asmField bits bias v).isSome = true ↔ 0 ≤ v + bias ∧ v + bias < 2 ^ bits := by
  unfold asmField
  split <;> simp_all

/-- An operand in its range gives the field of its biased value. -/
theorem asmField_some {bits : Nat} {bias v : Int} (h : 0 ≤ v + bias ∧ v + bias < 2 ^ bits) :
    asmField bits bias v = some (BitVec.ofInt bits (v + bias)) := if_pos h

/-- An operand outside its range is refused, not wrapped. -/
theorem asmField_none {bits : Nat} {bias v : Int} (h : ¬ (0 ≤ v + bias ∧ v + bias < 2 ^ bits)) :
    asmField bits bias v = none := if_neg h

/-- A field's own value, as a number, is a legal operand and gives the field back. -/
theorem asmField_toNat {bits : Nat} (x : BitVec bits) : asmField bits 0 x.toNat = some x := by
  have h := x.isLt
  rw [asmField_some (by rw [Int.add_zero]; exact ⟨Int.natCast_nonneg _, by exact_mod_cast h⟩)]
  simp

end Sys2Proof.Machine
end

