-- ==== Sys2Proof/Laws/State.lean ====
section
/-! SUPPORT. What each shared operation does to each field of the state: one lemma a field, so that no proof unfolds an
operation. -/

namespace Sys2Proof.Machine

/-! ### takeInput -/

@[simp] theorem State.takeInput_prev (s : State) (k : Nat) : (s.takeInput k).prev = s.prev := rfl
@[simp] theorem State.takeInput_run (s : State) (k : Nat) : (s.takeInput k).run = s.run := rfl
@[simp] theorem State.takeInput_pixCount (s : State) (k : Nat) : (s.takeInput k).pixCount = s.pixCount := rfl
@[simp] theorem State.takeInput_phase (s : State) (k : Nat) : (s.takeInput k).phase = s.phase := rfl
@[simp] theorem State.takeInput_mode (s : State) (k : Nat) : (s.takeInput k).mode = s.mode := rfl
@[simp] theorem State.takeInput_n (s : State) (k : Nat) : (s.takeInput k).n = s.n := rfl
@[simp] theorem State.takeInput_cache (s : State) (k : Nat) : (s.takeInput k).cache = s.cache := rfl
@[simp] theorem State.takeInput_errCode (s : State) (k : Nat) : (s.takeInput k).errCode = s.errCode := rfl
@[simp] theorem State.takeInput_errCause (s : State) (k : Nat) : (s.takeInput k).errCause = s.errCause := rfl
@[simp] theorem State.takeInput_errPos (s : State) (k : Nat) : (s.takeInput k).errPos = s.errPos := rfl
@[simp] theorem State.takeInput_ctrlMode (s : State) (k : Nat) : (s.takeInput k).ctrlMode = s.ctrlMode := rfl
@[simp] theorem State.takeInput_width (s : State) (k : Nat) : (s.takeInput k).width = s.width := rfl
@[simp] theorem State.takeInput_height (s : State) (k : Nat) : (s.takeInput k).height = s.height := rfl
@[simp] theorem State.takeInput_channels (s : State) (k : Nat) : (s.takeInput k).channels = s.channels := rfl
@[simp] theorem State.takeInput_colorspace (s : State) (k : Nat) : (s.takeInput k).colorspace = s.colorspace := rfl
@[simp] theorem State.takeInput_inLen (s : State) (k : Nat) : (s.takeInput k).inLen = s.inLen := rfl
@[simp] theorem State.takeInput_inQueue (s : State) (k : Nat) : (s.takeInput k).inQueue = s.inQueue.drop k := rfl
@[simp] theorem State.takeInput_inEnd (s : State) (k : Nat) : (s.takeInput k).inEnd = s.inEnd := rfl
@[simp] theorem State.takeInput_out (s : State) (k : Nat) : (s.takeInput k).out = s.out := rfl
@[simp] theorem State.takeInput_outRoom (s : State) (k : Nat) : (s.takeInput k).outRoom = s.outRoom := rfl
@[simp] theorem State.takeInput_replies (s : State) (k : Nat) : (s.takeInput k).replies = s.replies := rfl
@[simp] theorem State.takeInput_turns (s : State) (k : Nat) : (s.takeInput k).turns = s.turns := rfl

/-! ### outBytes -/

@[simp] theorem State.outBytes_prev (s : State) (vs : List Byte) : (s.outBytes vs).prev = s.prev := rfl
@[simp] theorem State.outBytes_run (s : State) (vs : List Byte) : (s.outBytes vs).run = s.run := rfl
@[simp] theorem State.outBytes_pixCount (s : State) (vs : List Byte) : (s.outBytes vs).pixCount = s.pixCount := rfl
@[simp] theorem State.outBytes_phase (s : State) (vs : List Byte) : (s.outBytes vs).phase = s.phase := rfl
@[simp] theorem State.outBytes_mode (s : State) (vs : List Byte) : (s.outBytes vs).mode = s.mode := rfl
@[simp] theorem State.outBytes_n (s : State) (vs : List Byte) : (s.outBytes vs).n = s.n := rfl
@[simp] theorem State.outBytes_cache (s : State) (vs : List Byte) : (s.outBytes vs).cache = s.cache := rfl
@[simp] theorem State.outBytes_errCode (s : State) (vs : List Byte) : (s.outBytes vs).errCode = s.errCode := rfl
@[simp] theorem State.outBytes_errCause (s : State) (vs : List Byte) : (s.outBytes vs).errCause = s.errCause := rfl
@[simp] theorem State.outBytes_errPos (s : State) (vs : List Byte) : (s.outBytes vs).errPos = s.errPos := rfl
@[simp] theorem State.outBytes_ctrlMode (s : State) (vs : List Byte) : (s.outBytes vs).ctrlMode = s.ctrlMode := rfl
@[simp] theorem State.outBytes_width (s : State) (vs : List Byte) : (s.outBytes vs).width = s.width := rfl
@[simp] theorem State.outBytes_height (s : State) (vs : List Byte) : (s.outBytes vs).height = s.height := rfl
@[simp] theorem State.outBytes_channels (s : State) (vs : List Byte) : (s.outBytes vs).channels = s.channels := rfl
@[simp] theorem State.outBytes_colorspace (s : State) (vs : List Byte) : (s.outBytes vs).colorspace = s.colorspace := rfl
@[simp] theorem State.outBytes_inLen (s : State) (vs : List Byte) : (s.outBytes vs).inLen = s.inLen := rfl
@[simp] theorem State.outBytes_inQueue (s : State) (vs : List Byte) : (s.outBytes vs).inQueue = s.inQueue := rfl
@[simp] theorem State.outBytes_inEnd (s : State) (vs : List Byte) : (s.outBytes vs).inEnd = s.inEnd := rfl
@[simp] theorem State.outBytes_out (s : State) (vs : List Byte) : (s.outBytes vs).out = s.out ++ vs := rfl
@[simp] theorem State.outBytes_outRoom (s : State) (vs : List Byte) : (s.outBytes vs).outRoom = s.outRoom := rfl
@[simp] theorem State.outBytes_replies (s : State) (vs : List Byte) : (s.outBytes vs).replies = s.replies := rfl
@[simp] theorem State.outBytes_turns (s : State) (vs : List Byte) : (s.outBytes vs).turns = s.turns := rfl

/-! ### outPixel -/

@[simp] theorem State.outPixel_prev (s : State) (p : Pixel) : (s.outPixel p).prev = s.prev := rfl
@[simp] theorem State.outPixel_run (s : State) (p : Pixel) : (s.outPixel p).run = s.run := rfl
@[simp] theorem State.outPixel_pixCount (s : State) (p : Pixel) : (s.outPixel p).pixCount = s.pixCount + 1 := rfl
@[simp] theorem State.outPixel_phase (s : State) (p : Pixel) : (s.outPixel p).phase = s.phase := rfl
@[simp] theorem State.outPixel_mode (s : State) (p : Pixel) : (s.outPixel p).mode = s.mode := rfl
@[simp] theorem State.outPixel_n (s : State) (p : Pixel) : (s.outPixel p).n = s.n := rfl
@[simp] theorem State.outPixel_cache (s : State) (p : Pixel) : (s.outPixel p).cache = s.cache := rfl
@[simp] theorem State.outPixel_errCode (s : State) (p : Pixel) : (s.outPixel p).errCode = s.errCode := rfl
@[simp] theorem State.outPixel_errCause (s : State) (p : Pixel) : (s.outPixel p).errCause = s.errCause := rfl
@[simp] theorem State.outPixel_errPos (s : State) (p : Pixel) : (s.outPixel p).errPos = s.errPos := rfl
@[simp] theorem State.outPixel_ctrlMode (s : State) (p : Pixel) : (s.outPixel p).ctrlMode = s.ctrlMode := rfl
@[simp] theorem State.outPixel_width (s : State) (p : Pixel) : (s.outPixel p).width = s.width := rfl
@[simp] theorem State.outPixel_height (s : State) (p : Pixel) : (s.outPixel p).height = s.height := rfl
@[simp] theorem State.outPixel_channels (s : State) (p : Pixel) : (s.outPixel p).channels = s.channels := rfl
@[simp] theorem State.outPixel_colorspace (s : State) (p : Pixel) : (s.outPixel p).colorspace = s.colorspace := rfl
@[simp] theorem State.outPixel_inLen (s : State) (p : Pixel) : (s.outPixel p).inLen = s.inLen := rfl
@[simp] theorem State.outPixel_inQueue (s : State) (p : Pixel) : (s.outPixel p).inQueue = s.inQueue := rfl
@[simp] theorem State.outPixel_inEnd (s : State) (p : Pixel) : (s.outPixel p).inEnd = s.inEnd := rfl
@[simp] theorem State.outPixel_out (s : State) (p : Pixel) : (s.outPixel p).out = s.out ++ pixelBytes s.channels p := rfl
@[simp] theorem State.outPixel_outRoom (s : State) (p : Pixel) : (s.outPixel p).outRoom = s.outRoom := rfl
@[simp] theorem State.outPixel_replies (s : State) (p : Pixel) : (s.outPixel p).replies = s.replies := rfl
@[simp] theorem State.outPixel_turns (s : State) (p : Pixel) : (s.outPixel p).turns = s.turns := rfl

/-! ### writeCache -/

@[simp] theorem State.writeCache_prev (s : State) (k : BitVec 6) (p : Pixel) : (s.writeCache k p).prev = s.prev := rfl
@[simp] theorem State.writeCache_run (s : State) (k : BitVec 6) (p : Pixel) : (s.writeCache k p).run = s.run := rfl
@[simp] theorem State.writeCache_pixCount (s : State) (k : BitVec 6) (p : Pixel) : (s.writeCache k p).pixCount = s.pixCount := rfl
@[simp] theorem State.writeCache_byteCount (s : State) (k : BitVec 6) (p : Pixel) : (s.writeCache k p).byteCount = s.byteCount := rfl
@[simp] theorem State.writeCache_phase (s : State) (k : BitVec 6) (p : Pixel) : (s.writeCache k p).phase = s.phase := rfl
@[simp] theorem State.writeCache_mode (s : State) (k : BitVec 6) (p : Pixel) : (s.writeCache k p).mode = s.mode := rfl
@[simp] theorem State.writeCache_n (s : State) (k : BitVec 6) (p : Pixel) : (s.writeCache k p).n = s.n := rfl
@[simp] theorem State.writeCache_cache (s : State) (k : BitVec 6) (p : Pixel) : (s.writeCache k p).cache = s.cache.set k.toNat p k.isLt := rfl
@[simp] theorem State.writeCache_errCode (s : State) (k : BitVec 6) (p : Pixel) : (s.writeCache k p).errCode = s.errCode := rfl
@[simp] theorem State.writeCache_errCause (s : State) (k : BitVec 6) (p : Pixel) : (s.writeCache k p).errCause = s.errCause := rfl
@[simp] theorem State.writeCache_errPos (s : State) (k : BitVec 6) (p : Pixel) : (s.writeCache k p).errPos = s.errPos := rfl
@[simp] theorem State.writeCache_ctrlMode (s : State) (k : BitVec 6) (p : Pixel) : (s.writeCache k p).ctrlMode = s.ctrlMode := rfl
@[simp] theorem State.writeCache_width (s : State) (k : BitVec 6) (p : Pixel) : (s.writeCache k p).width = s.width := rfl
@[simp] theorem State.writeCache_height (s : State) (k : BitVec 6) (p : Pixel) : (s.writeCache k p).height = s.height := rfl
@[simp] theorem State.writeCache_channels (s : State) (k : BitVec 6) (p : Pixel) : (s.writeCache k p).channels = s.channels := rfl
@[simp] theorem State.writeCache_colorspace (s : State) (k : BitVec 6) (p : Pixel) : (s.writeCache k p).colorspace = s.colorspace := rfl
@[simp] theorem State.writeCache_inLen (s : State) (k : BitVec 6) (p : Pixel) : (s.writeCache k p).inLen = s.inLen := rfl
@[simp] theorem State.writeCache_inQueue (s : State) (k : BitVec 6) (p : Pixel) : (s.writeCache k p).inQueue = s.inQueue := rfl
@[simp] theorem State.writeCache_inEnd (s : State) (k : BitVec 6) (p : Pixel) : (s.writeCache k p).inEnd = s.inEnd := rfl
@[simp] theorem State.writeCache_out (s : State) (k : BitVec 6) (p : Pixel) : (s.writeCache k p).out = s.out := rfl
@[simp] theorem State.writeCache_outRoom (s : State) (k : BitVec 6) (p : Pixel) : (s.writeCache k p).outRoom = s.outRoom := rfl
@[simp] theorem State.writeCache_replies (s : State) (k : BitVec 6) (p : Pixel) : (s.writeCache k p).replies = s.replies := rfl
@[simp] theorem State.writeCache_turns (s : State) (k : BitVec 6) (p : Pixel) : (s.writeCache k p).turns = s.turns := rfl

/-! ### raise -/

@[simp] theorem State.raise_prev (s : State) (c : ErrCause) (pos : Count) : (s.raise c pos).prev = s.prev := rfl
@[simp] theorem State.raise_run (s : State) (c : ErrCause) (pos : Count) : (s.raise c pos).run = s.run := rfl
@[simp] theorem State.raise_pixCount (s : State) (c : ErrCause) (pos : Count) : (s.raise c pos).pixCount = s.pixCount := rfl
@[simp] theorem State.raise_byteCount (s : State) (c : ErrCause) (pos : Count) : (s.raise c pos).byteCount = s.byteCount := rfl
@[simp] theorem State.raise_phase (s : State) (c : ErrCause) (pos : Count) : (s.raise c pos).phase = .error := rfl
@[simp] theorem State.raise_mode (s : State) (c : ErrCause) (pos : Count) : (s.raise c pos).mode = s.mode := rfl
@[simp] theorem State.raise_n (s : State) (c : ErrCause) (pos : Count) : (s.raise c pos).n = s.n := rfl
@[simp] theorem State.raise_cache (s : State) (c : ErrCause) (pos : Count) : (s.raise c pos).cache = s.cache := rfl
@[simp] theorem State.raise_errCode (s : State) (c : ErrCause) (pos : Count) : (s.raise c pos).errCode = c.errCode := rfl
@[simp] theorem State.raise_errCause (s : State) (c : ErrCause) (pos : Count) : (s.raise c pos).errCause = c := rfl
@[simp] theorem State.raise_errPos (s : State) (c : ErrCause) (pos : Count) : (s.raise c pos).errPos = pos := rfl
@[simp] theorem State.raise_ctrlMode (s : State) (c : ErrCause) (pos : Count) : (s.raise c pos).ctrlMode = s.ctrlMode := rfl
@[simp] theorem State.raise_width (s : State) (c : ErrCause) (pos : Count) : (s.raise c pos).width = s.width := rfl
@[simp] theorem State.raise_height (s : State) (c : ErrCause) (pos : Count) : (s.raise c pos).height = s.height := rfl
@[simp] theorem State.raise_channels (s : State) (c : ErrCause) (pos : Count) : (s.raise c pos).channels = s.channels := rfl
@[simp] theorem State.raise_colorspace (s : State) (c : ErrCause) (pos : Count) : (s.raise c pos).colorspace = s.colorspace := rfl
@[simp] theorem State.raise_inLen (s : State) (c : ErrCause) (pos : Count) : (s.raise c pos).inLen = s.inLen := rfl
@[simp] theorem State.raise_inQueue (s : State) (c : ErrCause) (pos : Count) : (s.raise c pos).inQueue = s.inQueue := rfl
@[simp] theorem State.raise_inEnd (s : State) (c : ErrCause) (pos : Count) : (s.raise c pos).inEnd = s.inEnd := rfl
@[simp] theorem State.raise_out (s : State) (c : ErrCause) (pos : Count) : (s.raise c pos).out = s.out := rfl
@[simp] theorem State.raise_outRoom (s : State) (c : ErrCause) (pos : Count) : (s.raise c pos).outRoom = s.outRoom := rfl
@[simp] theorem State.raise_replies (s : State) (c : ErrCause) (pos : Count) : (s.raise c pos).replies = s.replies := rfl
@[simp] theorem State.raise_turns (s : State) (c : ErrCause) (pos : Count) : (s.raise c pos).turns = s.turns := rfl

/-! ### startPass -/

@[simp] theorem State.startPass_prev (s : State) : (s.startPass).prev = initPrev := rfl
@[simp] theorem State.startPass_run (s : State) : (s.startPass).run = 0 := rfl
@[simp] theorem State.startPass_pixCount (s : State) : (s.startPass).pixCount = 0 := rfl
@[simp] theorem State.startPass_byteCount (s : State) : (s.startPass).byteCount = 0 := rfl
@[simp] theorem State.startPass_phase (s : State) : (s.startPass).phase = .header := rfl
@[simp] theorem State.startPass_mode (s : State) : (s.startPass).mode = s.ctrlMode := rfl
@[simp] theorem State.startPass_n (s : State) : (s.startPass).n = s.n := rfl
@[simp] theorem State.startPass_cache (s : State) : (s.startPass).cache = initCache := rfl
@[simp] theorem State.startPass_errCode (s : State) : (s.startPass).errCode = .none := rfl
@[simp] theorem State.startPass_errCause (s : State) : (s.startPass).errCause = .none := rfl
@[simp] theorem State.startPass_errPos (s : State) : (s.startPass).errPos = 0 := rfl
@[simp] theorem State.startPass_ctrlMode (s : State) : (s.startPass).ctrlMode = s.ctrlMode := rfl
@[simp] theorem State.startPass_width (s : State) : (s.startPass).width = s.width := rfl
@[simp] theorem State.startPass_height (s : State) : (s.startPass).height = s.height := rfl
@[simp] theorem State.startPass_channels (s : State) : (s.startPass).channels = s.channels := rfl
@[simp] theorem State.startPass_colorspace (s : State) : (s.startPass).colorspace = s.colorspace := rfl
@[simp] theorem State.startPass_inLen (s : State) : (s.startPass).inLen = s.inLen := rfl
@[simp] theorem State.startPass_inQueue (s : State) : (s.startPass).inQueue = [] := rfl
@[simp] theorem State.startPass_inEnd (s : State) : (s.startPass).inEnd = false := rfl
@[simp] theorem State.startPass_out (s : State) : (s.startPass).out = [] := rfl
@[simp] theorem State.startPass_outRoom (s : State) : (s.startPass).outRoom = s.outRoom := rfl
@[simp] theorem State.startPass_replies (s : State) : (s.startPass).replies = s.replies := rfl
@[simp] theorem State.startPass_turns (s : State) : (s.startPass).turns = s.turns := rfl

/-! ### afterTurn -/

@[simp] theorem State.afterTurn_prev (s : State) : (s.afterTurn).prev = s.prev := rfl
@[simp] theorem State.afterTurn_run (s : State) : (s.afterTurn).run = s.run := rfl
@[simp] theorem State.afterTurn_pixCount (s : State) : (s.afterTurn).pixCount = s.pixCount := rfl
@[simp] theorem State.afterTurn_byteCount (s : State) : (s.afterTurn).byteCount = s.byteCount := rfl
@[simp] theorem State.afterTurn_phase (s : State) : (s.afterTurn).phase = s.phase := rfl
@[simp] theorem State.afterTurn_mode (s : State) : (s.afterTurn).mode = s.mode := rfl
@[simp] theorem State.afterTurn_n (s : State) : (s.afterTurn).n = s.n := rfl
@[simp] theorem State.afterTurn_cache (s : State) : (s.afterTurn).cache = s.cache := rfl
@[simp] theorem State.afterTurn_errCode (s : State) : (s.afterTurn).errCode = s.errCode := rfl
@[simp] theorem State.afterTurn_errCause (s : State) : (s.afterTurn).errCause = s.errCause := rfl
@[simp] theorem State.afterTurn_errPos (s : State) : (s.afterTurn).errPos = s.errPos := rfl
@[simp] theorem State.afterTurn_ctrlMode (s : State) : (s.afterTurn).ctrlMode = s.ctrlMode := rfl
@[simp] theorem State.afterTurn_width (s : State) : (s.afterTurn).width = s.width := rfl
@[simp] theorem State.afterTurn_height (s : State) : (s.afterTurn).height = s.height := rfl
@[simp] theorem State.afterTurn_channels (s : State) : (s.afterTurn).channels = s.channels := rfl
@[simp] theorem State.afterTurn_colorspace (s : State) : (s.afterTurn).colorspace = s.colorspace := rfl
@[simp] theorem State.afterTurn_inLen (s : State) : (s.afterTurn).inLen = s.inLen := rfl
@[simp] theorem State.afterTurn_inQueue (s : State) : (s.afterTurn).inQueue = s.inQueue := rfl
@[simp] theorem State.afterTurn_inEnd (s : State) : (s.afterTurn).inEnd = s.inEnd := rfl
@[simp] theorem State.afterTurn_out (s : State) : (s.afterTurn).out = s.out := rfl
@[simp] theorem State.afterTurn_outRoom (s : State) : (s.afterTurn).outRoom = s.outRoom := rfl
@[simp] theorem State.afterTurn_replies (s : State) : (s.afterTurn).replies = s.replies := rfl
@[simp] theorem State.afterTurn_turns (s : State) : (s.afterTurn).turns = s.turns.tail := rfl

/-! ### BYTECNT: it counts input in a decode pass, output in an encode pass (R24) -/

theorem State.takeInput_byteCount_decode (s : State) (k : Nat) (h : s.mode = .decode) :
    (s.takeInput k).byteCount = s.byteCount + BitVec.ofNat 64 k := by
  simp [State.takeInput, h]

theorem State.takeInput_byteCount_encode (s : State) (k : Nat) (h : s.mode = .encode) :
    (s.takeInput k).byteCount = s.byteCount := by
  simp [State.takeInput, h]

theorem State.outBytes_byteCount_encode (s : State) (vs : List Byte) (h : s.mode = .encode) :
    (s.outBytes vs).byteCount = s.byteCount + BitVec.ofNat 64 vs.length := by
  simp [State.outBytes, h]

theorem State.outBytes_byteCount_decode (s : State) (vs : List Byte) (h : s.mode = .decode) :
    (s.outBytes vs).byteCount = s.byteCount := by
  simp [State.outBytes, h]

theorem State.outPixel_byteCount_decode (s : State) (p : Pixel) (h : s.mode = .decode) :
    (s.outPixel p).byteCount = s.byteCount := by
  simp [State.outPixel, State.outBytes_byteCount_decode _ _ h]

/-! ### The derived operations, in terms of those above -/

@[simp] theorem State.outByte_eq (s : State) (v : Byte) : s.outByte v = s.outBytes [v] := rfl

@[simp] theorem State.updateCache_eq (s : State) (p : Pixel) :
    s.updateCache p = s.writeCache (pixelHash p) p := rfl

theorem State.producePixel_eq (s : State) (p : Pixel) :
    s.producePixel p = { s.outPixel p with prev := p } := rfl

end Sys2Proof.Machine
end

