-- ==== Sys2Proof/Laws/Ops.lean ====
section
/-! SUPPORT. One lemma for each shared operation that says all it does: the channels' primitives, the cache, the comparators and
the gate. -/

namespace Sys2Proof.Machine

/-! ### The output channel -/

/-- `OutByte` one byte after the other is `OutByte` of the bytes in order (R63). -/
theorem State.outBytes_append (s : State) (vs ws : List Byte) :
    (s.outBytes vs).outBytes ws = s.outBytes (vs ++ ws) := by
  cases hm : s.mode <;> simp [State.outBytes, hm, List.append_assoc]
  rw [BitVec.add_assoc]
  congr 1
  apply BitVec.eq_of_toNat_eq
  simp [BitVec.toNat_add, BitVec.toNat_ofNat]

theorem State.outBytes_nil (s : State) : s.outBytes [] = s := by
  cases s with
  | mk => rename_i m _ _ _ _ _ _ _ _ _ _ _ _ _ _ _ _ _; cases m <;> simp [State.outBytes]

@[simp] theorem pixelBytes_length (c : Byte) (p : Pixel) : (pixelBytes c p).length = pixelSize c := by
  unfold pixelBytes pixelSize; split <;> rfl

theorem runBytes_succ (c : Byte) (p : Pixel) (k : Nat) :
    runBytes c p (k + 1) = pixelBytes c p ++ runBytes c p k := by
  simp [runBytes, List.replicate_succ]

@[simp] theorem runBytes_zero (c : Byte) (p : Pixel) : runBytes c p 0 = [] := rfl

theorem runBytes_length (c : Byte) (p : Pixel) (k : Nat) : (runBytes c p k).length = k * pixelSize c := by
  induction k with
  | zero => simp
  | succ k ih => simp [runBytes_succ, ih, Nat.succ_mul, Nat.add_comm]

/-- `repeat k times: OutPixel(p)` in a decode pass: `k` pixels more in the output and in `PIXCNT`, nothing else. -/
theorem State.outPixels_eq (s : State) (p : Pixel) (k : Nat) (h : s.mode = .decode) :
    s.outPixels p k =
      { s with out := s.out ++ runBytes s.channels p k, pixCount := s.pixCount + BitVec.ofNat 64 k } := by
  induction k generalizing s with
  | zero => simp [State.outPixels]
  | succ k ih =>
    have hp : s.outPixel p =
        { s with out := s.out ++ pixelBytes s.channels p, pixCount := s.pixCount + 1 } := by
      simp [State.outPixel, State.outBytes, h]
    rw [State.outPixels, ih _ (by simpa using h), hp]
    simp only [runBytes_succ, List.append_assoc]
    congr 1
    rw [BitVec.add_assoc]
    congr 1
    apply BitVec.eq_of_toNat_eq
    simp [BitVec.toNat_add, BitVec.toNat_ofNat, Nat.add_comm]

/-! ### The input channel -/

/-- A pixel is missing exactly where fewer bytes are supplied than it has (R66). -/
theorem State.nextPixel_none (s : State) : s.nextPixel = none ↔ s.inQueue.length < pixelSize s.channels := by
  unfold State.nextPixel pixelSize
  split
  · rcases s.inQueue with _ | ⟨a, _ | ⟨b, _ | ⟨c, _ | ⟨d, e⟩⟩⟩⟩ <;> simp
  · rcases s.inQueue with _ | ⟨a, _ | ⟨b, _ | ⟨c, d⟩⟩⟩ <;> simp

/-! ### The cache -/

/-- A read after a write to the same slot gives the pixel written (R171, R172). -/
@[simp] theorem State.readCache_writeCache_same (s : State) (k : BitVec 6) (p : Pixel) :
    (s.writeCache k p).readCache k = p := by
  simp [State.readCache, State.writeCache]

/-- A write leaves every other slot alone (R172). -/
theorem State.readCache_writeCache_other (s : State) (k j : BitVec 6) (p : Pixel) (h : j ≠ k) :
    (s.writeCache k p).readCache j = s.readCache j := by
  have : k.toNat ≠ j.toNat := fun e => h (BitVec.eq_of_toNat_eq e.symm)
  simp [State.readCache, State.writeCache, this]

/-- A slot's contents depend on the cache alone. -/
theorem State.readCache_congr {s t : State} (h : t.cache = s.cache) (k : BitVec 6) :
    t.readCache k = s.readCache k := by
  simp [State.readCache, h]

/-- `UpdateCache(p)` writes the slot of `p` and no other. -/
theorem State.updateCache_slotWritten (s t : State) (p : Pixel) (h : t.cache = (s.updateCache p).cache) :
    SlotWritten s t p where
  slot := by rw [State.readCache_congr h]; simp
  others k hk := by
    rw [State.readCache_congr h, State.updateCache_eq, State.readCache_writeCache_other _ _ _ _ hk]

/-- After the clear of a pass start every slot holds (0,0,0,0) (R47). -/
theorem State.readCache_initCache (s : State) (h : s.cache = initCache) (k : BitVec 6) :
    s.readCache k = Pixel.zero := by
  simp [State.readCache, h, initCache]

/-! ### The comparators -/

theorem pixelEq_iff (p q : Pixel) : pixelEq p q = true ↔ p = q := by
  cases p; cases q; simp [pixelEq, and_assoc]

theorem alphaDiffers_iff (p q : Pixel) : alphaDiffers p q = true ↔ p.a ≠ q.a := by
  simp [alphaDiffers]

theorem State.lookup_hit (s : State) (p : Pixel) :
    (s.lookup p).1 = true ↔ s.readCache (pixelHash p) = p := pixelEq_iff _ _

/-! ### The gate -/

/-- Where the output channel accepts what a step gives and `BYTECNT` does not go back, the step is taken. -/
theorem gate_next (s t : State) (hroom : t.out.length - s.out.length ≤ s.outRoom)
    (hcount : s.byteCount.toNat ≤ t.byteCount.toNat) :
    gate s t = .next { t with outRoom := s.outRoom - (t.out.length - s.out.length) } := by
  rw [gate, if_neg (by omega), if_neg (by omega)]

/-- Where the output channel does not accept all that a step gives, nothing changes (R63, R312). -/
theorem gate_held (s t : State) (hroom : s.outRoom < t.out.length - s.out.length) : gate s t = .next s := by
  rw [gate, if_pos hroom]

/-- All the gate can answer with a next state: the state before, or the step's result with so much less room. -/
theorem gate_cases {s t u : State} (h : gate s t = .next u) :
    u = s ∨ (t.out.length - s.out.length ≤ s.outRoom ∧ s.byteCount.toNat ≤ t.byteCount.toNat ∧
      u = { t with outRoom := s.outRoom - (t.out.length - s.out.length) }) := by
  unfold gate at h
  split at h
  · simp only [Host.Outcome.next.injEq] at h; exact .inl h.symm
  · split at h
    · simp at h
    · simp only [Host.Outcome.next.injEq] at h
      exact .inr ⟨by omega, by omega, h.symm⟩

/-- A step that gives and counts nothing passes the gate as it is. -/
theorem gate_quiet (s t : State) (hout : t.out = s.out) (hroom : t.outRoom = s.outRoom)
    (hcount : s.byteCount.toNat ≤ t.byteCount.toNat) : gate s t = .next t := by
  rw [gate_next s t (by simp [hout]) hcount]
  have hz : s.outRoom - (t.out.length - s.out.length) = t.outRoom := by simp [hout, hroom]
  rw [hz]

end Sys2Proof.Machine
end

