-- ==== Sys2Proof/Laws/Step.lean ====
section
/-! SUPPORT. What a turn does, said once: whose turn it is, and what the core's turn can answer in each phase. -/

namespace Sys2Proof.Machine

/-- The core's turn runs the core's step on the state with that turn taken off. -/
theorem turnStep_core (p : Params) (s : State) (h : s.coreTurn = true) :
    turnStep p s = coreStep p s.afterTurn := by
  unfold turnStep State.coreTurn at *
  rcases ht : s.turns with _ | ⟨_ | m, ts⟩
  · have : s.afterTurn = s := by cases s; simp_all [State.afterTurn]
    simp [this]
  · simp [State.afterTurn, ht]
  · simp [ht] at h

/-- The host's turn makes its move on the state with that turn taken off. -/
theorem turnStep_host (p : Params) (s : State) (m : HostMove) (h : s.HostTurn m) :
    turnStep p s = hostMove p m s.afterTurn := by
  unfold State.HostTurn at h
  unfold turnStep
  rcases ht : s.turns with _ | ⟨t, ts⟩
  · simp [ht] at h
  · simp only [ht, List.head?_cons, Option.some.injEq] at h
    subst h
    simp [State.afterTurn, ht]

/-- It is the core's turn, or some move of the host's. -/
theorem State.turn_cases (s : State) : s.coreTurn = true ∨ ∃ m, s.HostTurn m := by
  unfold State.coreTurn State.HostTurn
  rcases s.turns with _ | ⟨_ | m, ts⟩ <;> simp

theorem coreStep_of_next {p : Params} {s t : State} (h : coreAction p s = .next t) :
    coreStep p s = gate s t := by
  simp [coreStep, h]

/-- The end of a pixel step in one record (R235, R246). -/
theorem encodePixel_eq (new : Pixel) (s : State) :
    encodePixel new s = { encodeChain new s with
      prev := new
      phase := if (encodeChain new s).pixCount.toNat = (encodeChain new s).n then .final
        else (encodeChain new s).phase } := by
  unfold encodePixel
  simp only
  split <;> rfl

/-- The end of an opcode step in one record (R200). -/
theorem finishAtN_eq (s : State) :
    finishAtN s = { s with phase := if s.pixCount.toNat = s.n then .done else s.phase } := by
  unfold finishAtN
  split <;> rfl

/-- Every instruction completes: `exec` always answers a next state. -/
theorem exec_next (i : Instr) (s : State) : ∃ t, exec i s = .next t := by
  cases hm : s.mode <;> cases i <;>
    simp [exec, execIndex, execDiff, execLuma, execRun, execRgb, execRgba, execEndMarker, hm]

/-- The core's own action always answers a next state; only the gate can stop it. -/
theorem coreAction_next (p : Params) (s : State) : ∃ t, coreAction p s = .next t := by
  unfold coreAction
  split <;> try exact ⟨_, rfl⟩
  · unfold decodeStep
    split
    · split
      · rename_i i rest _
        obtain ⟨t, ht⟩ := exec_next i (s.takeInput (lengthBytes i))
        simp [execGroup, ht]
      · split <;> exact ⟨_, rfl⟩
      · split <;> exact ⟨_, rfl⟩
    · exact ⟨_, rfl⟩
  · exact exec_next _ _

/-- The core's turn is its action passed through the gate. -/
theorem coreStep_eq_gate (p : Params) (s : State) :
    ∃ t, coreAction p s = .next t ∧ coreStep p s = gate s t := by
  obtain ⟨t, ht⟩ := coreAction_next p s
  exact ⟨t, ht, coreStep_of_next ht⟩

/-- What the core's turn can answer: the state before, or its action's result with so much less room. -/
theorem coreStep_cases {p : Params} {s u : State} (h : coreStep p s = .next u) :
    u = s ∨ ∃ t, coreAction p s = .next t ∧ t.out.length - s.out.length ≤ s.outRoom ∧
      s.byteCount.toNat ≤ t.byteCount.toNat ∧
      u = { t with outRoom := s.outRoom - (t.out.length - s.out.length) } := by
  obtain ⟨t, ht, hg⟩ := coreStep_eq_gate p s
  rw [hg] at h
  rcases gate_cases h with h | ⟨h1, h2, h3⟩
  · exact .inl h
  · exact .inr ⟨t, ht, h1, h2, h3⟩

end Sys2Proof.Machine
end

