-- ==== Sys2Proof/Laws/Bus.lean ====
section
/-! SUPPORT. What a bus access does, said once: the register it reaches, its answer, and all that a register write can change. -/

namespace Sys2Proof.Machine

/-- A bus access of a word of the window reaches that word's register (R32, R69). -/
theorem regOf_inWindow (p : Params) {off : Nat} (hwindow : off < windowBytes p) (haligned : off % 4 = 0) :
    regOf p (p.regBase + off) 4 = .ok (regAt off) := by
  simp [regOf, haligned]
  omega

/-- The block's first word is CTRL (R33). -/
theorem regOf_base (p : Params) : regOf p p.regBase 4 = .ok .ctrl :=
  regOf_inWindow p (off := 0) (by unfold windowBytes; omega) rfl

/-- An offset past the map is reserved (R44). -/
theorem regAt_reserved {off : Nat} (h : 0x40 ≤ off) : regAt off = .reserved := by
  have other : ∀ k, k < 0x40 → (off == k) = false := fun k hk => by simp; omega
  simp [regAt, regMap, List.lookup, other]

/-- Only a word access reaches a register (R69). -/
theorem regOf_width {p : Params} {addr width : Nat} {r : Reg} (h : regOf p addr width = .ok r) : width = 4 := by
  unfold regOf at h
  split at h
  · simp at h
  · split at h
    · simp at h
    · omega

/-- A write that reaches a register is that register's write. -/
theorem hostMove_write {p : Params} {addr width : Nat} {r : Reg} (h : regOf p addr width = .ok r) (v : Word) (s : State) :
    hostMove p (.write addr width v) s = .next (writeReg r v s) := by simp [hostMove, h]

/-- A read that reaches a register answers with its value. -/
theorem hostMove_read {p : Params} {addr width : Nat} {r : Reg} (h : regOf p addr width = .ok r) (s : State) :
    hostMove p (.read addr width) s = .next { s with replies := s.replies ++ [readReg r s] } := by simp [hostMove, h]

theorem writeReg_busy (r : Reg) (v : Word) {s : State} (h : s.phase.busy = true) : writeReg r v s = s := by
  simp [writeReg, h]

theorem writeReg_idle (r : Reg) (v : Word) {s : State} (h : s.phase.busy = false) : writeReg r v s = writeIdle r v s := by
  simp [writeReg, h]

/-- Everything a register write can do: nothing; a START, by CTRL with bit 0 set and not BUSY; or a change of the configuration
alone, not BUSY (R33 to R45, R302). -/
theorem writeReg_cases (r : Reg) (v : Word) (s : State) :
    writeReg r v s = s ∨
      (s.phase.busy = false ∧ r = .ctrl ∧ v.getLsbD 0 = true ∧
        writeReg r v s = { s with ctrlMode := Mode.ofBit (v.getLsbD 1) }.startPass) ∨
      (s.phase.busy = false ∧ ∃ m w h c cs len,
        writeReg r v s = { s with ctrlMode := m, width := w, height := h, channels := c, colorspace := cs, inLen := len }) := by
  cases hb : s.phase.busy with
  | true => exact .inl (writeReg_busy r v hb)
  | false =>
    rw [writeReg_idle r v hb]
    cases r with
    | ctrl =>
      cases hv : v.getLsbD 0 with
      | true => exact .inr (.inl ⟨rfl, rfl, rfl, by simp [writeIdle, writeCtrl, hv]⟩)
      | false => exact .inr (.inr ⟨rfl, _, _, _, _, _, _, by simp only [writeIdle, writeCtrl, hv]; rfl⟩)
    | width => exact .inr (.inr ⟨rfl, _, v, _, _, _, _, rfl⟩)
    | height => exact .inr (.inr ⟨rfl, _, _, v, _, _, _, rfl⟩)
    | format => exact .inr (.inr ⟨rfl, _, _, _, _, _, _, rfl⟩)
    | inLenLo => exact .inr (.inr ⟨rfl, _, _, _, _, _, _, rfl⟩)
    | inLenHi => exact .inr (.inr ⟨rfl, _, _, _, _, _, _, rfl⟩)
    | _ => exact .inl rfl

end Sys2Proof.Machine
end

