-- ==== Sys2Proof/Laws/Decode.lean ====
section
/-! SUPPORT. What the opcode decoder answers where bytes are missing, and what it never answers. -/

namespace Sys2Proof

/-- A group whose later bytes are not all there (R92, R202). -/
theorem decodeGroup_short (b0 : Byte) (ops : List Byte) (h : (b0 :: ops).length < groupLength b0) :
    decodeGroup (b0 :: ops) = .error .operandShort := by
  unfold decodeGroup
  simp only [groupLength] at h
  split at h
  · subst_vars
    rcases ops with _ | ⟨a, _ | ⟨b, _ | ⟨c, d⟩⟩⟩ <;> simp at h ⊢; omega
  split at h
  · subst_vars
    rcases ops with _ | ⟨a, _ | ⟨b, _ | ⟨c, _ | ⟨d, e⟩⟩⟩⟩ <;> simp at h ⊢; omega
  split at h
  · rcases ops with _ | ⟨a, b⟩
    · simp_all
    · simp at h
  · simp at h

/-- The opcode decoder never reads an end marker (R100, R200). -/
theorem decodeGroup_not_endMarker {bytes rest : List Byte} {i : Instr} (h : decodeGroup bytes = .ok (i, rest)) :
    i ≠ .endMarker := by
  unfold decodeGroup at h
  repeat' split at h
  all_goals first
    | (simp only [Except.ok.injEq, Prod.mk.injEq] at h; rw [← h.1]; simp)
    | simp at h

end Sys2Proof
end

