-- ==== Sys2Proof/Laws/CoreMove.lean ====
section
/-! SUPPORT. Everything a core's turn can do, said once: what one instruction, one pixel and the final step come to, and the
shapes of a step that changes the state. -/

namespace Sys2Proof.Machine

/-- In a decode pass, all that an opcode group's instruction can do: between 1 and `N - PIXCNT` copies of one pixel are given
and counted, that pixel is `PREV`, and its slot may be written (R194 to R199). -/
theorem exec_decode {i : Instr} {s t : State} (hm : s.mode = .decode) (hw : s.pixCount.toNat < s.n) (hi : i ≠ .endMarker)
    (h : exec i s = .next t) :
    ∃ new c k, 1 ≤ k ∧ k ≤ s.n - s.pixCount.toNat ∧ k ≤ 64 ∧ (c = s.cache ∨ c = (s.updateCache new).cache) ∧
      t = { s with
        prev := new
        cache := c
        out := s.out ++ runBytes s.channels new k
        pixCount := s.pixCount + BitVec.ofNat 64 k } := by
  have one : ∀ (u : State) (new : Pixel), u.mode = .decode → u.producePixel new =
      { u with prev := new, out := u.out ++ runBytes u.channels new 1, pixCount := u.pixCount + BitVec.ofNat 64 1 } := by
    intro u new hu
    simp [State.producePixel, State.outPixel, State.outBytes, hu, runBytes]
  have ex : ∀ {x : State}, exec i s = .next x → x = t := fun hx => Host.Outcome.next.inj (hx.symm.trans h)
  cases i with
  | index k =>
    rw [← ex (x := s.producePixel (s.readCache k)) (by simp [exec, execIndex, hm, doIndex]), one s _ hm]
    exact ⟨_, s.cache, 1, le_refl _, by omega, by omega, .inl rfl, rfl⟩
  | diff a b c =>
    rw [← ex (x := doDiff a b c s) (by simp [exec, execDiff, hm]), doDiff, one _ _ (by simpa using hm)]
    exact ⟨_, _, 1, le_refl _, by omega, by omega, .inr rfl, rfl⟩
  | luma a b c =>
    rw [← ex (x := doLuma a b c s) (by simp [exec, execLuma, hm]), doLuma, one _ _ (by simpa using hm)]
    exact ⟨_, _, 1, le_refl _, by omega, by omega, .inr rfl, rfl⟩
  | run len =>
    have := len.isLt
    rw [← ex (x := doRun len s) (by simp [exec, execRun, hm]), doRun, State.outPixels_eq _ _ _ hm, runLength]
    exact ⟨s.prev, s.cache, min (len.toNat + 1) (s.n - s.pixCount.toNat), by omega, by omega, by omega, .inl rfl, rfl⟩
  | rgb a b c =>
    rw [← ex (x := doRgb a b c s) (by simp [exec, execRgb, hm]), doRgb, one _ _ (by simpa using hm)]
    exact ⟨_, _, 1, le_refl _, by omega, by omega, .inr rfl, rfl⟩
  | rgba a b c d =>
    rw [← ex (x := doRgba a b c d s) (by simp [exec, execRgba, hm]), doRgba, one _ _ (by simpa using hm)]
    exact ⟨_, _, 1, le_refl _, by omega, by omega, .inr rfl, rfl⟩
  | endMarker => exact absurd rfl hi

/-- The run flush in one record (R238, R248). -/
theorem flushRun_eq (s : State) :
    ∃ bytes, flushRun s = { s.outBytes bytes with run := 0 } ∧ bytes.length = if s.run = 0 then 0 else 1 := by
  unfold flushRun
  by_cases h : s.run = 0
  · rw [if_neg (by rw [h]; decide)]
    exact ⟨[], by rw [State.outBytes_nil, ← h], by simp [h]⟩
  · have : 0 < s.run.toNat := by
      rcases Nat.eq_zero_or_pos s.run.toNat with h0 | h0
      · exact absurd (BitVec.eq_of_toNat_eq h0) h
      · exact h0
    rw [if_pos this]
    exact ⟨_, rfl, by rw [if_neg h]; rfl⟩

/-- All that steps 3 to 7 of the chain can do: between one and five bytes are given, the pixel's slot may be written. -/
theorem encodeChanged_eq (new : Pixel) (s : State) :
    ∃ bytes c, encodeChanged new s = { s.outBytes bytes with cache := c } ∧ 1 ≤ bytes.length ∧ bytes.length ≤ 5 ∧
      (c = s.cache ∨ c = (s.updateCache new).cache) := by
  simp only [encodeChanged]
  split
  · exact ⟨_, s.cache, rfl, by simp, by simp, .inl rfl⟩
  split
  · exact ⟨_, _, rfl, by simp, by simp, .inr rfl⟩
  split
  · exact ⟨_, _, rfl, by simp, by simp, .inr rfl⟩
  split
  · exact ⟨_, _, rfl, by simp, by simp, .inr rfl⟩
  · exact ⟨_, _, rfl, by simp, by simp, .inr rfl⟩

/-- All that the decision chain can do (R235): the run grows and nothing is given; or the longest run's byte is given and a new
run begins; or the pending run's byte and between one and five more are given, and the pixel's slot may be written. -/
theorem encodeChain_eq (new : Pixel) (s : State) :
    ∃ bytes r c, encodeChain new s = { s.outBytes bytes with run := r, cache := c } ∧
      ((new = s.prev ∧ bytes = [] ∧ s.run.toNat < 62 ∧ r = s.run + 1 ∧ c = s.cache) ∨
        (new = s.prev ∧ bytes.length = 1 ∧ 62 ≤ s.run.toNat ∧ r = 1 ∧ c = s.cache) ∨
        (new ≠ s.prev ∧ r = 0 ∧ bytes.length ≤ (if s.run = 0 then 0 else 1) + 5 ∧
          (c = s.cache ∨ c = (s.updateCache new).cache))) := by
  unfold encodeChain
  split
  · rename_i h
    have he := (pixelEq_iff _ _).1 h
    unfold extendRun
    split
    · rename_i hr
      exact ⟨[], s.run + 1, s.cache, by rw [State.outBytes_nil], .inl ⟨he, rfl, hr, rfl, rfl⟩⟩
    · rename_i hr
      exact ⟨_, 1, s.cache, rfl, .inr (.inl ⟨he, rfl, by simp only [runMax] at hr; omega, rfl, rfl⟩)⟩
  · rename_i h
    have he : new ≠ s.prev := fun e => h ((pixelEq_iff _ _).2 e)
    obtain ⟨b1, hf, hl1⟩ := flushRun_eq s
    obtain ⟨b2, c, hc, hl2, hl2', hcc⟩ := encodeChanged_eq new (flushRun s)
    have hcache : (flushRun s).cache = s.cache := by rw [hf]; rfl
    refine ⟨b1 ++ b2, 0, c, ?_, .inr (.inr ⟨he, rfl, by simp only [List.length_append]; omega, ?_⟩)⟩
    · rw [hc, hf, ← State.outBytes_append]; rfl
    · rcases hcc with hcc | hcc
      · exact .inl (hcc.trans hcache)
      · refine .inr (hcc.trans ?_)
        rw [hf]; rfl

/-- The final step in one record (R248, R249). -/
theorem finalStep_eq (s : State) (hm : s.mode = .encode) :
    ∃ bytes, finalStep s = .next { s.outBytes bytes with run := 0, phase := .done } ∧
      bytes.length = (if s.run = 0 then 0 else 1) + 8 := by
  obtain ⟨b, hf, hl⟩ := flushRun_eq s
  refine ⟨b ++ endMarkerBytes, ?_, by rw [List.length_append, hl]; rfl⟩
  have hmode : (flushRun s).mode = .encode := by rw [hf]; exact hm
  have he : finalStep s = .next (emitEnd (flushRun s)) := by simp [finalStep, exec, execEndMarker, hmode]
  rw [he, emitEnd, hf, ← State.outBytes_append]
  rfl

/-- The shapes of a core's turn that changes the state: two header steps, an opcode step, a pixel step, the final step, and an
error entry (R190, R230, R306). -/
inductive CoreMove (p : Params) (s : State) : State → Prop where
  | stay : CoreMove p s s
  | header (h : Header) : s.phase = .header → s.mode = .decode → 14 ≤ s.inQueue.length →
      parseHeader p (s.inQueue.take 14) = .ok h → s.byteCount.toNat ≤ (s.byteCount + 14).toNat →
      CoreMove p s ((s.takeInput 14).commitHeader h)
  | raised (cause : ErrCause) (pos : Count) (k : Nat) : s.phase = .header ∨ s.phase = .body → cause ≠ .none →
      (s.mode = .decode → s.byteCount.toNat ≤ (s.byteCount + BitVec.ofNat 64 k).toNat) →
      CoreMove p s ((s.takeInput k).raise cause pos)
  | written : s.phase = .header → s.mode = .encode → encodeChecks p s = none → 14 ≤ s.outRoom →
      s.byteCount.toNat ≤ (s.byteCount + 14).toNat →
      CoreMove p s { encodeHeader p s with outRoom := s.outRoom - 14 }
  | group (i : Instr) (rest : List Byte) (new : Pixel) (c : Vector Pixel 64) (k : Nat) : s.phase = .body →
      s.mode = .decode → s.pixCount.toNat < s.n → decodeAt .groups s.inQueue = .ok (i, rest) → 1 ≤ k →
      k ≤ s.n - s.pixCount.toNat → k ≤ 64 → (c = s.cache ∨ c = (s.updateCache new).cache) →
      exec i (s.takeInput (lengthBytes i)) = .next { s.takeInput (lengthBytes i) with
        prev := new
        cache := c
        out := s.out ++ runBytes s.channels new k
        pixCount := s.pixCount + BitVec.ofNat 64 k } →
      k * pixelSize s.channels ≤ s.outRoom →
      s.byteCount.toNat ≤ (s.byteCount + BitVec.ofNat 64 (lengthBytes i)).toNat →
      CoreMove p s { s.takeInput (lengthBytes i) with
        prev := new
        cache := c
        out := s.out ++ runBytes s.channels new k
        outRoom := s.outRoom - k * pixelSize s.channels
        pixCount := s.pixCount + BitVec.ofNat 64 k
        phase := if (s.pixCount + BitVec.ofNat 64 k).toNat = s.n then .done else .body }
  | pixel (new : Pixel) (bytes : List Byte) (r : BitVec 6) (c : Vector Pixel 64) : s.phase = .body → s.mode = .encode →
      s.pixCount.toNat < s.n → s.nextPixel = some new →
      ((new = s.prev ∧ bytes = [] ∧ s.run.toNat < 62 ∧ r = s.run + 1 ∧ c = s.cache) ∨
        (new = s.prev ∧ bytes.length = 1 ∧ 62 ≤ s.run.toNat ∧ r = 1 ∧ c = s.cache) ∨
        (new ≠ s.prev ∧ r = 0 ∧ bytes.length ≤ (if s.run = 0 then 0 else 1) + 5 ∧
          (c = s.cache ∨ c = (s.updateCache new).cache))) →
      bytes.length ≤ s.outRoom → s.byteCount.toNat ≤ (s.byteCount + BitVec.ofNat 64 bytes.length).toNat →
      CoreMove p s { s with
        prev := new
        run := r
        cache := c
        pixCount := s.pixCount + 1
        inQueue := s.inQueue.drop (pixelSize s.channels)
        out := s.out ++ bytes
        outRoom := s.outRoom - bytes.length
        byteCount := s.byteCount + BitVec.ofNat 64 bytes.length
        phase := if (s.pixCount + 1).toNat = s.n then .final else .body }
  | final (bytes : List Byte) : s.phase = .final → s.mode = .encode →
      bytes.length = (if s.run = 0 then 0 else 1) + 8 → bytes.length ≤ s.outRoom →
      s.byteCount.toNat ≤ (s.byteCount + BitVec.ofNat 64 bytes.length).toNat →
      CoreMove p s { s with
        run := 0
        out := s.out ++ bytes
        outRoom := s.outRoom - bytes.length
        byteCount := s.byteCount + BitVec.ofNat 64 bytes.length
        phase := .done }

/-- A state whose readiness a quiet step leaves. -/
theorem State.outRoom_same (t : State) (k : Nat) (h : t.outRoom = k) : { t with outRoom := k } = t := by
  cases t; simp_all

/-- No byte taken is no change. -/
theorem State.takeInput_zero (s : State) : s.takeInput 0 = s := by
  cases s with
  | mk => rename_i m _ _ _ _ _ _ _ _ _ _ _ _ _ _ _ _ _; cases m <;> simp [State.takeInput]

/-- Everything the core's turn can answer with a next state. -/
theorem coreStep_move {p : Params} {s u : State} (h : coreStep p s = .next u) : CoreMove p s u := by
  rcases coreStep_cases h with rfl | ⟨t, ha, hroom, hcnt, rfl⟩
  · exact .stay
  have quiet : t.out = s.out → t.outRoom = s.outRoom →
      { t with outRoom := s.outRoom - (t.out.length - s.out.length) } = t := fun h1 h2 =>
    State.outRoom_same t _ (by rw [h1, h2]; omega)
  have hraise : ∀ (cause : ErrCause) (pos : Count) (k : Nat), s.phase = .header ∨ s.phase = .body → cause ≠ .none →
      t = (s.takeInput k).raise cause pos →
      CoreMove p s { t with outRoom := s.outRoom - (t.out.length - s.out.length) } := by
    intro cause pos k h1 h2 h3
    rw [quiet (by rw [h3]; rfl) (by rw [h3]; rfl), h3]
    refine .raised cause pos k h1 h2 (fun hm => ?_)
    rw [h3] at hcnt
    simpa [State.takeInput_byteCount_decode _ _ hm] using hcnt
  have hstay : t = s → CoreMove p s { t with outRoom := s.outRoom - (t.out.length - s.out.length) } := by
    rintro rfl
    rw [quiet rfl rfl]
    exact .stay
  unfold coreAction at ha
  split at ha
  · rename_i hp hm
    simp only [Host.Outcome.next.injEq] at ha
    unfold decodeHeader at ha
    split at ha
    · rename_i hl
      split at ha
      · rename_i hd hq
        rw [quiet (by rw [← ha]; rfl) (by rw [← ha]; rfl), ← ha]
        refine .header hd hp hm hl hq ?_
        rw [← ha] at hcnt
        have hbc : (s.takeInput headerBytes).byteCount = s.byteCount + 14 := State.takeInput_byteCount_decode _ _ hm
        simpa only [State.commitHeader, hbc] using hcnt
      · rename_i cause hq
        refine hraise cause 0 _ (.inl hp) ?_ ha.symm
        rintro rfl
        unfold parseHeader at hq
        repeat' split at hq
        all_goals simp at hq
        repeat' split at hq
        all_goals simp at hq
    · split at ha
      · exact hraise _ 0 _ (.inl hp) (by simp) ha.symm
      · exact hstay ha.symm
  · rename_i hp hm
    simp only [Host.Outcome.next.injEq] at ha
    cases hc : encodeChecks p s with
    | some cause =>
      refine hraise cause 0 0 (.inl hp) ?_ ?_
      · rintro rfl
        unfold encodeChecks at hc
        repeat' split at hc
        all_goals simp at hc
      · rw [← ha]
        simp only [encodeHeader, hc]
        rw [State.takeInput_zero]
    | none =>
      have hlen : t.out.length - s.out.length = 14 := by
        rw [← ha]; simp [encodeHeader, hc, headerBytesOf, be32]
      rw [hlen]
      rw [hlen] at hroom
      rw [← ha]
      refine .written hp hm hc hroom ?_
      rw [← ha] at hcnt
      simp only [encodeHeader, hc] at hcnt
      simpa [State.outBytes_byteCount_encode _ _ hm, headerBytesOf, be32] using hcnt
  · rename_i hp hm
    unfold decodeStep at ha
    split at ha
    · rename_i hw
      split at ha
      · rename_i i rest hd
        unfold execGroup at ha
        split at ha
        · rename_i t' he
          simp only [Host.Outcome.next.injEq] at ha
          obtain ⟨new, c, k, h1, h2, h3, h4, h5⟩ := exec_decode (by simpa using hm) (by simpa using hw)
            (decodeGroup_not_endMarker hd) he
          rw [h5] at he ha
          rw [finishAtN_eq] at ha
          rw [← ha] at hroom hcnt ⊢
          have hlen : (s.out ++ runBytes s.channels new k).length - s.out.length = k * pixelSize s.channels := by
            simp [runBytes_length]
          simp only [State.takeInput_out, State.takeInput_channels, hlen] at hroom ⊢
          have hbc : (s.takeInput (lengthBytes i)).byteCount = s.byteCount + BitVec.ofNat 64 (lengthBytes i) :=
            State.takeInput_byteCount_decode _ _ hm
          simp only [hbc] at hcnt
          have := CoreMove.group (p := p) i rest new c k hp hm hw hd h1 h2 h3 h4 he hroom hcnt
          simpa [hp] using this
        · simp at ha
        · simp at ha
      · split at ha <;> simp only [Host.Outcome.next.injEq] at ha
        · refine hraise _ s.byteCount 0 (.inr hp) (by simp : ErrCause.opcodeShort ≠ .none) ?_
          rw [← ha]
          rw [State.takeInput_zero]
        · exact hstay ha.symm
      · split at ha <;> simp only [Host.Outcome.next.injEq] at ha
        · exact hraise _ s.byteCount _ (.inr hp) (by simp : ErrCause.operandShort ≠ .none) ha.symm
        · exact hstay ha.symm
    · simp only [Host.Outcome.next.injEq] at ha; exact hstay ha.symm
  · rename_i hp hm
    simp only [Host.Outcome.next.injEq] at ha
    unfold pixelStep at ha
    split at ha
    · rename_i hw
      split at ha
      · rename_i new hnew
        obtain ⟨b, r, c, hc, hcase⟩ := encodeChain_eq new { s.takeInput (pixelSize s.channels) with pixCount := s.pixCount + 1 }
        rw [encodePixel_eq, hc] at ha
        have hbc : (s.takeInput (pixelSize s.channels)).byteCount = s.byteCount := State.takeInput_byteCount_encode _ _ hm
        rw [← ha] at hroom hcnt ⊢
        simp [State.outBytes, hm, hbc] at hroom hcnt ⊢
        have := CoreMove.pixel (p := p) new b r c hp hm hw hnew hcase hroom (by simpa using hcnt)
        simpa [hp, hm] using this
      · split at ha
        · exact hraise _ _ _ (.inr hp) (by simp : ErrCause.inputShort ≠ .none) ha.symm
        · exact hstay ha.symm
    · exact hstay ha.symm
  · rename_i hp hm
    obtain ⟨b, hf, hl⟩ := finalStep_eq s hm
    rw [hf] at ha
    simp only [Host.Outcome.next.injEq] at ha
    rw [← ha] at hroom hcnt ⊢
    simp [State.outBytes, hm] at hroom hcnt ⊢
    have := CoreMove.final (p := p) b hp hm hl hroom (by simpa using hcnt)
    simpa [hm] using this
  all_goals (simp only [Host.Outcome.next.injEq] at ha; exact hstay ha.symm)

end Sys2Proof.Machine
end

