-- ==== Sys2Proof/Laws/Operands.lean ====
section
/-! SUPPORT. The stored fields and the deltas they stand for: each way back from the other, and packed bytes bit by bit. -/

namespace Sys2Proof.Machine

/-- A DIFF field holds every delta of its window (R101, R146). -/
theorem diffDelta_ofInt (x : Int) (h0 : -2 ≤ x) (h1 : x ≤ 1) : diffDelta (BitVec.ofInt 2 (x + 2)) = x := by
  simp only [diffDelta, BitVec.toNat_ofInt]
  omega

/-- The LUMA green field holds every delta of its window (R101, R147). -/
theorem lumaGreen_ofInt (x : Int) (h0 : -32 ≤ x) (h1 : x ≤ 31) : lumaGreen (BitVec.ofInt 6 (x + 32)) = x := by
  simp only [lumaGreen, BitVec.toNat_ofInt]
  omega

/-- A LUMA offset field holds every offset of its window (R101, R147). -/
theorem lumaOffset_ofInt (x : Int) (h0 : -8 ≤ x) (h1 : x ≤ 7) : lumaOffset (BitVec.ofInt 4 (x + 8)) = x := by
  simp only [lumaOffset, BitVec.toNat_ofInt]
  omega

/-- The normalised difference of two channels, in closed form (R144, R145). -/
theorem channelDelta_eq (x y : Byte) : channelDelta x y = ((x.toNat : Int) - y.toNat + 127) % 256 - 127 := by
  unfold channelDelta normDelta
  simp only
  split <;> split <;> omega

/-- Moving the old channel by the difference gives the new one (R154). -/
theorem addDelta_channelDelta (x y : Byte) : addDelta y (channelDelta x y) = x := by
  apply BitVec.eq_of_toNat_eq
  rw [addDelta, channelDelta_eq, BitVec.toNat_ofInt]
  have := x.isLt
  have := y.isLt
  norm_num
  omega

/-- Deltas in the small window are the values of some fields. -/
theorem fitsDiff_fields {dr dg db : Int} (h : fitsDiff dr dg db = true) :
    ∃ a b c : BitVec 2, dr = diffDelta a ∧ dg = diffDelta b ∧ db = diffDelta c := by
  simp only [fitsDiff, Bool.and_eq_true, decide_eq_true_eq] at h
  obtain ⟨⟨hr, hg⟩, hb⟩ := h
  exact ⟨_, _, _, (diffDelta_ofInt dr hr.1 hr.2).symm, (diffDelta_ofInt dg hg.1 hg.2).symm,
    (diffDelta_ofInt db hb.1 hb.2).symm⟩

/-- Deltas in the luma window are the values of some fields. -/
theorem fitsLuma_fields {dr dg db : Int} (h : fitsLuma dr dg db = true) :
    ∃ (a : BitVec 6) (b c : BitVec 4),
      dg = lumaGreen a ∧ dr = lumaGreen a + lumaOffset b ∧ db = lumaGreen a + lumaOffset c := by
  simp only [fitsLuma, Bool.and_eq_true, decide_eq_true_eq] at h
  obtain ⟨⟨hg, hr⟩, hb⟩ := h
  refine ⟨_, BitVec.ofInt 4 (dr - dg + 8), BitVec.ofInt 4 (db - dg + 8), (lumaGreen_ofInt dg hg.1 hg.2).symm, ?_, ?_⟩
  · rw [lumaGreen_ofInt dg hg.1 hg.2, lumaOffset_ofInt _ hr.1 hr.2]; omega
  · rw [lumaGreen_ofInt dg hg.1 hg.2, lumaOffset_ofInt _ hb.1 hb.2]; omega

/-- A RUN byte is the class bits before the stored field (R96). -/
theorem packRun_eq (len : BitVec 6) : packRun len = 0b11#2 ++ len := by revert len; decide

/-- A DIFF byte is the class bits before the three fields (R94, R151). -/
theorem packDiff_eq (a b c : BitVec 2) :
    packDiff (diffDelta a) (diffDelta b) (diffDelta c) = 0b01#2 ++ a ++ b ++ c := by revert a b c; decide

/-- LUMA's first byte is the class bits before the green field (R95, R152). -/
theorem packLumaFirst_eq (a : BitVec 6) : packLumaFirst (lumaGreen a) = 0b10#2 ++ a := by revert a; decide

/-- LUMA's second byte is its two offset fields (R95, R152). -/
theorem packLumaSecond_eq (g : Int) (a b : BitVec 4) :
    packLumaSecond (g + lumaOffset a) g (g + lumaOffset b) = a ++ b := by
  simp only [packLumaSecond, add_sub_cancel_left]
  revert a b
  decide

end Sys2Proof.Machine
end

