-- ==== Sys2Proof/Laws/Passes.lean ====
section
/-! SUPPORT. From a step's parts to the step: an opcode step from what its instruction does, a pixel step from what the decision
chain does. -/

namespace Sys2Proof.Machine

/-- A 64-bit counter that does not wrap counts. -/
theorem count_add (x : Count) (k : Nat) (h : x.toNat + k < 2 ^ 64) : (x + BitVec.ofNat 64 k).toNat = x.toNat + k := by
  rw [BitVec.toNat_add, BitVec.toNat_ofNat]
  omega

/-- The core's turn of `step`. -/
theorem step_core (s : State) (h : s.coreTurn = true) : step s = coreStep Config.params s.afterTurn :=
  turnStep_core _ s h

/-- The core's turn of `stepWith`. -/
theorem stepWith_core (p : Params) (s : State) (h : s.coreTurn = true) : stepWith p s = coreStep p s.afterTurn :=
  turnStep_core p s h

/-- The host's turn of `stepWith`. -/
theorem stepWith_host (p : Params) (s : State) (m : HostMove) (h : s.HostTurn m) :
    stepWith p s = hostMove p m s.afterTurn := turnStep_host p s m h

/-- An error entry from what the state had before it (R274). -/
theorem raises_of (s x : State) (cause : ErrCause) (pos : Count) (hprev : x.prev = s.prev) (hcache : x.cache = s.cache)
    (hrun : x.run = s.run) (hpix : x.pixCount = s.pixCount) (hout : x.out = s.out) (hroom : x.outRoom = s.outRoom)
    (hmode : x.mode = s.mode) (hn : x.n = s.n) (hc : SameConfig s x) (hh : SameHost s.afterTurn x) :
    Raises s (x.raise cause pos) cause pos :=
  ⟨rfl, rfl, rfl, rfl, hprev, hcache, hrun, hpix, hout, hroom, hmode, hn, ⟨hc.1, hc.2, hc.3, hc.4, hc.5, hc.6⟩,
    ⟨hh.1, hh.2, hh.3⟩⟩

/-! ### An opcode step -/

/-- `k` pixels given by a ready group's instruction: the step completes, with what every group does beside. -/
theorem group_step {s t : State} {bytes rest : List Byte} {i : Instr} (k : Nat) (g : GroupReady s bytes rest)
    (hd : decodeAt .groups s.inQueue = .ok (i, rest)) (hl : lengthBytes i = bytes.length)
    (he : exec i (s.afterTurn.takeInput (lengthBytes i)) = .next t)
    (hout : t.out.length = s.out.length + k * s.pixelWidth) (hk : k ≤ 62)
    (hpix : t.pixCount = s.pixCount + BitVec.ofNat 64 k) (hfit : s.pixCount.toNat + k < 2 ^ 64)
    (hb : t.byteCount = (s.afterTurn.takeInput (lengthBytes i)).byteCount) (hrun : t.run = s.run)
    (hph : t.phase = s.phase) (hr : SameRest (s.afterTurn.takeInput (lengthBytes i)) t) :
    ∃ u, step s = .next u ∧ GroupTaken s u bytes.length k rest ∧ u.prev = t.prev ∧ u.cache = t.cache ∧
      u.out = t.out ∧ u.pixCount = t.pixCount := by
  have hcount : t.byteCount = s.byteCount + BitVec.ofNat 64 bytes.length := by
    rw [hb, State.takeInput_byteCount_decode _ _ (by simpa using g.mode), hl]; rfl
  have hwidth : s.pixelWidth ≤ 4 := by unfold State.pixelWidth; split <;> omega
  have hneed : k * s.pixelWidth ≤ 248 := by nlinarith
  have hroom := g.room
  have hsame : t.outRoom = s.outRoom := hr.outRoom
  have hca : coreAction Config.params s.afterTurn = .next (finishAtN t) := by
    simp [coreAction, g.phase, g.mode, decodeStep, g.wanted, hd, execGroup, he]
  have hlen : t.out.length - s.afterTurn.out.length = k * s.pixelWidth := by
    simp only [State.afterTurn_out]; omega
  refine ⟨{ finishAtN t with outRoom := s.outRoom - k * s.pixelWidth }, ?_, ?_⟩
  · rw [step_core s g.turn, coreStep_of_next hca, finishAtN_eq, gate_next]
    · simp only [hlen]; rfl
    · simp only [hlen, State.afterTurn_outRoom]; omega
    · simp only [hcount]
      rw [count_add _ _ g.count]
      exact Nat.le_add_right _ _
  · rw [finishAtN_eq]
    refine ⟨⟨hcount, ?_, ?_, rfl, hrun, hr.mode, hr.n, ?_, ?_, ?_⟩, rfl, rfl, rfl, rfl⟩
    · simp [hr.inQueue, hl, g.queue]
    · have hn : t.n = s.n := hr.n
      have hto : t.pixCount.toNat = s.pixCount.toNat + k := by rw [hpix, count_add _ _ hfit]
      simp only [hn, hto, hph, g.phase]
    · exact ⟨hr.config.1, hr.config.2, hr.config.3, hr.config.4, hr.config.5, hr.config.6⟩
    · exact ⟨hr.error.1, hr.error.2, hr.error.3⟩
    · exact ⟨hr.host.1, hr.host.2, hr.host.3⟩

/-! ### A pixel step -/

/-- `b` is `a` with `bytes` given, counted in an encode pass, and at most `RUN` and the cache changed. -/
structure Emits (a b : State) (bytes : List Byte) : Prop where
  out : b.out = a.out ++ bytes
  byteCount : b.byteCount = a.byteCount + BitVec.ofNat 64 bytes.length
  prev : b.prev = a.prev
  pixCount : b.pixCount = a.pixCount
  phase : b.phase = a.phase
  rest : SameRest a b

/-- `OutByte`s of an encode pass, with any new `RUN` and cache. -/
theorem Emits.outBytes (s : State) (vs : List Byte) (r : BitVec 6) (c : Vector Pixel 64) (hm : s.mode = .encode) :
    Emits s { s.outBytes vs with run := r, cache := c } vs :=
  ⟨rfl, State.outBytes_byteCount_encode _ _ hm, rfl, rfl, rfl,
    ⟨rfl, rfl, rfl, rfl, ⟨rfl, rfl, rfl, rfl, rfl, rfl⟩, ⟨rfl, rfl, rfl⟩, ⟨rfl, rfl, rfl⟩⟩⟩

/-- One emission after another. -/
theorem Emits.trans {a b c : State} {x y : List Byte} (h : Emits a b x) (g : Emits b c y) : Emits a c (x ++ y) := by
  refine ⟨by rw [g.out, h.out, List.append_assoc], ?_, g.prev.trans h.prev, g.pixCount.trans h.pixCount,
    g.phase.trans h.phase, ?_⟩
  · rw [g.byteCount, h.byteCount, BitVec.add_assoc]
    congr 1
    apply BitVec.eq_of_toNat_eq
    simp
  · obtain ⟨h1, h2, h3, h4, h5, h6, h7⟩ := h.rest
    obtain ⟨g1, g2, g3, g4, g5, g6, g7⟩ := g.rest
    exact ⟨g1.trans h1, g2.trans h2, g3.trans h3, g4.trans h4,
      ⟨g5.1.trans h5.1, g5.2.trans h5.2, g5.3.trans h5.3, g5.4.trans h5.4, g5.5.trans h5.5, g5.6.trans h5.6⟩,
      ⟨g6.1.trans h6.1, g6.2.trans h6.2, g6.3.trans h6.3⟩, ⟨g7.1.trans h7.1, g7.2.trans h7.2, g7.3.trans h7.3⟩⟩

/-- The byte of a pending run as a number (R238). -/
theorem packRun_pending : ∀ r : BitVec 6, r ≠ 0 → packRun (r - 1) = BitVec.ofNat 8 (0xC0 + (r.toNat - 1)) := by decide

/-- The run flush gives exactly the pending run's byte, clears `RUN` and leaves the cache (R238, R248). -/
theorem flushRun_emits (s : State) (hm : s.mode = .encode) :
    Emits s (flushRun s) s.flushBytes ∧ (flushRun s).run = 0 ∧ (flushRun s).cache = s.cache := by
  unfold flushRun State.flushBytes
  by_cases h : s.run = 0
  · rw [if_neg (by rw [h]; decide), if_pos h]
    have := Emits.outBytes s [] s.run s.cache hm
    rw [State.outBytes_nil] at this
    exact ⟨this, h, rfl⟩
  · have hpos : 0 < s.run.toNat := by
      rcases Nat.eq_zero_or_pos s.run.toNat with h0 | h0
      · exact absurd (BitVec.eq_of_toNat_eq h0) h
      · exact h0
    rw [if_pos hpos, if_neg h, ← packRun_pending _ h]
    exact ⟨Emits.outBytes s _ 0 s.cache hm, rfl, rfl⟩

/-- The state the decision chain starts from: the pixel is consumed and counted (R234, R235). -/
def State.afterInPixel (s : State) : State :=
  { s.afterTurn.takeInput (pixelSize s.channels) with pixCount := s.pixCount + 1 }

/-- A pixel step from the decision chain's result, of at most six bytes. -/
theorem pixel_step {s c : State} {new : Pixel} {bytes : List Byte} (hr : PixelReady s new)
    (hc : encodeChain new s.afterInPixel = c) (he : Emits s.afterInPixel c bytes) (hl : bytes.length ≤ 6) :
    ∃ t, step s = .next t ∧ PixelTaken s t new bytes ∧ t.run = c.run ∧ t.cache = c.cache := by
  have hbase : s.afterInPixel.byteCount = s.byteCount := State.takeInput_byteCount_encode _ _ (by simpa using hr.mode)
  have hbc : c.byteCount = s.byteCount + BitVec.ofNat 64 bytes.length := by rw [he.byteCount, hbase]
  have hout : c.out = s.out ++ bytes := he.out
  have hroom := hr.room
  have hcount := hr.count
  have hpx : c.pixCount = s.pixCount + 1 := he.pixCount
  have hn : c.n = s.n := he.rest.n
  have hpt : c.pixCount.toNat = s.pixCount.toNat + 1 := by
    rw [hpx]
    have := hr.wanted
    have := hr.fits
    exact count_add _ 1 (by omega)
  have hnew : s.afterTurn.nextPixel = some new := hr.pixel
  have hca : coreAction Config.params s.afterTurn = .next (encodePixel new s.afterInPixel) := by
    simp [coreAction, hr.phase, hr.mode, pixelStep, hr.wanted, hnew, State.afterInPixel]
  have hlen : c.out.length - s.afterTurn.out.length = bytes.length := by rw [hout]; simp
  refine ⟨{ encodePixel new s.afterInPixel with outRoom := s.outRoom - bytes.length }, ?_, ?_⟩
  · rw [step_core s hr.turn, coreStep_of_next hca, encodePixel_eq, hc, gate_next]
    · simp only [hlen]; rfl
    · simp only [hlen, State.afterTurn_outRoom]; omega
    · simp only [hbc]
      rw [count_add _ _ (by omega)]
      exact Nat.le_add_right _ _
  · rw [encodePixel_eq, hc]
    have hcf := he.rest.config
    have her := he.rest.error
    have hh := he.rest.host
    refine ⟨⟨rfl, hpx, ?_, hout, hbc, rfl, ?_, he.rest.mode, hn, ⟨hcf.1, hcf.2, hcf.3, hcf.4, hcf.5, hcf.6⟩,
      ⟨her.1, her.2, her.3⟩, ⟨hh.1, hh.2, hh.3⟩⟩, rfl, rfl⟩
    · rw [he.rest.inQueue]
      simp [State.afterInPixel, State.pixelWidth, pixelSize]
    · simp only [hpt, hn]
      split
      · rfl
      · exact he.phase.trans hr.phase

end Sys2Proof.Machine
end

