-- ==== Sys2Proof/Laws/PerInstr.lean ====
section
/-! SUPPORT. The statement made per instruction: its encoding has the length the opcode table gives its row. -/

namespace Sys2Proof.Laws.EncodeLength

/-- The encoding's length is the row's `length_bytes` (R92, R100). -/
def Statement (i : Instr) : Prop := (encode i).length = lengthBytes i

theorem index (k : BitVec 6) : Statement (.index k) := rfl

theorem diff (fr fg fb : BitVec 2) : Statement (.diff fr fg fb) := rfl

theorem luma (fdg : BitVec 6) (fdr fdb : BitVec 4) : Statement (.luma fdg fdr fdb) := rfl

theorem run (len : BitVec 6) : Statement (.run len) := rfl

theorem rgb (r g b : Byte) : Statement (.rgb r g b) := rfl

theorem rgba (r g b a : Byte) : Statement (.rgba r g b a) := rfl

theorem endMarker : Statement .endMarker := rfl

end Sys2Proof.Laws.EncodeLength
end

