-- ==== Sys2Proof/Tests/Slice0.lean ====
section
/-! SUPPORT. Tests: the check of WellFormed, words written out from the spec's encodings, single steps against spec/95_test_vectors.md
(its vector's name stands in each docstring), and a witness for the hypotheses of every statement that has any. -/

namespace Sys2Proof.Tests.Slice0

open Sys2Proof Sys2Proof.Machine

/-! ## Well-formedness -/

/-- A RUN of stored length 62 would spell the tag 0xFE, one of 63 the tag 0xFF (R96): both are refused, 61 is not. -/
theorem test_wf_run_limit : (Instr.run 62).wf = false ∧ (Instr.run 63).wf = false ∧ (Instr.run 61).wf = true := by decide

/-- The words the ill-formed terms would have decode to the tags' instructions. -/
theorem test_decode_tags_win :
    decodeAt .groups (encode (.run 62) ++ [1, 2, 3]) = .ok (.rgb 1 2 3, []) ∧
      decodeAt .groups (encode (.run 63) ++ [1, 2, 3, 4]) = .ok (.rgba 1 2 3 4, []) := by decide

/-! ## Decoding: words from the spec's encodings -/

/-- R93: `00 kkkkkk`. -/
theorem test_decode_index : decodeAt .groups [0b00110101, 7] = .ok (.index 53, [7]) := by decide

/-- R94: `01 rr gg bb`; 46 and 64 of §2.3. -/
theorem test_decode_diff :
    decodeAt .groups [0x46] = .ok (.diff 0 1 2, []) ∧ decodeAt .groups [0x64] = .ok (.diff 2 1 0, []) := by decide

/-- R95: `10 gggggg`, `rrrr bbbb`; BF 0F of §2.4. -/
theorem test_decode_luma : decodeAt .groups [0xBF, 0x0F, 5] = .ok (.luma 63 0 15, [5]) := by decide

/-- R96: `11 llllll`; the ends of the range. -/
theorem test_decode_run :
    decodeAt .groups [0xC0] = .ok (.run 0, []) ∧ decodeAt .groups [0xFD] = .ok (.run 61, []) := by decide

/-- R97, R202: four bytes, or none. -/
theorem test_decode_rgb :
    decodeAt .groups [0xFE, 1, 2, 3, 4] = .ok (.rgb 1 2 3, [4]) ∧ decodeAt .groups [0xFE, 1, 2] = .error .operandShort := by
  decide

/-- R98, R202: five bytes, or none. -/
theorem test_decode_rgba :
    decodeAt .groups [0xFF, 1, 2, 3, 4] = .ok (.rgba 1 2 3 4, []) ∧
      decodeAt .groups [0xFF, 1, 2, 3] = .error .operandShort := by decide

/-- R100: only the place tells the marker from INDEX 0. -/
theorem test_decode_endMarker :
    decodeAt .marker [0, 0, 0, 0, 0, 0, 0, 0, 9] = .ok (.endMarker, [9]) ∧
      decodeAt .marker [0, 0, 0, 0, 0, 0, 0, 1] = .error .noMarker ∧ decodeAt .groups [] = .error .noByte := by decide

/-- The rows of the opcode table, by their bits. -/
theorem test_table_words :
    [decodeTableWord 8 0x00, decodeTableWord 8 0x40, decodeTableWord 16 0x0080, decodeTableWord 8 0xC0,
      decodeTableWord 32 0x030201FE, decodeTableWord 40 0x04030201FF, decodeTableWord 64 0] =
      [some (.index 0), some (.diff 0 0 0), some (.luma 0 0 0), some (.run 0), some (.rgb 1 2 3),
        some (.rgba 1 2 3 4), some .endMarker] := by decide

/-! ## Single steps -/

/-- The state a step goes on in. -/
def next (o : Host.Outcome State Fault Refusal) : Option State :=
  match o with
  | .next t => some t
  | .fault _ => none
  | .refused _ => none

/-- A decode pass at its first opcode, at most 100 four-channel pixels, `bytes` in the channel. -/
def dec (bytes : List Byte) : State :=
  { State.reset with
    prev := ⟨10, 20, 30, 40⟩
    phase := .body
    mode := .decode
    ctrlMode := .decode
    n := 100
    width := 10
    height := 10
    channels := 4
    byteCount := 14
    inQueue := bytes
    outRoom := 1000 }

/-- An encode pass at its first pixel, 100 four-channel pixels, `bytes` in the channel. -/
def enc (bytes : List Byte) : State :=
  { State.reset with
    prev := ⟨10, 20, 30, 40⟩
    phase := .body
    n := 100
    width := 10
    height := 10
    channels := 4
    byteCount := 14
    inQueue := bytes
    outRoom := 1000 }

/-- The parameters with the magic of §0. -/
def qoif : Params := ⟨0x716F6966, 1000000, 0x4000, 0x10⟩

/-- Each row's word is the first instruction run after reset. -/
theorem test_fetch_word_runs :
    (next (step (State.reset.withFetchWord 32 0x030201FE))).map (·.prev) = some ⟨1, 2, 3, 0⟩ ∧
      (next (step (State.reset.withFetchWord 8 0xC4))).map (·.pixCount) = some 5 ∧
      (next (step (State.reset.withFetchWord 64 0))).map (fun t => (t.phase, t.out)) =
        some (.done, [0, 0, 0, 0, 0, 0, 0, 0]) := by decide

/-- 5B of §2.3, from (100,200,255,7): (−1,0,1), across the wrap of b. -/
theorem test_diff :
    (next (step { dec [0x5B] with prev := ⟨100, 200, 255, 7⟩ })).map (fun t => (t.prev, t.byteCount)) =
      some (⟨99, 200, 0, 7⟩, 15) := by decide

/-- BF 0F of §2.4, from (10,20,30,40). -/
theorem test_luma :
    (next (step (dec [0xBF, 0x0F]))).map (fun t => (t.prev, t.readCache (pixelHash t.prev), t.byteCount)) =
      some (⟨33, 51, 68, 40⟩, ⟨33, 51, 68, 40⟩, 16) := by decide

/-- I-D3: INDEX of a slot nothing has written gives (0,0,0,0), and writes no slot. -/
theorem test_index :
    (next (step (dec [0x35]))).map (fun t => (t.prev, t.out, t.readCache 53)) =
      some (Pixel.zero, [0, 0, 0, 0], Pixel.zero) := by decide

/-- U-D2: a run past `N` is clipped and ends the pass. -/
theorem test_run_clip :
    (next (step { dec [0xFD] with n := 2 })).map (fun t => (t.pixCount, t.phase, t.out.length, t.byteCount)) =
      some (2, .done, 8, 15) := by decide

/-- B-D1: RGB carries alpha from `PREV`, and writes slot 10. -/
theorem test_rgb :
    (next (step { dec [0xFE, 5, 6, 7] with prev := ⟨1, 2, 3, 4⟩ })).map (fun t => (t.readCache 10, t.out)) =
      some (⟨5, 6, 7, 4⟩, [5, 6, 7, 4]) := by decide

/-- A-D1: RGBA in a three-channel pass keeps its alpha in `PREV` and drops it from the output. -/
theorem test_rgba :
    (next (step { dec [0xFF, 1, 2, 3, 4] with channels := 3 })).map (fun t => (t.prev, t.readCache 14, t.out)) =
      some (⟨1, 2, 3, 4⟩, ⟨1, 2, 3, 4⟩, [1, 2, 3]) := by decide

/-- E-26: LUMA across the wrap of r, slot 30. -/
theorem test_emit_luma :
    (next (step { enc [2, 18, 13, 9] with prev := ⟨250, 10, 5, 9⟩ })).map (fun t => (t.out, t.readCache 30)) =
      some ([0xA8, 0x88], ⟨2, 18, 13, 9⟩) := by decide

/-- EX3: a raw delta of −255 is +1, so DIFF 7F. -/
theorem test_emit_diff :
    (next (step { enc [0, 0, 0] with prev := ⟨255, 255, 255, 255⟩, channels := 3 })).map (fun t => (t.out, t.prev)) =
      some ([0x7F], ⟨0, 0, 0, 255⟩) := by decide

/-- E-22: norm(128) is 128 and fits no window, so RGB. -/
theorem test_emit_rgb :
    (next (step { enc [228, 100, 100] with prev := ⟨100, 100, 100, 255⟩, channels := 3 })).map
      (fun t => (t.out, t.readCache 17)) = some ([0xFE, 0xE4, 0x64, 0x64], ⟨228, 100, 100, 255⟩) := by decide

/-- E-31 after a pending run of 2: the flush, then RGBA, in one step. -/
theorem test_emit_rgba_after_run :
    (next (step { enc [5, 5, 5, 6] with prev := ⟨5, 5, 5, 5⟩, run := 2, pixCount := 2 })).map
      (fun t => (t.out, t.run, t.byteCount)) = some ([0xC1, 0xFF, 5, 5, 5, 6], 0, 20) := by decide

/-- I-E2: the pixel (0,0,0,0) at the start of a pass hits slot 0, though its alpha differs. -/
theorem test_emit_index :
    (next (step { enc [0, 0, 0, 0] with prev := ⟨0, 0, 0, 255⟩ })).map (fun t => (t.out, t.prev)) =
      some ([0x00], Pixel.zero) := by decide

/-- EX4, the 63rd pixel: the run at its cap is given and a new one starts. -/
theorem test_emit_run_cap :
    (next (step { enc [10, 20, 30, 40] with run := 62, pixCount := 62 })).map (fun t => (t.out, t.run)) =
      some ([0xFD], 1) := by decide

/-- EX1: the final step of a run of 2. -/
theorem test_emit_end :
    (next (step { enc [] with phase := .final, run := 2, pixCount := 100 })).map (fun t => (t.out, t.phase)) =
      some ([0xC1, 0, 0, 0, 0, 0, 0, 0, 0], .done) := by decide

/-! ## Datapath, header, errors, registers -/

/-- §2.1. -/
theorem test_hash :
    [pixelHash ⟨0, 0, 0, 255⟩, pixelHash ⟨255, 255, 255, 255⟩, pixelHash ⟨200, 100, 50, 255⟩, pixelHash ⟨5, 6, 7, 4⟩] =
      [53, 38, 31, 10] := by decide

/-- §2.2. -/
theorem test_norm : [-254, -128, -127, 127, 128, 129, 254].map normDelta = [2, 128, -127, 127, 128, -127, -2] := by decide

/-- §2.10, the second written header. -/
theorem test_write_header :
    headerBytesOf qoif ⟨0x12345678, 0xFFFF, 4, 0xAB⟩ =
      [0x71, 0x6F, 0x69, 0x66, 0x12, 0x34, 0x56, 0x78, 0, 0, 0xFF, 0xFF, 4, 0xAB] := by decide

/-- H-1, H-3, H-5: the magic is checked before the channels. -/
theorem test_parse_header :
    parseHeader qoif [0x71, 0x6F, 0x69, 0x66, 0, 0, 0, 2, 0, 0, 0, 1, 3, 0] = .ok ⟨2, 1, 3, 0⟩ ∧
      parseHeader qoif [0x71, 0x6F, 0x69, 0x66, 0, 0, 0, 1, 0, 0, 0, 1, 5, 0] = .error .badChannels ∧
      parseHeader qoif [0x71, 0x6F, 0x69, 0x46, 0, 0, 0, 1, 0, 0, 0, 1, 5, 0] = .error .badMagic := by decide

/-- H-6: nine bytes and the end of input give HEADER_SHORT, nine bytes counted. -/
theorem test_header_short :
    (next (stepWith qoif { dec [0x71, 0x6F, 0x69, 0x66, 0, 0, 0, 2, 0] with
      phase := .header, byteCount := 0, inEnd := true })).map (fun t => (t.err, t.errPos, t.byteCount)) =
      some (0x402, 0, 9) := by decide

/-- A DONE core reads STATUS 0x42, an ERROR core 0x54 (§0). -/
theorem test_status :
    readReg .status { dec [] with phase := .done } = 0x42 ∧ readReg .status { dec [] with phase := .error } = 0x54 := by
  decide

/-- `RUN 63` and `RUN 64` are refused, `RUNS 125` is FD FD C0 (R104, EX4). -/
theorem test_assembler :
    assemble qoif (.run 63) = none ∧ assemble qoif (.run 64) = none ∧ assemble qoif (.diff 2 0 0) = none ∧
      assemble qoif (.runs 125) = some [0xFD, 0xFD, 0xC0] ∧ assemble qoif (.luma 5 0 (-2)) = some [0xA5, 0x86] := by decide

/-- The pseudo-instructions' other corners: H-1's header, END, and `RUNS` of no pixels and of one full run (R105). -/
theorem test_assembler_pseudo :
    assemble qoif (.header 2 1 3 0) = some [0x71, 0x6F, 0x69, 0x66, 0, 0, 0, 2, 0, 0, 0, 1, 3, 0] ∧
      assemble qoif .endLine = some [0, 0, 0, 0, 0, 0, 0, 0] ∧ assemble qoif (.runs 0) = none ∧
      assemble qoif (.runs 62) = some [0xFD] := by decide

/-! ## Witnesses: concrete states and operands that meet the hypotheses of a statement, clause by clause -/

theorem witness_DecodeOfEncode : (Instr.run 61).wf = true ∧ Instr.endMarker.wf = true := by decide

theorem witness_EncodeOfDecode : decodeAt .groups [0xFD, 9] = .ok (.run 61, [9]) := by decide

/-- Both ends of every range of first bytes; a byte lies in one range only. -/
theorem witness_FirstByteMap :
    (0x00#8).toNat ≤ 0x3F ∧ (0x3F#8).toNat ≤ 0x3F ∧
      (0x40 ≤ (0x40#8).toNat ∧ (0x7F#8).toNat ≤ 0x7F) ∧ (0x80 ≤ (0x80#8).toNat ∧ (0xBF#8).toNat ≤ 0xBF) ∧
      (0xC0 ≤ (0xC0#8).toNat ∧ (0xFD#8).toNat ≤ 0xFD) ∧ (0xFE#8).toNat = 0xFE ∧ (0xFF#8).toNat = 0xFF := by decide

/-- The bounds of the range, and the first difference beyond either fold. -/
theorem witness_NormFoldsToShortestPath :
    (-255 ≤ (255 : Int) ∧ (255 : Int) ≤ 255) ∧ (128 < (129 : Int) ∧ (129 : Int) ≤ 255) ∧
      ((-128 : Int) < -127 ∧ -255 ≤ (-128 : Int)) ∧ (-127 ≤ (128 : Int) ∧ (128 : Int) ≤ 128) := by decide

/-- The corners of the two windows, from (0,0,0,255): E-1 and E-17 of §2.5. -/
theorem witness_WindowTests :
    fitsDiff (channelDelta 254 0) (channelDelta 254 0) (channelDelta 1 0) = true ∧
      fitsLuma (channelDelta 38 0) (channelDelta 31 0) (channelDelta 23 0) = true := by decide

theorem witness_PackThenReconstruct :
    (⟨254, 254, 1, 255⟩ : Pixel).a = (⟨0, 0, 0, 255⟩ : Pixel).a ∧
      fitsDiff (channelDelta 254 0) (channelDelta 254 0) (channelDelta 1 0) = true ∧
      fitsLuma (channelDelta 216 0) (channelDelta 224 0) (channelDelta 231 0) = true := by decide

/-- A header whose size is exactly the limit. -/
theorem witness_HeaderSymmetry :
    ((4 : Byte) = 3 ∨ (4 : Byte) = 4) ∧ (250000#32).toNat * (1#32).toNat * (4#8).toNat ≤ qoif.maxBufferBytes := by decide

/-- A wrong magic; with the right one, channels 5; channels 4 and one byte-quad over the limit; exactly the limit. -/
theorem witness_ParseHeaderChecksInOrder :
    ¬ (0x71#8).toNat * 2 ^ 24 + (0x6F#8).toNat * 2 ^ 16 + (0x69#8).toNat * 2 ^ 8 + (0x46#8).toNat = qoif.magic.toNat ∧
      (0x71#8).toNat * 2 ^ 24 + (0x6F#8).toNat * 2 ^ 16 + (0x69#8).toNat * 2 ^ 8 + (0x66#8).toNat = qoif.magic.toNat ∧
      ((5 : Byte) ≠ 3 ∧ (5 : Byte) ≠ 4) ∧ qoif.maxBufferBytes < 250001 * 1 * (4#8).toNat ∧
      250000 * 1 * (4#8).toNat ≤ qoif.maxBufferBytes := by decide

/-- The header of H-1. -/
def headerH1 : List Byte := [0x71, 0x6F, 0x69, 0x66, 0, 0, 0, 2, 0, 0, 0, 1, 3, 0]

/-- A decoder before its header step. -/
def decHeader (bytes : List Byte) : State := { dec bytes with phase := .header, byteCount := 0, inEnd := true }

/-- The hypotheses common to the clauses, then each clause: a header that parses, one that does not, one byte too few. -/
theorem witness_DecodeHeaderStep :
    (decHeader headerH1).coreTurn = true ∧ (decHeader headerH1).phase = .header ∧ (decHeader headerH1).mode = .decode ∧
      (decHeader headerH1).byteCount.toNat + 14 < 2 ^ 64 ∧
      (14 ≤ (decHeader headerH1).inQueue.length ∧
        parseHeader qoif ((decHeader headerH1).inQueue.take 14) = .ok ⟨2, 1, 3, 0⟩) ∧
      (14 ≤ (decHeader (List.replicate 14 0)).inQueue.length ∧
        parseHeader qoif ((decHeader (List.replicate 14 0)).inQueue.take 14) = .error .badMagic) ∧
      ((decHeader (headerH1.take 13)).inQueue.length < 14 ∧ (decHeader (headerH1.take 13)).inEnd = true) := by decide

/-- An encoder before its header step. -/
def encHeader (w h : Word) (c : Byte) (len : Count) : State :=
  { enc [] with phase := .header, byteCount := 0, width := w, height := h, channels := c, inLen := len, outRoom := 14 }

/-- One configuration for each failing check, and one that passes, at the size limit. -/
theorem witness_EncodeHeaderStep :
    let s := encHeader 250000 1 4 1000000
    (s.coreTurn = true ∧ s.phase = .header ∧ s.mode = .encode ∧ 14 ≤ s.outRoom ∧ s.byteCount.toNat + 14 < 2 ^ 64) ∧
      (s.channels = 3 ∨ s.channels = 4) ∧
      s.width.toNat * s.height.toNat * s.channels.toNat ≤ qoif.maxBufferBytes ∧
      s.inLen.toNat = s.width.toNat * s.height.toNat * s.channels.toNat ∧
      ¬ ((encHeader 1 1 5 5).channels = 3 ∨ (encHeader 1 1 5 5).channels = 4) ∧
      qoif.maxBufferBytes < (encHeader 250001 1 4 0).width.toNat * (encHeader 250001 1 4 0).height.toNat *
        (encHeader 250001 1 4 0).channels.toNat ∧
      (encHeader 1 1 3 4).inLen.toNat ≠ (encHeader 1 1 3 4).width.toNat * (encHeader 1 1 3 4).height.toNat *
        (encHeader 1 1 3 4).channels.toNat := by decide

/-- A group of `bytes` is ready in `dec`, with `rest` after it. -/
theorem groupReady_dec (bytes rest : List Byte) (h : bytes.length ≤ 5) : GroupReady (dec (bytes ++ rest)) bytes rest where
  turn := rfl
  phase := rfl
  mode := rfl
  wanted := by show 0 < 100; decide
  fits := by show 100 < 2 ^ 64; decide
  queue := rfl
  room := by show 248 ≤ 1000; decide
  count := by
    show 14 + bytes.length < 2 ^ 64
    omega

/-- The same, with the end of input given. -/
def decEnd (bytes : List Byte) : State := { dec bytes with inEnd := true }

theorem groupReady_decEnd (bytes : List Byte) (h : bytes.length ≤ 5) : GroupReady (decEnd bytes) bytes [] where
  turn := rfl
  phase := rfl
  mode := rfl
  wanted := by show 0 < 100; decide
  fits := by show 100 < 2 ^ 64; decide
  queue := by show bytes = bytes ++ []; simp
  room := by show 248 ≤ 1000; decide
  count := by
    show 14 + bytes.length < 2 ^ 64
    omega

theorem witness_RgbDecodes :
    (dec []).mode = .decode ∧ GroupReady (dec [0xFE, 1, 2, 3, 9]) [0xFE, 1, 2, 3] [9] ∧
      (GroupReady (decEnd [0xFE, 1, 2]) [0xFE, 1, 2] [] ∧ [(1 : Byte), 2].length < 3 ∧ (decEnd [0xFE, 1, 2]).inEnd = true) :=
  ⟨rfl, groupReady_dec [0xFE, 1, 2, 3] [9] (by decide), groupReady_decEnd _ (by decide), by decide, rfl⟩

theorem witness_RgbaDecodes :
    (dec []).mode = .decode ∧ GroupReady (dec [0xFF, 1, 2, 3, 4]) [0xFF, 1, 2, 3, 4] [] ∧
      (GroupReady (decEnd [0xFF, 1, 2, 3]) [0xFF, 1, 2, 3] [] ∧ [(1 : Byte), 2, 3].length < 4 ∧
        (decEnd [0xFF, 1, 2, 3]).inEnd = true) :=
  ⟨rfl, groupReady_dec [0xFF, 1, 2, 3, 4] [] (by decide), groupReady_decEnd _ (by decide), by decide, rfl⟩

theorem witness_IndexDecodes :
    (dec []).mode = .decode ∧ (0x3F#8).toNat ≤ 0x3F ∧ GroupReady (dec [0x3F, 9]) [0x3F] [9] :=
  ⟨rfl, by decide, groupReady_dec [0x3F] [9] (by decide)⟩

theorem witness_DiffDecodes :
    (dec []).mode = .decode ∧ (0x40 ≤ (0x7F#8).toNat ∧ (0x7F#8).toNat ≤ 0x7F) ∧ GroupReady (dec [0x7F]) [0x7F] [] :=
  ⟨rfl, by decide, groupReady_dec [0x7F] [] (by decide)⟩

theorem witness_LumaDecodes :
    (dec []).mode = .decode ∧ (0x80 ≤ (0xBF#8).toNat ∧ (0xBF#8).toNat ≤ 0xBF) ∧
      GroupReady (dec [0xBF, 0xFF]) [0xBF, 0xFF] [] ∧
      (GroupReady (decEnd [0xBF]) [0xBF] [] ∧ (decEnd [0xBF]).inEnd = true) :=
  ⟨rfl, by decide, groupReady_dec [0xBF, 0xFF] [] (by decide), groupReady_decEnd _ (by decide), rfl⟩

theorem witness_RunDecodes :
    (dec []).mode = .decode ∧ (0xC0 ≤ (0xFD#8).toNat ∧ (0xFD#8).toNat ≤ 0xFD) ∧ GroupReady (dec [0xFD]) [0xFD] [] :=
  ⟨rfl, by decide, groupReady_dec [0xFD] [] (by decide)⟩

theorem witness_StepRunsDecodedGroup :
    ((dec [0xA5, 0x86]).coreTurn = true ∧ (dec [0xA5, 0x86]).phase = .body ∧ (dec [0xA5, 0x86]).mode = .decode ∧
        (dec [0xA5, 0x86]).pixCount.toNat < (dec [0xA5, 0x86]).n ∧
        decodeAt .groups (dec [0xA5, 0x86]).inQueue = .ok (.luma 37 8 6, [])) ∧
      ({ enc [] with phase := .final } : State).coreTurn = true ∧ ({ enc [] with phase := .final } : State).mode = .encode :=
  by decide

/-- No byte at all, and a LUMA's first byte alone. -/
theorem witness_TruncatedGroupRaises :
    ((decEnd []).coreTurn = true ∧ (decEnd []).phase = .body ∧ (decEnd []).mode = .decode ∧
        (decEnd []).pixCount.toNat < (decEnd []).n ∧ (decEnd []).inEnd = true ∧ (decEnd []).inQueue = []) ∧
      ((decEnd [0x80]).inQueue = 0x80 :: [] ∧ (decEnd [0x80]).inQueue.length < groupLength 0x80 ∧
        (decEnd [0x80]).byteCount.toNat + (decEnd [0x80]).inQueue.length < 2 ^ 64) := by decide

theorem witness_EncodeModeEmitsEncoding :
    (enc []).mode = .encode ∧ cachedPixel (.rgb 1 2 3) (enc []).prev = some ⟨1, 2, 3, 40⟩ ∧
      cachedPixel (.index 5) (enc []).prev = none := by decide

theorem witness_EndMarkerIgnoredByDecoder : (dec []).mode = .decode := rfl

theorem witness_NothingRunsOutsideAPass :
    State.reset.coreTurn = true ∧ State.reset.phase = .idle ∧ ({ dec [7] with phase := .done } : State).phase = .done ∧
      ({ dec [7] with phase := .error } : State).phase = .error := by decide

/-- An encoder with a pixel next, room for exactly six bytes and a run of `r` pending. -/
def encRun (p : Pixel) (r : BitVec 6) : State :=
  { enc [p.r, p.g, p.b, p.a] with run := r, pixCount := 62, outRoom := 6 }

theorem pixelReady_encRun (p : Pixel) (r : BitVec 6) : PixelReady (encRun p r) p :=
  ⟨rfl, rfl, rfl, by show 62 < 100; decide, by show 100 < 2 ^ 64; decide, rfl, le_refl _, by show 14 + 6 < 2 ^ 64; decide⟩

theorem witness_RunExtension :
    PixelReady (encRun ⟨10, 20, 30, 40⟩ 61) ⟨10, 20, 30, 40⟩ ∧ (⟨10, 20, 30, 40⟩ : Pixel) = (encRun ⟨10, 20, 30, 40⟩ 61).prev ∧
      (encRun ⟨10, 20, 30, 40⟩ 61).run.toNat < 62 := ⟨pixelReady_encRun _ _, rfl, by decide⟩

theorem witness_RunAtCapSplits :
    PixelReady (encRun ⟨10, 20, 30, 40⟩ 62) ⟨10, 20, 30, 40⟩ ∧ (⟨10, 20, 30, 40⟩ : Pixel) = (encRun ⟨10, 20, 30, 40⟩ 62).prev ∧
      (encRun ⟨10, 20, 30, 40⟩ 62).run = 62 := ⟨pixelReady_encRun _ _, rfl, rfl⟩

/-- (0,0,0,0) hits slot 0 of a cleared cache. -/
theorem witness_CacheHitEmitsIndex :
    PixelReady (encRun ⟨0, 0, 0, 0⟩ 5) ⟨0, 0, 0, 0⟩ ∧ (⟨0, 0, 0, 0⟩ : Pixel) ≠ (encRun ⟨0, 0, 0, 0⟩ 5).prev ∧
      (encRun ⟨0, 0, 0, 0⟩ 5).readCache (pixelHash ⟨0, 0, 0, 0⟩) = ⟨0, 0, 0, 0⟩ :=
  ⟨pixelReady_encRun _ _, by decide, by decide⟩

/-- Only the alpha differs; and a pixel of a three-channel pass. -/
theorem witness_AlphaChangeEmitsRgba :
    PixelReady (encRun ⟨10, 20, 30, 41⟩ 0) ⟨10, 20, 30, 41⟩ ∧
      (encRun ⟨10, 20, 30, 41⟩ 0).readCache (pixelHash ⟨10, 20, 30, 41⟩) ≠ ⟨10, 20, 30, 41⟩ ∧
      (⟨10, 20, 30, 41⟩ : Pixel).a ≠ (encRun ⟨10, 20, 30, 41⟩ 0).prev.a ∧
      (PixelReady { encRun ⟨1, 2, 3, 4⟩ 0 with channels := 3 } ⟨1, 2, 3, 255⟩ ∧
        ({ encRun ⟨1, 2, 3, 4⟩ 0 with channels := 3 } : State).channels = 3) :=
  ⟨pixelReady_encRun _ _, by decide, by decide, ⟨rfl, rfl, rfl, by show 62 < 100; decide, by show 100 < 2 ^ 64; decide, rfl,
    le_refl _, by show 14 + 6 < 2 ^ 64; decide⟩, rfl⟩

/-- The hypotheses that the three statements of steps 5 to 7 share. -/
theorem missed (p : Pixel) (r : BitVec 6) (h1 : p ≠ ⟨10, 20, 30, 40⟩) (h2 : p ≠ Pixel.zero) (h3 : p.a = 40) :
    PixelReady (encRun p r) p ∧ p ≠ (encRun p r).prev ∧ (encRun p r).readCache (pixelHash p) ≠ p ∧
      p.a = (encRun p r).prev.a := by
  refine ⟨pixelReady_encRun p r, h1, ?_, h3⟩
  have : (encRun p r).readCache (pixelHash p) = Pixel.zero := by
    simp [State.readCache, encRun, enc, State.reset]
  rw [this]
  exact h2.symm

/-- The corner (−2,1,−2) of the small window, and the pending run flushed before it. -/
theorem witness_SmallDiffEmitsDiff :
    (PixelReady (encRun ⟨8, 21, 28, 40⟩ 3) ⟨8, 21, 28, 40⟩ ∧ (⟨8, 21, 28, 40⟩ : Pixel) ≠ (encRun ⟨8, 21, 28, 40⟩ 3).prev ∧
      (encRun ⟨8, 21, 28, 40⟩ 3).readCache (pixelHash ⟨8, 21, 28, 40⟩) ≠ ⟨8, 21, 28, 40⟩ ∧
      (⟨8, 21, 28, 40⟩ : Pixel).a = (encRun ⟨8, 21, 28, 40⟩ 3).prev.a) ∧
      fitsDiff (normDelta (8 - 10)) (normDelta (21 - 20)) (normDelta (28 - 30)) = true :=
  ⟨missed _ _ (by decide) (by decide) rfl, by decide⟩

/-- E-29 of §2.5. -/
theorem witness_LumaDiffEmitsLuma :
    (PixelReady (encRun ⟨15, 25, 33, 40⟩ 0) ⟨15, 25, 33, 40⟩ ∧ (⟨15, 25, 33, 40⟩ : Pixel) ≠ (encRun ⟨15, 25, 33, 40⟩ 0).prev ∧
      (encRun ⟨15, 25, 33, 40⟩ 0).readCache (pixelHash ⟨15, 25, 33, 40⟩) ≠ ⟨15, 25, 33, 40⟩ ∧
      (⟨15, 25, 33, 40⟩ : Pixel).a = (encRun ⟨15, 25, 33, 40⟩ 0).prev.a) ∧
      fitsDiff (normDelta (15 - 10)) (normDelta (25 - 20)) (normDelta (33 - 30)) = false ∧
      fitsLuma (normDelta (15 - 10)) (normDelta (25 - 20)) (normDelta (33 - 30)) = true :=
  ⟨missed _ _ (by decide) (by decide) rfl, by decide, by decide⟩

/-- One beyond the luma window: a green delta of 32. -/
theorem witness_FallbackEmitsRgb :
    (PixelReady (encRun ⟨42, 52, 62, 40⟩ 0) ⟨42, 52, 62, 40⟩ ∧ (⟨42, 52, 62, 40⟩ : Pixel) ≠ (encRun ⟨42, 52, 62, 40⟩ 0).prev ∧
      (encRun ⟨42, 52, 62, 40⟩ 0).readCache (pixelHash ⟨42, 52, 62, 40⟩) ≠ ⟨42, 52, 62, 40⟩ ∧
      (⟨42, 52, 62, 40⟩ : Pixel).a = (encRun ⟨42, 52, 62, 40⟩ 0).prev.a) ∧
      fitsDiff (normDelta (42 - 10)) (normDelta (52 - 20)) (normDelta (62 - 30)) = false ∧
      fitsLuma (normDelta (42 - 10)) (normDelta (52 - 20)) (normDelta (62 - 30)) = false :=
  ⟨missed _ _ (by decide) (by decide) rfl, by decide, by decide⟩

theorem witness_ChainRunsChosenGroup : (enc []).mode = .encode ∧ (⟨15, 25, 33, 40⟩ : Pixel) ≠ (enc []).prev := by decide

/-- Three bytes of a four-byte pixel, then the end of input. -/
theorem witness_InputShortRaised :
    let s : State := { enc [1, 2, 3] with inEnd := true, pixCount := 99 };
    s.coreTurn = true ∧ s.phase = .body ∧ s.mode = .encode ∧ s.pixCount.toNat < s.n ∧ (s.channels = 3 ∨ s.channels = 4) ∧
      s.inQueue.length < s.channels.toNat ∧ s.inEnd = true ∧ s.pixCount.toNat * s.channels.toNat < 2 ^ 64 := by decide

theorem witness_FinalStepFlushesAndEnds :
    let s : State := { enc [] with phase := .final, run := 62, outRoom := 9 };
    s.coreTurn = true ∧ s.phase = .final ∧ s.mode = .encode ∧ 9 ≤ s.outRoom ∧ s.byteCount.toNat + 9 < 2 ^ 64 := by decide

/-- One pixel beyond the longest run; and a byte of its stream. -/
theorem witness_RunsSplitAtSixtyTwo :
    (let s : State := enc (runBytes 4 ⟨10, 20, 30, 40⟩ 63 ++ [9]);
      s.turns = [] ∧ s.phase = .body ∧ s.mode = .encode ∧ s.run = 0 ∧ s.n < 2 ^ 64 ∧ s.pixCount.toNat + 63 ≤ s.n ∧
        (s.channels ≠ 4 → s.prev.a = 255) ∧ s.inQueue = runBytes s.channels s.prev 63 ++ [9] ∧ 63 ≤ s.outRoom ∧
        s.byteCount.toNat + 63 < 2 ^ 64) ∧
      0xFD ∈ runsBytes 63 ∧ 0xC0 ∈ runsBytes 63 := by
  refine ⟨⟨rfl, rfl, rfl, rfl, by decide, by decide, by decide, rfl, by decide, by decide⟩, by decide, by decide⟩

/-- Each of the four waits, one byte short. -/
theorem witness_CoreHoldsForInput :
    (let s : State := { dec (headerH1.take 13) with phase := .header };
      s.coreTurn = true ∧ s.inEnd = false ∧ s.phase = .header ∧ s.mode = .decode ∧ s.inQueue.length < 14) ∧
      (let s : State := dec [];
        s.coreTurn = true ∧ s.inEnd = false ∧ s.phase = .body ∧ s.mode = .decode ∧ s.pixCount.toNat < s.n ∧ s.inQueue = []) ∧
      (let s : State := dec [0xFF, 1, 2, 3];
        s.coreTurn = true ∧ s.inEnd = false ∧ s.pixCount.toNat < s.n ∧ s.inQueue = 0xFF :: [1, 2, 3] ∧
          s.inQueue.length < groupLength 0xFF) ∧
      (let s : State := enc [1, 2, 3];
        s.coreTurn = true ∧ s.inEnd = false ∧ s.phase = .body ∧ s.mode = .encode ∧ s.pixCount.toNat < s.n ∧
          s.inQueue.length < s.pixelWidth) := by decide

/-- A step that gives four bytes where four fit, which is taken, and where three fit, which is held. -/
theorem witness_OutputIsGated :
    let fits : State := { dec [0xC0] with outRoom := 4 };
    let short : State := { dec [0xC0] with outRoom := 3 };
    (fits.coreTurn = true ∧
        ∃ u, coreAction Config.params fits.afterTurn = .next u ∧ u.out.length - fits.out.length ≤ fits.outRoom ∧
          fits.byteCount.toNat ≤ u.byteCount.toNat) ∧
      (short.coreTurn = true ∧
        ∃ u, coreAction Config.params short.afterTurn = .next u ∧ short.outRoom < u.out.length - short.out.length) ∧
      (next (step fits)).map (fun t => (t.out.length, t.outRoom)) = some (4, 0) ∧ step short = .next short :=
  ⟨⟨rfl, _, rfl, by decide, by decide⟩, ⟨rfl, _, rfl, by decide⟩, by decide, rfl⟩

/-- `s` with the host's next move. -/
def hostTurn (m : HostMove) (s : State) : State := { s with turns := [.host m] }

theorem witness_HostFeedsChannels :
    ((hostTurn (.supply 7) (dec [])).HostTurn (.supply 7) ∧ (hostTurn (.supply 7) (dec [])).inEnd = false) ∧
      (hostTurn .endInput (dec [])).HostTurn .endInput ∧ (hostTurn (.accept 5) (dec [])).HostTurn (.accept 5) ∧
      ((hostTurn (.supply 7) (decEnd [])).HostTurn (.supply 7) ∧ (hostTurn (.supply 7) (decEnd [])).inEnd = true) :=
  ⟨⟨rfl, rfl⟩, rfl, rfl, rfl, rfl⟩

/-- START of a decode pass, a mode write alone, and a write while BUSY. -/
theorem witness_CtrlWrites :
    ((hostTurn (.write qoif.regBase 4 3) State.reset).HostTurn (.write qoif.regBase 4 3) ∧
        State.reset.phase.busy = false ∧ (3#32).getLsbD 0 = true) ∧
      ((hostTurn (.write qoif.regBase 4 2) State.reset).HostTurn (.write qoif.regBase 4 2) ∧ (2#32).getLsbD 0 = false) ∧
      ((hostTurn (.write qoif.regBase 4 1) (dec [])).HostTurn (.write qoif.regBase 4 1) ∧ (dec []).phase.busy = true) :=
  ⟨⟨rfl, rfl, by decide⟩, ⟨rfl, by decide⟩, rfl, rfl⟩

/-- A START in DONE clears the slot that the pass before it wrote (R47). -/
theorem test_start_clears_cache :
    (next (stepWith qoif (hostTurn (.write qoif.regBase 4 3)
      { ((dec []).updateCache ⟨1, 2, 3, 4⟩) with phase := .done }))).map
        (fun t => (t.readCache (pixelHash ⟨1, 2, 3, 4⟩), t.phase)) = some (Pixel.zero, .header) := by decide

/-- A bus read of STATUS answers with its value while the core is BUSY in BODY (R34, R45). -/
theorem test_bus_read_status :
    (next (stepWith qoif (hostTurn (.read (qoif.regBase + 4) 4) (dec [])))).map (·.replies) = some [0x21] := by decide

/-- The last word of the window, written while BUSY, and read. -/
theorem witness_BusyWritesIgnored :
    (0x4C < windowBytes qoif ∧ 0x4C % 4 = 0) ∧ (dec []).phase.busy = true ∧
      (hostTurn (.write (qoif.regBase + 0x4C) 4 9) (dec [])).HostTurn (.write (qoif.regBase + 0x4C) 4 9) ∧
      (hostTurn (.read (qoif.regBase + 0x4C) 4) (dec [])).HostTurn (.read (qoif.regBase + 0x4C) 4) :=
  ⟨by decide, rfl, rfl, rfl⟩

/-- The reserved word of the map, and the first offset past it. -/
theorem witness_RegisterReads : regAt 0x3C = .reserved ∧ regAt 0x40 = .reserved ∧ 0x40 ≤ 0x40 := by decide

/-- The last configuration word, written on the bus, and the read-only offsets at the bounds of their ranges. -/
theorem witness_ConfigurationReadsBack :
    State.reset.phase.busy = false ∧ (0x1C < windowBytes qoif ∧ 0x1C % 4 = 0) ∧
      (hostTurn (.write (qoif.regBase + 0x1C) 4 9) State.reset).HostTurn (.write (qoif.regBase + 0x1C) 4 9) ∧
      regAt 0x04 = .status ∧ regAt 0x08 = .err ∧ regAt 0x20 = .pixCntLo :=
  ⟨rfl, by decide, rfl, rfl, rfl, rfl⟩

/-- A wrong width, and a wrong alignment. -/
theorem witness_MisshapenAccessRefused :
    0x4F < windowBytes qoif ∧ (2 ≠ 4 ∧ 0x4F % 4 ≠ 0) ∧
      (hostTurn (.write (qoif.regBase + 0) 2 1) (dec [])).HostTurn (.write (qoif.regBase + 0) 2 1) ∧
      (hostTurn (.read (qoif.regBase + 0x4F) 4) (dec [])).HostTurn (.read (qoif.regBase + 0x4F) 4) :=
  ⟨by decide, by decide, rfl, rfl⟩

theorem witness_ResetFromAnyPhase : (hostTurn .reset (dec [])).HostTurn .reset := rfl

/-- A decoder that has given its first pixel, a run of it pending in no register. -/
theorem inv_dec : (dec [0xC0]).Inv where
  runBound := by decide
  runInDecode _ := rfl
  runPhase h := absurd rfl h
  runCounted := by decide
  nBound := by decide
  fresh h := by rcases h with h | h <;> cases h
  bodyCount _ := by decide
  finalCount h := by cases h
  doneCount h := by cases h
  active _ := by decide
  errorPhase := by decide
  errorCause := rfl
  errorPos _ := rfl
  cacheSlots k := .inl (by simp [State.readCache, dec, State.reset])
  encodedOut h := by cases h
  decodedOut _ _ := rfl

/-- The invariant of a core in the middle of an encode pass, a run of two pending. -/
def encMid : State :=
  { enc [1, 2, 3, 4] with out := headerBytesOf qoif ⟨10, 10, 4, 0⟩, run := 2, pixCount := 2 }

theorem inv_encMid : encMid.Inv where
  runBound := by decide
  runInDecode h := by cases h
  runPhase _ := .inl rfl
  runCounted := by decide
  nBound := by decide
  fresh h := by rcases h with h | h <;> cases h
  bodyCount _ := by decide
  finalCount h := by cases h
  doneCount h := by cases h
  active _ := by decide
  errorPhase := by decide
  errorCause := rfl
  errorPos _ := rfl
  cacheSlots k := .inl (by simp [State.readCache, encMid, enc, State.reset])
  encodedOut _ := rfl
  decodedOut h := by cases h

theorem witness_StepKeepsInvariant :
    (dec [0xC0]).Inv ∧ (next (step (dec [0xC0]))).isSome = true ∧ encMid.Inv ∧ (next (step encMid)).isSome = true :=
  ⟨inv_dec, by decide, inv_encMid, by decide⟩

theorem witness_PhaseTransitions :
    ((dec [0xC0]).coreTurn = true ∧ (next (step (dec [0xC0]))).isSome = true) ∧
      ((hostTurn .reset (dec [])).HostTurn .reset ∧ (next (step (hostTurn .reset (dec [])))).isSome = true) :=
  ⟨by decide, rfl, by decide⟩

theorem witness_StreamLengthBounded :
    encMid.Inv ∧ encMid.SizeBounded ∧ (next (step encMid)).isSome = true := by
  refine ⟨inv_encMid, fun _ => ⟨fun _ => by decide, fun h => by cases h⟩, by decide⟩

/-- A core's step that writes a slot, and a host move. A bus access of `step` itself goes through parameters without a value, so
the START stands in `test_start_clears_cache`. -/
theorem witness_CacheWrittenTwoWays :
    ((dec [0x7F]).coreTurn = true ∧ (next (step (dec [0x7F]))).isSome = true) ∧
      ((hostTurn (.accept 1) (dec [])).HostTurn (.accept 1) ∧ (next (step (hostTurn (.accept 1) (dec [])))).isSome = true) :=
  ⟨by decide, rfl, by decide⟩

/-- An opcode step, a host's turn, and a reset in mid-pass. -/
theorem witness_ConfigurationFixedWhileBusy :
    (dec [0x7F]).phase.busy = true ∧ (next (step (dec [0x7F]))).isSome = true ∧
      (next (step (hostTurn (.accept 1) (dec [])))).isSome = true ∧ (next (step (hostTurn .reset (dec [])))).isSome = true := by
  decide

/-- An idle core, and one that is done with an earlier pass of the same configuration; and two that differ in a stale `N`. -/
theorem witness_PassIndependentOfPast :
    (let s : State := State.reset;
      let t : State := { State.reset with phase := .done, prev := ⟨1, 2, 3, 4⟩, n := 7, pixCount := 7, out := [1] };
      s.phase.busy = false ∧ t.phase.busy = false ∧ (1#32).getLsbD 0 = true ∧ SameConfig s t ∧ s.outRoom = t.outRoom ∧
        s.replies = t.replies ∧ s.turns = t.turns) ∧
      SameButStaleN State.reset { State.reset with n := 7 } :=
  ⟨⟨rfl, rfl, by decide, ⟨rfl, rfl, rfl, rfl, rfl, rfl⟩, rfl, rfl, rfl⟩, rfl, fun h => by rcases h with h | h <;> cases h⟩

/-- The host's configuration of a 2×1 image of three channels (EX1). -/
def configured : State := { State.reset with width := 2, height := 1, channels := 3, inLen := 6 }

theorem encodeLegal_configured : EncodeLegal qoif configured [0, 0, 0, 0, 0, 0] :=
  ⟨rfl, by decide, by decide, by decide, by decide, by decide⟩

theorem witness_EncodePassTakesTwoPlusN :
    EncodeLegal qoif configured [0, 0, 0, 0, 0, 0] ∧
      14 + 5 * (configured.width.toNat * configured.height.toNat) + 8 ≤ 32 ∧
      1 < 2 + configured.width.toNat * configured.height.toNat := ⟨encodeLegal_configured, by decide, by decide⟩

theorem witness_DecodePassEnds :
    State.reset.phase.busy = false ∧ headerH1.length < 2 ^ 64 ∧ qoif.maxBufferBytes ≤ 1000000 := by decide

/-- An encoder with a run of 62 pending and a pixel equal to `PREV` next, and the decoder that has seen all it gave. -/
theorem witness_LockstepPerPixel :
    let e := encRun ⟨10, 20, 30, 40⟩ 62
    let d := dec ([0xFD] ++ [9])
    PixelReady e ⟨10, 20, 30, 40⟩ ∧ (e.channels = 3 ∨ e.channels = 4) ∧ e.run.toNat ≤ 62 ∧
      Lockstep e d (runBytes 4 ⟨10, 20, 30, 40⟩ 62) ∧
      (next (step e)).map (fun e' => e'.out) = some (e.out ++ [0xFD]) ∧ d.turns = [] ∧ d.phase = .body ∧
      d.mode = .decode ∧ d.inQueue = [0xFD] ++ [9] ∧ 252 ≤ d.outRoom ∧ d.byteCount.toNat + 6 < 2 ^ 64 :=
  ⟨pixelReady_encRun _ _, by decide, by decide, ⟨rfl, rfl, rfl, rfl, rfl, rfl⟩, by decide, rfl, rfl, rfl, rfl, by decide,
    by decide⟩

theorem witness_RoundTrip :
    EncodeLegal qoif configured [0, 0, 0, 0, 0, 0] ∧
      14 + 5 * (configured.width.toNat * configured.height.toNat) + 8 ≤ 32 ∧ State.reset.phase.busy = false ∧
      [(0 : Byte), 0, 0, 0, 0, 0].length ≤ 6 := ⟨encodeLegal_configured, by decide, by decide, by decide⟩

end Sys2Proof.Tests.Slice0
end

/-! What a turn is when the host accesses a word of the register window, and what the block does with it (R45, R69). -/

namespace Sys2Proof.Machine

/-- No register shows the moves still to come. -/
@[simp] theorem readReg_afterTurn (r : Reg) (s : State) : readReg r s.afterTurn = readReg r s := by
  cases r <;> rfl

section
variable {p : Params} {s : State} {off : Nat} (hwindow : off < windowBytes p) (haligned : off % 4 = 0)
include hwindow haligned

/-- The host's turn to write an aligned word of the window writes the register at its offset. -/
theorem stepWith_busWrite {v : Word} (hturn : s.HostTurn (.write (p.regBase + off) 4 v)) :
    stepWith p s = .next (writeReg (regAt off) v s.afterTurn) := by
  rw [stepWith_host p s _ hturn, hostMove_write (regOf_inWindow p hwindow haligned)]

/-- The host's turn to read an aligned word of the window adds that register's value to the replies. -/
theorem stepWith_busRead (hturn : s.HostTurn (.read (p.regBase + off) 4)) :
    stepWith p s = .next { s.afterTurn with replies := s.replies ++ [readReg (regAt off) s] } := by
  rw [stepWith_host p s _ hturn, hostMove_read (regOf_inWindow p hwindow haligned), readReg_afterTurn, State.afterTurn_replies]

end

/-- Settles O43: the bus access reaches the register at its offset, where a write is ignored while BUSY. -/
theorem busyWritesIgnored : Obligations.BusyWritesIgnored := by
  unfold Obligations.BusyWritesIgnored
  intro p s off hwindow haligned
  constructor
  · intro v hbusy hturn
    have hbusy' : s.afterTurn.phase.busy = true := hbusy
    rw [stepWith_busWrite hwindow haligned hturn, writeReg_busy _ _ hbusy']
  · exact stepWith_busRead hwindow haligned

end Sys2Proof.Machine

/-! The opcode map of the first byte (R91, R92, R99): the group each class and each tag selects, and its fields as numbers. -/

namespace Sys2Proof

/-- A field of a word, as a number: `w` bits from bit `start` up. -/
theorem extractLsb'_eq_ofNat {n : Nat} (x : BitVec n) (start w : Nat) :
    x.extractLsb' start w = BitVec.ofNat w (x.toNat / 2 ^ start % 2 ^ w) := by
  apply BitVec.eq_of_toNat_eq
  simp [Nat.shiftRight_eq_div_pow]

/-- The class of a byte is its quarter of the range 0x00 to 0xFF (R91). -/
theorem classOf_eq_iff {b0 : Byte} {c : BitVec 2} : classOf b0 = c ↔ b0.toNat / 64 = c.toNat := by
  have hmod : b0.toNat / 2 ^ 6 % 2 ^ 2 = b0.toNat / 64 := by omega
  rw [← BitVec.toNat_inj, classOf, extractLsb'_eq_ofNat, BitVec.toNat_ofNat, Nat.mod_mod, hmod]

theorem payloadOf_eq_ofNat (b0 : Byte) : payloadOf b0 = BitVec.ofNat 6 (b0.toNat % 64) := by
  rw [payloadOf]
  simpa using extractLsb'_eq_ofNat b0 0 6

section
variable {b0 : Byte}

/-- Both tags are of class 11, so a byte of any other class is no tag (R91). -/
theorem not_tag_of_classOf_ne (h : classOf b0 ≠ 0b11) : b0 ≠ 0xFE ∧ b0 ≠ 0xFF :=
  ⟨by rintro rfl; exact h (by decide), by rintro rfl; exact h (by decide)⟩

/-- The length of a group whose first byte is no tag depends on LUMA's class alone (R92). -/
theorem groupLength_of_untagged (hFE : b0 ≠ 0xFE) (hFF : b0 ≠ 0xFF) :
    groupLength b0 = if classOf b0 = 0b10 then 2 else 1 := by
  rw [groupLength, if_neg hFE, if_neg hFF]

/-- Class 00 is INDEX, of one byte (R93). -/
theorem indexGroup (h : classOf b0 = 0b00) :
    groupLength b0 = 1 ∧ ∀ rest, decodeGroup (b0 :: rest) = .ok (.index (payloadOf b0), rest) := by
  obtain ⟨hFE, hFF⟩ := not_tag_of_classOf_ne (show classOf b0 ≠ 0b11 by rw [h]; decide)
  refine ⟨by rw [groupLength_of_untagged hFE hFF, h]; rfl, fun rest => ?_⟩
  simp only [decodeGroup, if_neg hFE, if_neg hFF, h]
  rfl

/-- Class 01 is DIFF, of one byte (R94). -/
theorem diffGroup (h : classOf b0 = 0b01) :
    groupLength b0 = 1 ∧ ∀ rest, decodeGroup (b0 :: rest) =
      .ok (.diff (b0.extractLsb' 4 2) (b0.extractLsb' 2 2) (b0.extractLsb' 0 2), rest) := by
  obtain ⟨hFE, hFF⟩ := not_tag_of_classOf_ne (show classOf b0 ≠ 0b11 by rw [h]; decide)
  refine ⟨by rw [groupLength_of_untagged hFE hFF, h]; rfl, fun rest => ?_⟩
  simp only [decodeGroup, if_neg hFE, if_neg hFF, h]
  rfl

/-- Class 10 is LUMA, of two bytes (R95). -/
theorem lumaGroup (h : classOf b0 = 0b10) :
    groupLength b0 = 2 ∧ ∀ b1 rest, decodeGroup (b0 :: b1 :: rest) =
      .ok (.luma (payloadOf b0) (b1.extractLsb' 4 4) (b1.extractLsb' 0 4), rest) := by
  obtain ⟨hFE, hFF⟩ := not_tag_of_classOf_ne (show classOf b0 ≠ 0b11 by rw [h]; decide)
  refine ⟨by rw [groupLength_of_untagged hFE hFF, h]; rfl, fun b1 rest => ?_⟩
  simp only [decodeGroup, if_neg hFE, if_neg hFF, h]
  rfl

/-- Class 11 beside the tags is RUN, of one byte (R96). -/
theorem runGroup (h : classOf b0 = 0b11) (hFE : b0 ≠ 0xFE) (hFF : b0 ≠ 0xFF) :
    groupLength b0 = 1 ∧ ∀ rest, decodeGroup (b0 :: rest) = .ok (.run (payloadOf b0), rest) := by
  refine ⟨by rw [groupLength_of_untagged hFE hFF, h]; rfl, fun rest => ?_⟩
  simp only [decodeGroup, if_neg hFE, if_neg hFF, h]
  rfl

end

/-- The DIFF fields as numbers (R94). -/
theorem diffFields_eq_ofNat (b0 : Byte) :
    b0.extractLsb' 4 2 = BitVec.ofNat 2 (b0.toNat / 16 % 4) ∧
      b0.extractLsb' 2 2 = BitVec.ofNat 2 (b0.toNat / 4 % 4) ∧ b0.extractLsb' 0 2 = BitVec.ofNat 2 (b0.toNat % 4) :=
  ⟨extractLsb'_eq_ofNat b0 4 2, extractLsb'_eq_ofNat b0 2 2, by simpa using extractLsb'_eq_ofNat b0 0 2⟩

/-- The two nibbles of LUMA's second byte as numbers (R95). -/
theorem nibbles_eq_ofNat (b1 : Byte) :
    b1.extractLsb' 4 4 = BitVec.ofNat 4 (b1.toNat / 16) ∧ b1.extractLsb' 0 4 = BitVec.ofNat 4 (b1.toNat % 16) := by
  have hmod : b1.toNat / 2 ^ 4 % 2 ^ 4 = b1.toNat / 16 := by omega
  exact ⟨hmod ▸ extractLsb'_eq_ofNat b1 4 4, by simpa using extractLsb'_eq_ofNat b1 0 4⟩

/-- Settles O3: each range of first bytes is one class, or one tag, or class 11 without the tags. -/
theorem firstByteMap : Obligations.FirstByteMap := by
  unfold Obligations.FirstByteMap
  intro b0
  simp only [decodeAt, ← payloadOf_eq_ofNat]
  obtain ⟨hfr, hfg, hfb⟩ := diffFields_eq_ofNat b0
  rw [← hfr, ← hfg, ← hfb]
  refine ⟨fun h => ?index, fun h => ?diff, fun h => ?luma, fun h => ?run, fun h => ?rgb, fun h => ?rgba⟩
  case index => exact indexGroup (classOf_eq_iff.2 (show b0.toNat / 64 = 0 by omega))
  case diff => exact diffGroup (classOf_eq_iff.2 (show b0.toNat / 64 = 1 by omega))
  case luma =>
    obtain ⟨hlen, hdec⟩ := lumaGroup (classOf_eq_iff.2 (show b0.toNat / 64 = 2 by omega))
    refine ⟨hlen, fun b1 rest => ?_⟩
    obtain ⟨hfdr, hfdb⟩ := nibbles_eq_ofNat b1
    rw [hdec, hfdr, hfdb]
  case run =>
    have hFE : b0 ≠ 0xFE := by rintro rfl; exact absurd h.2 (by decide)
    have hFF : b0 ≠ 0xFF := by rintro rfl; exact absurd h.2 (by decide)
    obtain ⟨hlen, hdec⟩ := runGroup (classOf_eq_iff.2 (show b0.toNat / 64 = 3 by omega)) hFE hFF
    exact ⟨hlen, by omega, hdec⟩
  case rgb =>
    obtain rfl : b0 = 0xFE := BitVec.eq_of_toNat_eq h
    exact ⟨rfl, fun _ _ _ _ => rfl⟩
  case rgba =>
    obtain rfl : b0 = 0xFF := BitVec.eq_of_toNat_eq h
    exact ⟨rfl, fun _ _ _ _ _ => rfl⟩

end Sys2Proof

/-! The assembler's lines (R104, R105): an operand's range, the bytes of fields written as numbers, and one lemma a line. -/

namespace Sys2Proof.Machine

/-- Two fields side by side: the number they spell is the upper one's, shifted, plus the lower one's. -/
theorem ofInt_append_ofInt {n m : Nat} {a b : Int} (ha : 0 ≤ a) (hb : 0 ≤ b) (hlt : b < 2 ^ m) :
    BitVec.ofInt n a ++ BitVec.ofInt m b = BitVec.ofInt (n + m) (a * 2 ^ m + b) := by
  lift a to Nat using ha
  lift b to Nat using hb
  have hlt' : b < 2 ^ m := by exact_mod_cast hlt
  have hcast : (a : Int) * 2 ^ m + b = (a * 2 ^ m + b : Nat) := by push_cast; rfl
  have hlow : (a * 2 ^ m + b) % 2 ^ m = b := by rw [Nat.mul_add_mod_self_right, Nat.mod_eq_of_lt hlt']
  have hhigh : (a * 2 ^ m + b) / 2 ^ m = a := by
    rw [Nat.mul_comm, Nat.mul_add_div (Nat.two_pow_pos m), Nat.div_eq_of_lt hlt', Nat.add_zero]
  rw [hcast, BitVec.ofInt_natCast, BitVec.ofInt_natCast, BitVec.ofInt_natCast]
  apply BitVec.eq_of_toNat_eq
  rw [BitVec.toNat_append, BitVec.toNat_ofNat, BitVec.toNat_ofNat, BitVec.toNat_ofNat, Nat.mod_eq_of_lt hlt',
    ← Nat.shiftLeft_add_eq_or_of_lt hlt', Nat.shiftLeft_eq, Nat.pow_add, Nat.mul_comm (2 ^ n), Nat.mod_mul, hlow, hhigh,
    Nat.mul_comm, Nat.add_comm]

/-! ### The bytes of fields written as numbers -/

theorem encode_index_ofInt {k : Int} (hk : 0 ≤ k ∧ k < 64) : encode (.index (BitVec.ofInt 6 k)) = [BitVec.ofInt 8 k] := by
  have happ : BitVec.ofInt 2 0 ++ BitVec.ofInt 6 k = BitVec.ofInt 8 (0 * 2 ^ 6 + k) :=
    ofInt_append_ofInt le_rfl hk.1 hk.2
  rw [zero_mul, zero_add] at happ
  exact congrArg ([·]) happ

theorem encode_run_ofInt {len : Int} (hlen : 0 ≤ len ∧ len < 64) :
    encode (.run (BitVec.ofInt 6 len)) = [BitVec.ofInt 8 (0xC0 + len)] :=
  congrArg ([·]) (ofInt_append_ofInt (n := 2) (a := 3) (by decide) hlen.1 hlen.2)

theorem encode_diff_ofInt {fr fg fb : Int} (hr : 0 ≤ fr ∧ fr < 4) (hg : 0 ≤ fg ∧ fg < 4) (hb : 0 ≤ fb ∧ fb < 4) :
    encode (.diff (BitVec.ofInt 2 fr) (BitVec.ofInt 2 fg) (BitVec.ofInt 2 fb)) =
      [BitVec.ofInt 8 (0x40 + fr * 16 + fg * 4 + fb)] := by
  have happ : BitVec.ofInt 2 1 ++ BitVec.ofInt 2 fr ++ BitVec.ofInt 2 fg ++ BitVec.ofInt 2 fb =
      BitVec.ofInt 8 (((1 * 2 ^ 2 + fr) * 2 ^ 2 + fg) * 2 ^ 2 + fb) := by
    rw [ofInt_append_ofInt (by decide) hr.1 hr.2, ofInt_append_ofInt (by omega) hg.1 hg.2,
      ofInt_append_ofInt (by omega) hb.1 hb.2]
  rw [show ((1 * 2 ^ 2 + fr) * 2 ^ 2 + fg) * 2 ^ 2 + fb = 0x40 + fr * 16 + fg * 4 + fb by ring] at happ
  exact congrArg ([·]) happ

theorem encode_luma_ofInt {fdg fdr fdb : Int} (hg : 0 ≤ fdg ∧ fdg < 64) (hr : 0 ≤ fdr ∧ fdr < 16)
    (hb : 0 ≤ fdb ∧ fdb < 16) :
    encode (.luma (BitVec.ofInt 6 fdg) (BitVec.ofInt 4 fdr) (BitVec.ofInt 4 fdb)) =
      [BitVec.ofInt 8 (0x80 + fdg), BitVec.ofInt 8 (fdr * 16 + fdb)] :=
  congrArg₂ ([·, ·]) (ofInt_append_ofInt (n := 2) (a := 2) (by decide) hg.1 hg.2)
    (ofInt_append_ofInt hr.1 hb.1 hb.2)

/-! ### The lines -/

/-- What an operand does to its line: in its range `lo` to `hi` the line goes on with its field, outside it there is no line. -/
theorem asmField_bind {bits : Nat} {bias lo hi v : Int} {α : Type} (f : BitVec bits → Option α)
    (hlo : lo + bias = 0) (hhi : hi + bias + 1 = 2 ^ bits) :
    (asmField bits bias v).bind f = if lo ≤ v ∧ v ≤ hi then f (BitVec.ofInt bits (v + bias)) else none := by
  have hiff : (0 ≤ v + bias ∧ v + bias < 2 ^ bits) ↔ (lo ≤ v ∧ v ≤ hi) := by rw [← hhi]; omega
  by_cases h : 0 ≤ v + bias ∧ v + bias < 2 ^ bits
  · rw [asmField_some h, if_pos (hiff.1 h), Option.bind_some]
  · rw [asmField_none h, if_neg (mt hiff.2 h), Option.bind_none]

/-- A channel operand (R104): 0 to 255, stored as it is. -/
theorem asmField_channel_bind {v : Int} {α : Type} (f : Byte → Option α) :
    (asmField 8 0 v).bind f = if 0 ≤ v ∧ v ≤ 255 then f (BitVec.ofInt 8 v) else none := by
  rw [asmField_bind f (lo := 0) (hi := 255) rfl rfl, add_zero]

section
variable (p : Params)

theorem assemble_index (k : Int) :
    assemble p (.index k) = if 0 ≤ k ∧ k ≤ 63 then some [BitVec.ofInt 8 k] else none := by
  simp only [assemble, Option.bind_eq_bind, asmField_bind (bits := 6) (bias := 0) (lo := 0) (hi := 63) _ rfl rfl]
  refine ite_congr rfl (fun hk => ?_) fun _ => rfl
  rw [add_zero, encode_index_ofInt (by omega)]

theorem assemble_diff (dr dg db : Int) :
    assemble p (.diff dr dg db) =
      if (-2 ≤ dr ∧ dr ≤ 1) ∧ (-2 ≤ dg ∧ dg ≤ 1) ∧ (-2 ≤ db ∧ db ≤ 1) then
        some [BitVec.ofInt 8 (0x40 + (dr + 2) * 16 + (dg + 2) * 4 + (db + 2))] else none := by
  simp only [assemble, Option.bind_eq_bind, asmField_bind (bits := 2) (bias := 2) (lo := -2) (hi := 1) _ rfl rfl,
    ← ite_and]
  refine ite_congr rfl (fun h => ?_) fun _ => rfl
  rw [encode_diff_ofInt (by omega) (by omega) (by omega)]

theorem assemble_luma (dg ro bo : Int) :
    assemble p (.luma dg ro bo) =
      if (-32 ≤ dg ∧ dg ≤ 31) ∧ (-8 ≤ ro ∧ ro ≤ 7) ∧ (-8 ≤ bo ∧ bo ≤ 7) then
        some [BitVec.ofInt 8 (0x80 + (dg + 32)), BitVec.ofInt 8 ((ro + 8) * 16 + (bo + 8))] else none := by
  simp only [assemble, Option.bind_eq_bind, asmField_bind (bits := 6) (bias := 32) (lo := -32) (hi := 31) _ rfl rfl,
    asmField_bind (bits := 4) (bias := 8) (lo := -8) (hi := 7) _ rfl rfl, ← ite_and]
  refine ite_congr rfl (fun h => ?_) fun _ => rfl
  rw [encode_luma_ofInt (by omega) (by omega) (by omega)]

theorem assemble_run (n : Int) :
    assemble p (.run n) = if 1 ≤ n ∧ n ≤ 62 then some [BitVec.ofInt 8 (0xC0 + (n - 1))] else none := by
  refine ite_congr rfl (fun hn => ?_) fun _ => rfl
  rw [encode_run_ofInt (by omega)]

theorem assemble_rgb (r g b : Int) :
    assemble p (.rgb r g b) =
      if (0 ≤ r ∧ r ≤ 255) ∧ (0 ≤ g ∧ g ≤ 255) ∧ (0 ≤ b ∧ b ≤ 255) then
        some [0xFE, BitVec.ofInt 8 r, BitVec.ofInt 8 g, BitVec.ofInt 8 b] else none := by
  simp only [assemble, Option.bind_eq_bind, asmField_channel_bind, ← ite_and, encode]

theorem assemble_rgba (r g b a : Int) :
    assemble p (.rgba r g b a) =
      if (0 ≤ r ∧ r ≤ 255) ∧ (0 ≤ g ∧ g ≤ 255) ∧ (0 ≤ b ∧ b ≤ 255) ∧ (0 ≤ a ∧ a ≤ 255) then
        some [0xFF, BitVec.ofInt 8 r, BitVec.ofInt 8 g, BitVec.ofInt 8 b, BitVec.ofInt 8 a] else none := by
  simp only [assemble, Option.bind_eq_bind, asmField_channel_bind, ← ite_and, encode]

/-- HEADER of a header's own field values gives that header's bytes (R105). -/
theorem assemble_header_toNat (h : Header) :
    assemble p (.header h.width.toNat h.height.toNat h.channels.toNat h.colorspace.toNat) = some (headerBytesOf p h) := by
  simp only [assemble, asmField_toNat, Option.bind_eq_bind, Option.bind_some]

end

/-- The expansion of RUNS, its remainder's RUN as a byte (R105). -/
theorem runsBytes_eq (n : Nat) :
    runsBytes n =
      List.replicate (n / 62) 0xFD ++ if n % 62 = 0 then [] else [BitVec.ofNat 8 (0xC0 + (n % 62 - 1))] := by
  have hrun : encode (.run (BitVec.ofNat 6 (n % 62 - 1))) = [BitVec.ofNat 8 (0xC0 + (n % 62 - 1))] := by
    rw [← BitVec.ofInt_natCast, encode_run_ofInt (by omega), ← BitVec.ofInt_natCast, Int.natCast_add]
    rfl
  rw [runsBytes, hrun]

/-- Settles O5: line by line, from each operand's range and the bytes of the fields it gives. -/
theorem assemblerLines : Obligations.AssemblerLines := by
  unfold Obligations.AssemblerLines
  intro p
  exact ⟨assemble_index p, assemble_diff p, assemble_luma p, assemble_run p, assemble_rgb p, assemble_rgba p,
    fun w h c cs => assemble_header_toNat p ⟨w, h, c, cs⟩, rfl,
    fun n => ite_congr rfl (fun _ => congrArg some (runsBytes_eq n)) fun _ => rfl⟩

end Sys2Proof.Machine

/-! The header's bytes (R67, R120 to R129): a field's four bytes and its value, and the parse said in the fields' values. -/

namespace Sys2Proof.Machine

/-- Four bytes, most significant first, never overflow their word. -/
theorem toNat_ofBe32 (b3 b2 b1 b0 : Byte) :
    (ofBe32 b3 b2 b1 b0).toNat = b3.toNat * 2 ^ 24 + b2.toNat * 2 ^ 16 + b1.toNat * 2 ^ 8 + b0.toNat := by
  rw [ofBe32, BitVec.toNat_ofNat]
  omega

/-- The value of four bytes is a word exactly where their number is the word's (R67). -/
theorem ofBe32_eq_iff {b3 b2 b1 b0 : Byte} {v : Word} :
    ofBe32 b3 b2 b1 b0 = v ↔
      b3.toNat * 2 ^ 24 + b2.toNat * 2 ^ 16 + b1.toNat * 2 ^ 8 + b0.toNat = v.toNat := by
  rw [← BitVec.toNat_inj, toNat_ofBe32]

/-- Reading back a word's four bytes gives the word. -/
theorem ofBe32_extractLsb' (v : Word) :
    ofBe32 (v.extractLsb' 24 8) (v.extractLsb' 16 8) (v.extractLsb' 8 8) (v.extractLsb' 0 8) = v := by
  rw [ofBe32_eq_iff]
  simp only [extractLsb'_eq_ofNat, BitVec.toNat_ofNat]
  omega

/-- Writing the value of four bytes gives the four bytes. -/
theorem be32_ofBe32 (b3 b2 b1 b0 : Byte) : be32 (ofBe32 b3 b2 b1 b0) = [b3, b2, b1, b0] := by
  simp only [be32, extractLsb'_eq_ofNat, toNat_ofBe32, List.cons.injEq, and_true, ← BitVec.toNat_inj, BitVec.toNat_ofNat]
  omega

/-- Two words of the same four bytes are one word. -/
theorem be32_inj {v w : Word} : be32 v = be32 w ↔ v = w := by
  refine ⟨fun h => ?_, congrArg be32⟩
  simp only [be32, List.cons.injEq, and_true] at h
  obtain ⟨h3, h2, h1, h0⟩ := h
  rw [← ofBe32_extractLsb' v, h3, h2, h1, h0, ofBe32_extractLsb']

/-- The legal channel counts are 3 and 4 (R123). -/
theorem channelsLegal_iff {c : Byte} : channelsLegal c = true ↔ c = 3 ∨ c = 4 := by
  simp [channelsLegal]

/-- The parse of 14 bytes, said in the values of the fields they spell: the checks in the order of R127. -/
theorem parseHeader_fields (p : Params) (m w h : Word) (c cs : Byte) :
    parseHeader p (be32 m ++ be32 w ++ be32 h ++ [c, cs]) =
      if m ≠ p.magic then .error .badMagic
      else if ¬ (c = 3 ∨ c = 4) then .error .badChannels
      else if p.maxBufferBytes < w.toNat * h.toNat * c.toNat then .error .sizeLimit
      else .ok ⟨w, h, c, cs⟩ := by
  have hmagic : be32 m ≠ be32 p.magic ↔ m ≠ p.magic := not_congr be32_inj
  have hchannels : (!channelsLegal c) = true ↔ ¬ (c = 3 ∨ c = 4) := by
    rw [← channelsLegal_iff, Bool.not_eq_true', Bool.not_eq_true]
  simp only [← hmagic, ← hchannels]
  conv_rhs => rw [← ofBe32_extractLsb' w, ← ofBe32_extractLsb' h]
  rfl

/-- Settles O12: each field is read back from its own bytes, and no check fails. -/
theorem headerSymmetry : Obligations.HeaderSymmetry := by
  unfold Obligations.HeaderSymmetry
  intro p h hchannels hsize
  rw [headerBytesOf, parseHeader_fields, if_neg (not_not.2 rfl), if_neg (not_not.2 hchannels), if_neg hsize.not_gt]

/-- Settles O13: the 14 bytes are those of the words they spell, whose parse goes check by check. -/
theorem parseHeaderChecksInOrder : Obligations.ParseHeaderChecksInOrder := by
  unfold Obligations.ParseHeaderChecksInOrder
  intro p m3 m2 m1 m0 w3 w2 w1 w0 h3 h2 h1 h0 c cs result w h magicOk
  have hresult : result = parseHeader p (be32 (ofBe32 m3 m2 m1 m0) ++ be32 (ofBe32 w3 w2 w1 w0) ++
      be32 (ofBe32 h3 h2 h1 h0) ++ [c, cs]) := by
    simp only [be32_ofBe32]
    rfl
  have hmagic : magicOk ↔ ofBe32 m3 m2 m1 m0 = p.magic := ofBe32_eq_iff.symm
  have hw : (ofBe32 w3 w2 w1 w0).toNat = w := toNat_ofBe32 w3 w2 w1 w0
  have hh : (ofBe32 h3 h2 h1 h0).toNat = h := toNat_ofBe32 h3 h2 h1 h0
  rw [parseHeader_fields, hw, hh] at hresult
  rw [hmagic, hresult]
  refine ⟨fun hm => if_pos hm, fun hm hc => ?_, fun hm hc hsize => ?_, fun hm hc hsize => ⟨?_, ?_, ?_⟩⟩
  · rw [if_neg (not_not.2 hm), if_pos (not_or.2 hc)]
  · rw [if_neg (not_not.2 hm), if_neg (not_not.2 hc), if_pos hsize]
  · rw [if_neg (not_not.2 hm), if_neg (not_not.2 hc), if_neg hsize.not_gt]
    rfl
  · exact hw ▸ BitVec.isLt _
  · exact hh ▸ BitVec.isLt _

end Sys2Proof.Machine

/-! Pixel arithmetic (R140 to R154): the hash, the comparators, the folds of the normalisation, the windows on 8-bit
differences, and reconstruction channel by channel. -/

namespace Sys2Proof.Machine

/-! ### The hash and the packed word -/

/-- The hash as a number (R140). -/
theorem toNat_pixelHash (p : Pixel) :
    (pixelHash p).toNat = (p.r.toNat * 3 + p.g.toNat * 5 + p.b.toNat * 7 + p.a.toNat * 11) % 64 :=
  BitVec.toNat_ofNat _ _

/-- The sum that the hash reduces fits in 13 bits (R140). -/
theorem pixelHash_sum_le (p : Pixel) : p.r.toNat * 3 + p.g.toNat * 5 + p.b.toNat * 7 + p.a.toNat * 11 ≤ 6630 := by
  omega

/-- Settles O6: the field of six bits is the remainder mod 64, of a sum of four weighted bytes. -/
theorem hashIsSumMod64 : Obligations.HashIsSumMod64 := by
  unfold Obligations.HashIsSumMod64
  refine ⟨fun p => ⟨toNat_pixelHash p, ?range, pixelHash_sum_le p⟩, ?corners⟩
  case range => exact Nat.le_of_lt_succ (pixelHash p).isLt
  case corners => decide

/-- Of four fields of one width side by side, each is read at its own place. -/
theorem append_fields {w : Nat} (x₃ x₂ x₁ x₀ : BitVec w) :
    (x₃ ++ x₂ ++ x₁ ++ x₀).extractLsb' (w + w + w) w = x₃ ∧ (x₃ ++ x₂ ++ x₁ ++ x₀).extractLsb' (w + w) w = x₂ ∧
      (x₃ ++ x₂ ++ x₁ ++ x₀).extractLsb' w w = x₁ ∧ (x₃ ++ x₂ ++ x₁ ++ x₀).extractLsb' 0 w = x₀ := by
  simp (disch := omega) only [BitVec.extractLsb'_append_eq_of_le, Nat.add_sub_cancel, Nat.sub_self,
    BitVec.extractLsb'_append_eq_right, BitVec.extractLsb'_eq_self, and_self]

/-- The channels of a pixel stand side by side in its word (R21). -/
theorem packPixel_channels (p : Pixel) :
    (packPixel p).extractLsb' 24 8 = p.r ∧ (packPixel p).extractLsb' 16 8 = p.g ∧
      (packPixel p).extractLsb' 8 8 = p.b ∧ (packPixel p).extractLsb' 0 8 = p.a :=
  append_fields p.r p.g p.b p.a

/-- Pixels are equal exactly where their channels are (R142). -/
theorem pixel_eq_iff_channels {p q : Pixel} : p = q ↔ p.r = q.r ∧ p.g = q.g ∧ p.b = q.b ∧ p.a = q.a := by
  cases p
  cases q
  exact iff_of_eq (Pixel.mk.injEq ..)

/-- Pixels are equal exactly where their words are. -/
theorem packPixel_inj {p q : Pixel} : packPixel p = packPixel q ↔ p = q := by
  refine ⟨fun h => ?_, congrArg packPixel⟩
  obtain ⟨hr, hg, hb, ha⟩ := packPixel_channels p
  rw [h] at hr hg hb ha
  obtain ⟨hr', hg', hb', ha'⟩ := packPixel_channels q
  exact pixel_eq_iff_channels.2 ⟨hr.symm.trans hr', hg.symm.trans hg', hb.symm.trans hb', ha.symm.trans ha'⟩

/-- Settles O7: both comparators say what they compare, and the packed word determines the pixel. -/
theorem comparatorsAreChannelwise : Obligations.ComparatorsAreChannelwise := by
  unfold Obligations.ComparatorsAreChannelwise
  intro p q
  refine ⟨?channels, ?words, alphaDiffers_iff p q⟩
  case channels => rw [pixelEq_iff, pixel_eq_iff_channels]
  case words => rw [pixelEq_iff, packPixel_inj]

/-! ### Rollover normalisation and the windows -/

section
variable {d : Int}

/-- The fold from above (R144). -/
theorem normDelta_of_gt (hlow : 128 < d) (hhigh : d ≤ 255) : normDelta d = d - 256 := by
  simp only [normDelta, if_pos hlow]
  exact if_neg (by omega)

/-- The fold from below (R144). -/
theorem normDelta_of_lt (h : d < -127) : normDelta d = d + 256 := by
  simp only [normDelta, if_neg (show ¬ d > 128 by omega), if_pos h]

/-- A difference between the folds stays as it is (R144). -/
theorem normDelta_of_mem (h : -127 ≤ d ∧ d ≤ 128) : normDelta d = d := by
  simp only [normDelta, if_neg (show ¬ d > 128 by omega), if_neg (show ¬ d < -127 by omega)]

/-- The closed form of R144. -/
theorem normDelta_eq_emod (h : -255 ≤ d ∧ d ≤ 255) : normDelta d = (d + 127) % 256 - 127 := by
  obtain habove | hbelow | hbetween : 128 < d ∨ d < -127 ∨ (-127 ≤ d ∧ d ≤ 128) := by omega
  · rw [normDelta_of_gt habove h.2]; omega
  · rw [normDelta_of_lt hbelow]; omega
  · rw [normDelta_of_mem hbetween]; omega

end

/-- The small-diff window, as inequalities (R146). -/
theorem fitsDiff_iff {dr dg db : Int} :
    fitsDiff dr dg db = true ↔ (-2 ≤ dr ∧ dr ≤ 1) ∧ (-2 ≤ dg ∧ dg ≤ 1) ∧ (-2 ≤ db ∧ db ≤ 1) := by
  simp only [fitsDiff, Bool.and_eq_true, decide_eq_true_eq, and_assoc]

/-- The luma window, as inequalities (R147). -/
theorem fitsLuma_iff {dr dg db : Int} :
    fitsLuma dr dg db = true ↔
      (-32 ≤ dg ∧ dg ≤ 31) ∧ (-8 ≤ dr - dg ∧ dr - dg ≤ 7) ∧ (-8 ≤ db - dg ∧ db - dg ≤ 7) := by
  simp only [fitsLuma, Bool.and_eq_true, decide_eq_true_eq, and_assoc]

/-- One delta beyond -2 to 1 fails the small-diff test. -/
theorem fitsDiff_eq_false {dr dg db : Int} (h : ¬ ((-2 ≤ dr ∧ dr ≤ 1) ∧ (-2 ≤ dg ∧ dg ≤ 1) ∧ (-2 ≤ db ∧ db ≤ 1))) :
    fitsDiff dr dg db = false := Bool.eq_false_iff.2 (mt fitsDiff_iff.1 h)

/-- Green beyond -32 to 31 fails the luma test, and so does red or blue beyond green's ends and the offset's, -40 to 38. -/
theorem fitsLuma_eq_false {dr dg db : Int}
    (h : ¬ ((-32 ≤ dg ∧ dg ≤ 31) ∧ (-40 ≤ dr ∧ dr ≤ 38) ∧ (-40 ≤ db ∧ db ≤ 38))) : fitsLuma dr dg db = false := by
  rw [Bool.eq_false_iff, ne_eq, fitsLuma_iff]
  omega

/-- Settles O8: one fold or none brings the difference to the closed form, and ±128 is beyond every window's ends. -/
theorem normFoldsToShortestPath : Obligations.NormFoldsToShortestPath := by
  unfold Obligations.NormFoldsToShortestPath
  refine ⟨fun d h => ?folds, by decide, by decide, by decide, by decide, by decide, by decide, by decide,
    fun x y d hd => ?outside⟩
  case folds =>
    have hclosed := normDelta_eq_emod h
    exact ⟨fun habove => normDelta_of_gt habove h.2, normDelta_of_lt, normDelta_of_mem, hclosed, by omega, by omega,
      by omega⟩
  case outside =>
    exact ⟨fitsDiff_eq_false (by omega), fitsDiff_eq_false (by omega), fitsDiff_eq_false (by omega),
      fitsLuma_eq_false (by omega), fitsLuma_eq_false (by omega), fitsLuma_eq_false (by omega)⟩

/-! ### The windows on 8-bit differences -/

/-- The normalised difference of two channels is their 8-bit difference. -/
theorem ofInt_channelDelta (x y : Byte) : BitVec.ofInt 8 (channelDelta x y) = x - y := by
  have hadd : y + BitVec.ofInt 8 (channelDelta x y) = x := by
    simpa [addDelta, BitVec.ofInt_add] using addDelta_channelDelta x y
  rw [eq_sub_iff_add_eq, BitVec.add_comm, hadd]

/-- A plain difference of two normalised differences is the 8-bit one (R148). -/
theorem ofInt_channelDelta_sub (x y x' y' : Byte) :
    BitVec.ofInt 8 (channelDelta x y - channelDelta x' y') = (x - y) - (x' - y') := by
  rw [Int.sub_eq_add_neg, BitVec.ofInt_add, BitVec.ofInt_neg, ofInt_channelDelta, ofInt_channelDelta,
    ← BitVec.sub_eq_add_neg]

theorem channelDelta_bounds (x y : Byte) : -127 ≤ channelDelta x y ∧ channelDelta x y ≤ 128 := by
  rw [channelDelta_eq]
  omega

/-- What the 8-bit sum of a difference and its bias spells. -/
theorem toNat_byte_add_bias {u : Byte} {d : Int} (hu : BitVec.ofInt 8 d = u) (k : Nat) :
    ((u + BitVec.ofNat 8 k).toNat : Int) = (d + k) % 256 := by
  rw [← hu, ← BitVec.ofInt_natCast, ← BitVec.ofInt_add, BitVec.toNat_ofInt]
  omega

/-- The window from `-k` to `m - k` is one comparison of the 8-bit sum, for a difference too near to wrap into it (R148). -/
theorem window_iff_byte {u : Byte} {d : Int} (hu : BitVec.ofInt 8 d = u) (k m : Nat)
    (hnear : (m : Int) - 256 < d + k ∧ d + k < 256) :
    (-(k : Int) ≤ d ∧ d ≤ m - k) ↔ (u + BitVec.ofNat 8 k).toNat ≤ m := by
  have hsum := toNat_byte_add_bias hu k
  omega

/-- Within the window the 8-bit sum is the stored field (R148). -/
theorem field_eq_byte {u : Byte} {d : Int} (hu : BitVec.ofInt 8 d = u) (k : Nat) (h : 0 ≤ d + k ∧ d + k < 256) :
    d + k = (u + BitVec.ofNat 8 k).toNat := by
  rw [toNat_byte_add_bias hu k, Int.emod_eq_of_lt h.1 h.2]

/-- Settles O9: a channel's difference never wraps into its window, and an offset does not where green is in its own. -/
theorem windowTests : Obligations.WindowTests := by
  unfold Obligations.WindowTests
  refine ⟨fun dr dg db => ⟨fitsDiff_iff, fitsLuma_iff⟩, fun new prev => ?_⟩
  intro dr dg db ur ug ub
  have hr : BitVec.ofInt 8 dr = ur := ofInt_channelDelta _ _
  have hg : BitVec.ofInt 8 dg = ug := ofInt_channelDelta _ _
  have hb : BitVec.ofInt 8 db = ub := ofInt_channelDelta _ _
  have hrg : BitVec.ofInt 8 (dr - dg) = ur - ug := ofInt_channelDelta_sub _ _ _ _
  have hbg : BitVec.ofInt 8 (db - dg) = ub - ug := ofInt_channelDelta_sub _ _ _ _
  have hdr : -127 ≤ dr ∧ dr ≤ 128 := channelDelta_bounds _ _
  have hdg : -127 ≤ dg ∧ dg ≤ 128 := channelDelta_bounds _ _
  have hdb : -127 ≤ db ∧ db ≤ 128 := channelDelta_bounds _ _
  rw [fitsDiff_iff, fitsLuma_iff]
  refine ⟨?small, ?luma, fun h => ?smallFields, fun h => ?lumaFields⟩
  case small =>
    exact and_congr (window_iff_byte hr 2 3 (by omega))
      (and_congr (window_iff_byte hg 2 3 (by omega)) (window_iff_byte hb 2 3 (by omega)))
  case luma =>
    have hgreen := window_iff_byte hg 32 63 (by omega)
    refine (and_congr_right fun hin => ?_).trans (and_congr_left' hgreen)
    exact and_congr (window_iff_byte hrg 8 15 (by omega)) (window_iff_byte hbg 8 15 (by omega))
  case smallFields =>
    exact ⟨field_eq_byte hr 2 (by omega), field_eq_byte hg 2 (by omega), field_eq_byte hb 2 (by omega)⟩
  case lumaFields =>
    exact ⟨field_eq_byte hg 32 (by omega), field_eq_byte hrg 8 (by omega), field_eq_byte hbg 8 (by omega)⟩

/-! ### Reconstruction -/

/-- A moved channel as a number (R8, R153). -/
theorem toNat_addDelta (c : Byte) (d : Int) : ((addDelta c d).toNat : Int) = (c.toNat + d) % 256 := by
  rw [addDelta, BitVec.toNat_ofInt]
  omega

/-- The three fields of a DIFF payload as numbers (R149). -/
theorem toNat_payloadFields (payload : BitVec 6) :
    (payload.extractLsb' 4 2).toNat = payload.toNat / 16 ∧ (payload.extractLsb' 2 2).toNat = payload.toNat / 4 % 4 ∧
      (payload.extractLsb' 0 2).toNat = payload.toNat % 4 := by
  simp only [extractLsb'_eq_ofNat, BitVec.toNat_ofNat]
  omega

/-- The two nibbles of LUMA's second byte as numbers (R150). -/
theorem toNat_nibbles (b1 : Byte) :
    (b1.extractLsb' 4 4).toNat = b1.toNat / 16 ∧ (b1.extractLsb' 0 4).toNat = b1.toNat % 16 := by
  simp only [extractLsb'_eq_ofNat, BitVec.toNat_ofNat]
  omega

/-- Settles O10: each channel is moved by the delta of its field, and the fields are the payload's digits. -/
theorem reconstructionPerChannel : Obligations.ReconstructionPerChannel := by
  unfold Obligations.ReconstructionPerChannel
  constructor
  · intro prev payload
    obtain ⟨hr, hg, hb⟩ := toNat_payloadFields payload
    rw [← hr, ← hg, ← hb]
    exact ⟨toNat_addDelta _ _, toNat_addDelta _ _, toNat_addDelta _ _, rfl⟩
  · intro prev field b1
    obtain ⟨hr, hb⟩ := toNat_nibbles b1
    rw [← hr, ← hb]
    simp only [add_assoc]
    exact ⟨toNat_addDelta _ _, toNat_addDelta _ _, toNat_addDelta _ _, rfl⟩

/-- Settles O11: the packed fields are those whose deltas fit, and moving each old channel by its delta gives the new one. -/
theorem packThenReconstruct : Obligations.PackThenReconstruct := by
  unfold Obligations.PackThenReconstruct
  intro new prev halpha dr dg db
  have hr : addDelta prev.r dr = new.r := addDelta_channelDelta _ _
  have hg : addDelta prev.g dg = new.g := addDelta_channelDelta _ _
  have hb : addDelta prev.b db = new.b := addDelta_channelDelta _ _
  constructor
  · intro hfits
    obtain ⟨fr, fg, fb, hdr, hdg, hdb⟩ := fitsDiff_fields hfits
    obtain ⟨hclass, hfr, hfg, hfb⟩ := append_fields 0b01#2 fr fg fb
    have happly : applySmallDiff prev fr fg fb = new := by
      rw [applySmallDiff, ← hdr, ← hdg, ← hdb, hr, hg, hb, ← halpha]
    rw [hdr, hdg, hdb, packDiff_eq]
    exact ⟨hclass, by rw [hfr, hfg, hfb, happly]⟩
  · intro hfits
    obtain ⟨fdg, fdr, fdb, hdg, hdr, hdb⟩ := fitsLuma_fields hfits
    have happly : applyLumaDiff prev fdg fdr fdb = new := by
      rw [applyLumaDiff, ← hdr, ← hdb, ← hdg, hr, hg, hb, ← halpha]
    rw [hdr, hdg, hdb, packLumaFirst_eq, packLumaSecond_eq]
    refine ⟨BitVec.extractLsb'_append_eq_left, ?_⟩
    simp only [BitVec.extractLsb'_append_eq_left, BitVec.extractLsb'_append_eq_right, happly]

end Sys2Proof.Machine

/-! A decode pass (R190 to R202): the header step, end of input within a pass, and each group's instruction and its step. -/

namespace Sys2Proof.Machine

/-! ### Turns that give no output -/

/-- A core's turn that gives no output and counts `k` bytes is never held, and no fault where the count does not wrap. -/
theorem stepWith_of_quiet {p : Params} {s t : State} (k : Nat) (hturn : s.coreTurn = true)
    (hcount : s.byteCount.toNat + k < 2 ^ 64) (haction : coreAction p s.afterTurn = .next t) (hout : t.out = s.out)
    (hroom : t.outRoom = s.outRoom) (hbytes : t.byteCount = s.byteCount + BitVec.ofNat 64 k) :
    stepWith p s = .next t := by
  rw [stepWith_core p s hturn, coreStep_of_next haction]
  refine gate_quiet _ _ hout hroom ?_
  rw [hbytes, count_add _ _ hcount]
  exact Nat.le_add_right _ _

/-- A turn of a decode pass that takes `k` bytes and raises (R274). -/
theorem stepWith_raises {p : Params} {s : State} {cause : ErrCause} {pos : Count} (k : Nat) (hturn : s.coreTurn = true)
    (hmode : s.mode = .decode) (hcount : s.byteCount.toNat + k < 2 ^ 64)
    (haction : coreAction p s.afterTurn = .next ((s.afterTurn.takeInput k).raise cause pos)) :
    ∃ t, stepWith p s = .next t ∧ Raises s t cause pos ∧ t.byteCount = s.byteCount + BitVec.ofNat 64 k ∧
      t.inQueue = s.inQueue.drop k := by
  have hbytes : (s.afterTurn.takeInput k).byteCount = s.byteCount + BitVec.ofNat 64 k :=
    State.takeInput_byteCount_decode _ _ hmode
  exact ⟨_, stepWith_of_quiet k hturn hcount haction rfl rfl hbytes,
    raises_of s _ cause pos rfl rfl rfl rfl rfl rfl rfl rfl ⟨rfl, rfl, rfl, rfl, rfl, rfl⟩ ⟨rfl, rfl, rfl⟩,
    hbytes, rfl⟩

/-! ### The header step -/

section
variable {p : Params} {s : State}

theorem coreAction_header_decode (hphase : s.phase = .header) (hmode : s.mode = .decode) :
    coreAction p s = .next (decodeHeader p s) := by
  simp only [coreAction, hphase, hmode]

theorem decodeHeader_of_ok {h : Header} (hlen : 14 ≤ s.inQueue.length)
    (hparse : parseHeader p (s.inQueue.take 14) = .ok h) :
    decodeHeader p s = (s.takeInput 14).commitHeader h := by
  simp only [decodeHeader, headerBytes, if_pos hlen, hparse]

theorem decodeHeader_of_error {cause : ErrCause} (hlen : 14 ≤ s.inQueue.length)
    (hparse : parseHeader p (s.inQueue.take 14) = .error cause) :
    decodeHeader p s = (s.takeInput 14).raise cause 0 := by
  simp only [decodeHeader, headerBytes, if_pos hlen, hparse]

theorem decodeHeader_of_short (hlen : s.inQueue.length < 14) (hend : s.inEnd = true) :
    decodeHeader p s = (s.takeInput s.inQueue.length).raise .headerShort 0 := by
  simp only [decodeHeader, headerBytes, if_neg hlen.not_ge, if_pos hend]

end

/-- Settles O15: none of the header step's three answers gives output, and each counts what it takes. -/
theorem decodeHeaderStep : Obligations.DecodeHeaderStep := by
  unfold Obligations.DecodeHeaderStep
  intro p s hturn hphase hmode hcount
  have haction : coreAction p s.afterTurn = .next (decodeHeader p s.afterTurn) := coreAction_header_decode hphase hmode
  refine ⟨fun h hlen hparse => ?parsed, fun cause hlen hparse => ?failed, fun hlen hend => ?short⟩
  case parsed =>
    rw [decodeHeader_of_ok (s := s.afterTurn) hlen hparse] at haction
    have hbytes : (s.afterTurn.takeInput 14).byteCount = s.byteCount + 14 := State.takeInput_byteCount_decode _ _ hmode
    exact ⟨_, stepWith_of_quiet 14 hturn hcount haction rfl rfl hbytes, rfl, rfl, rfl, rfl, rfl, rfl, hbytes, rfl, rfl,
      rfl, rfl, rfl, rfl, rfl, rfl, rfl, rfl, ⟨rfl, rfl, rfl⟩, ⟨rfl, rfl, rfl⟩⟩
  case failed =>
    rw [decodeHeader_of_error (s := s.afterTurn) hlen hparse] at haction
    exact stepWith_raises 14 hturn hmode hcount haction
  case short =>
    rw [decodeHeader_of_short (s := s.afterTurn) hlen hend] at haction
    have hcount' : s.byteCount.toNat + s.inQueue.length < 2 ^ 64 := by omega
    obtain ⟨t, hstep, hraises, hbytes, hqueue⟩ := stepWith_raises _ hturn hmode hcount' haction
    exact ⟨t, hstep, hraises, hbytes, hqueue.trans List.drop_length⟩

/-! ### End of input within a pass -/

section
variable {s : State}

theorem coreAction_body_decode {p : Params} (hphase : s.phase = .body) (hmode : s.mode = .decode) :
    coreAction p s = decodeStep s := by
  simp only [coreAction, hphase, hmode]

/-- Without a first byte nothing is taken (R201). -/
theorem decodeStep_of_noByte (hwanted : s.pixCount.toNat < s.n) (hend : s.inEnd = true) (hqueue : s.inQueue = []) :
    decodeStep s = .next ((s.takeInput 0).raise .opcodeShort s.byteCount) := by
  rw [State.takeInput_zero]
  simp only [decodeStep, if_pos hwanted, hqueue, decodeAt, decodeGroup, if_pos hend]

/-- The bytes that are there of a group cut short are taken (R202). -/
theorem decodeStep_of_short {b0 : Byte} {ops : List Byte} (hwanted : s.pixCount.toNat < s.n) (hend : s.inEnd = true)
    (hqueue : s.inQueue = b0 :: ops) (hshort : s.inQueue.length < groupLength b0) :
    decodeStep s = .next ((s.takeInput s.inQueue.length).raise .operandShort s.byteCount) := by
  have hdecode : decodeAt .groups s.inQueue = .error .operandShort := by
    rw [hqueue] at hshort ⊢
    exact decodeGroup_short b0 ops hshort
  simp only [decodeStep, if_pos hwanted, hdecode, if_pos hend]

end

/-- Settles O24: either error entry takes what is there and gives nothing. -/
theorem truncatedGroupRaises : Obligations.TruncatedGroupRaises := by
  unfold Obligations.TruncatedGroupRaises
  intro s hturn hphase hmode hwanted hend
  have haction : coreAction Config.params s.afterTurn = decodeStep s.afterTurn := coreAction_body_decode hphase hmode
  refine ⟨fun hqueue => ?noByte, fun b0 ops hqueue hshort hcount => ?short⟩
  case noByte =>
    rw [decodeStep_of_noByte (s := s.afterTurn) hwanted hend hqueue] at haction
    obtain ⟨t, hstep, hraises, hbytes, htaken⟩ := stepWith_raises 0 hturn hmode s.byteCount.isLt haction
    exact ⟨t, hstep, hraises, by simpa using hbytes, htaken.trans hqueue⟩
  case short =>
    rw [decodeStep_of_short (s := s.afterTurn) hwanted hend hqueue hshort] at haction
    obtain ⟨t, hstep, hraises, hbytes, htaken⟩ := stepWith_raises _ hturn hmode hcount haction
    exact ⟨t, hstep, hraises, hbytes, htaken.trans List.drop_length⟩

/-- A ready group that is shorter than its first byte says raises OPERAND_SHORT at its own offset (R202). -/
theorem step_groupShort {s : State} {b0 : Byte} {ops : List Byte} (ready : GroupReady s (b0 :: ops) [])
    (hshort : (b0 :: ops).length < groupLength b0) (hend : s.inEnd = true) :
    ∃ t, step s = .next t ∧ Raises s t .operandShort s.byteCount := by
  have hqueue : s.inQueue = b0 :: ops := by simpa using ready.queue
  obtain ⟨-, hcut⟩ := truncatedGroupRaises s ready.turn ready.phase ready.mode ready.wanted hend
  obtain ⟨t, hstep, hraises, -, -⟩ := hcut b0 ops hqueue (hqueue ▸ hshort) (hqueue ▸ ready.count)
  exact ⟨t, hstep, hraises⟩

/-! ### The pixels an instruction gives -/

/-- `s` after `k` copies of `new` are given and counted, with `PREV` the pixel and the cache `c`: what every group's
instruction of a decode pass comes to. -/
def State.givePixels (s : State) (c : Vector Pixel 64) (new : Pixel) (k : Nat) : State :=
  { s with
    prev := new
    cache := c
    out := s.out ++ runBytes s.channels new k
    pixCount := s.pixCount + BitVec.ofNat 64 k }

section
variable (s : State) (c : Vector Pixel 64) (new : Pixel)

theorem State.givePixels_rest (k : Nat) : SameRest s (s.givePixels c new k) :=
  ⟨rfl, rfl, rfl, rfl, ⟨rfl, rfl, rfl, rfl, rfl, rfl⟩, ⟨rfl, rfl, rfl⟩, ⟨rfl, rfl, rfl⟩⟩

theorem runBytes_one (channels : Byte) : runBytes channels new 1 = pixelBytes channels new := by
  rw [runBytes_succ, runBytes_zero, List.append_nil]

theorem State.givePixels_one_produced : PixelProduced s (s.givePixels c new 1) new :=
  ⟨rfl, congrArg (s.out ++ ·) (runBytes_one new s.channels), rfl⟩

/-- The tail of a decoder rule (R194 to R198). -/
theorem State.producePixel_eq_givePixels (hmode : s.mode = .decode) :
    s.producePixel new = s.givePixels s.cache new 1 := by
  rw [State.givePixels, runBytes_one]
  simp only [State.producePixel, State.outPixel, State.outBytes, hmode]
  rfl

end

/-- The whole step of a ready group whose instruction gives at most 62 pixels, all of them wanted. -/
theorem step_givePixels {s : State} {bytes rest : List Byte} {i : Instr} {c : Vector Pixel 64} {new : Pixel} {k : Nat}
    (ready : GroupReady s bytes rest) (hdecode : decodeGroup (bytes ++ rest) = .ok (i, rest))
    (hlen : lengthBytes i = bytes.length) (hk : k ≤ 62) (hwanted : s.pixCount.toNat + k ≤ s.n)
    (hexec : exec i (s.afterTurn.takeInput (lengthBytes i)) =
      .next ((s.afterTurn.takeInput (lengthBytes i)).givePixels c new k)) :
    ∃ t, step s = .next t ∧ GroupTaken s t bytes.length k rest ∧ t.prev = new ∧ t.cache = c ∧
      t.out = s.out ++ runBytes s.channels new k ∧ t.pixCount = s.pixCount + BitVec.ofNat 64 k := by
  have hdecode' : decodeAt .groups s.inQueue = .ok (i, rest) := ready.queue ▸ hdecode
  have hout : (s.out ++ runBytes s.channels new k).length = s.out.length + k * s.pixelWidth :=
    List.length_append.trans (congrArg _ (runBytes_length s.channels new k))
  exact group_step k ready hdecode' hlen hexec hout hk rfl (hwanted.trans_lt ready.fits) rfl rfl rfl
    (State.givePixels_rest _ c new k)

/-- The whole step of a ready group whose instruction gives one pixel. -/
theorem step_givePixel {s : State} {bytes rest : List Byte} {i : Instr} {c : Vector Pixel 64} {new : Pixel}
    (ready : GroupReady s bytes rest) (hdecode : decodeGroup (bytes ++ rest) = .ok (i, rest))
    (hlen : lengthBytes i = bytes.length)
    (hexec : exec i (s.afterTurn.takeInput (lengthBytes i)) =
      .next ((s.afterTurn.takeInput (lengthBytes i)).givePixels c new 1)) :
    ∃ t, step s = .next t ∧ PixelProduced s t new ∧ t.cache = c ∧ GroupTaken s t bytes.length 1 rest := by
  obtain ⟨t, hstep, taken, hprev, hcache, hout, hpix⟩ :=
    step_givePixels ready hdecode hlen (by decide) ready.wanted hexec
  rw [runBytes_one] at hout
  exact ⟨t, hstep, ⟨hprev, hout, hpix⟩, hcache, taken⟩

/-! ### The groups that write the cache: RGB, RGBA, DIFF and LUMA -/

/-- The four decoder rules are one: `UpdateCache(new)`, `OutPixel(new)`, `PREV <- new` (R194, R195, R197, R198). -/
theorem exec_of_cachedPixel {i : Instr} {s : State} {new : Pixel} (hmode : s.mode = .decode)
    (hnew : cachedPixel i s.prev = some new) :
    exec i s = .next (s.givePixels (s.updateCache new).cache new 1) := by
  have hgive : (s.updateCache new).producePixel new = s.givePixels (s.updateCache new).cache new 1 :=
    State.producePixel_eq_givePixels (s.updateCache new) new hmode
  rw [← hgive]
  cases i with
  | index k => nomatch hnew
  | run len => nomatch hnew
  | endMarker => nomatch hnew
  | diff fr fg fb => obtain rfl := Option.some.inj hnew; simp only [exec, execDiff, hmode, doDiff]
  | luma fdg fdr fdb => obtain rfl := Option.some.inj hnew; simp only [exec, execLuma, hmode, doLuma]
  | rgb r g b => obtain rfl := Option.some.inj hnew; simp only [exec, execRgb, hmode, doRgb]
  | rgba r g b a => obtain rfl := Option.some.inj hnew; simp only [exec, execRgba, hmode, doRgba]

theorem exec_writesSlot {i : Instr} {s : State} {new : Pixel} (hmode : s.mode = .decode)
    (hnew : cachedPixel i s.prev = some new) :
    ∃ t, exec i s = .next t ∧ PixelProduced s t new ∧ SlotWritten s t new ∧ t.byteCount = s.byteCount ∧ t.run = s.run ∧
      t.phase = s.phase ∧ SameRest s t :=
  ⟨_, exec_of_cachedPixel hmode hnew, State.givePixels_one_produced s _ new, State.updateCache_slotWritten s _ new rfl,
    rfl, rfl, rfl, State.givePixels_rest s _ new 1⟩

theorem step_writesSlot {s : State} {bytes rest : List Byte} {i : Instr} {new : Pixel} (ready : GroupReady s bytes rest)
    (hdecode : decodeGroup (bytes ++ rest) = .ok (i, rest)) (hlen : lengthBytes i = bytes.length)
    (hnew : cachedPixel i s.prev = some new) :
    ∃ t, step s = .next t ∧ PixelProduced s t new ∧ SlotWritten s t new ∧ GroupTaken s t bytes.length 1 rest := by
  have hexec := exec_of_cachedPixel (s := s.afterTurn.takeInput (lengthBytes i)) ready.mode hnew
  obtain ⟨t, hstep, produced, hcache, taken⟩ := step_givePixel ready hdecode hlen hexec
  exact ⟨t, hstep, produced, State.updateCache_slotWritten s t new hcache, taken⟩

/-- Settles O17: RGB is the rule of the groups that write the cache, with the alpha of `PREV`. -/
theorem rgbDecodes : Obligations.RgbDecodes := by
  unfold Obligations.RgbDecodes
  refine ⟨fun r g b s hmode => exec_writesSlot hmode rfl, fun r g b rest s ready => step_writesSlot ready rfl rfl rfl,
    fun ops s ready hshort hend => step_groupShort ready ?_ hend⟩
  exact Nat.succ_lt_succ hshort

/-- Settles O18: RGBA is the rule of the groups that write the cache, with the operands as they are. -/
theorem rgbaDecodes : Obligations.RgbaDecodes := by
  unfold Obligations.RgbaDecodes
  refine ⟨fun r g b a s hmode => exec_writesSlot hmode rfl, fun r g b a rest s ready => step_writesSlot ready rfl rfl rfl,
    fun ops s ready hshort hend => step_groupShort ready ?_ hend⟩
  exact Nat.succ_lt_succ hshort

/-- A field keeps of a number its low bits alone. -/
theorem ofNat_mod {w m : Nat} (hm : 2 ^ w = m) (x : Nat) : BitVec.ofNat w (x % m) = BitVec.ofNat w x := by
  apply BitVec.eq_of_toNat_eq
  rw [← hm, BitVec.toNat_ofNat, BitVec.toNat_ofNat, Nat.mod_mod]

/-- Settles O20: a first byte of 0x40 to 0x7F is DIFF, one of the groups that write the cache. -/
theorem diffDecodes : Obligations.DiffDecodes := by
  unfold Obligations.DiffDecodes
  refine ⟨fun fr fg fb s hmode => exec_writesSlot hmode rfl, fun b0 rest s hlow hhigh ready => ?_⟩
  obtain ⟨-, hdiff, -⟩ := firstByteMap b0
  obtain ⟨-, hdecode⟩ := hdiff ⟨hlow, hhigh⟩
  intro new
  refine step_writesSlot ready (hdecode rest) rfl ?_
  simp only [ofNat_mod (w := 2) (m := 4) rfl]
  rfl

/-- Settles O21: a first byte of 0x80 to 0xBF is LUMA, one of the groups that write the cache, and asks for a second byte. -/
theorem lumaDecodes : Obligations.LumaDecodes := by
  unfold Obligations.LumaDecodes
  refine ⟨fun fdg fdr fdb s hmode => exec_writesSlot hmode rfl, fun b0 b1 rest s hlow hhigh ready => ?step,
    fun b0 s hlow hhigh ready hend => ?short⟩
  case step =>
    obtain ⟨-, -, hluma, -⟩ := firstByteMap b0
    obtain ⟨-, hdecode⟩ := hluma ⟨hlow, hhigh⟩
    intro new
    refine step_writesSlot ready (hdecode b1 rest) rfl ?_
    rw [ofNat_mod (w := 6) (m := 64) rfl, ofNat_mod (w := 4) (m := 16) rfl]
    rfl
  case short =>
    obtain ⟨-, -, hluma, -⟩ := firstByteMap b0
    obtain ⟨hlength, -⟩ := hluma ⟨hlow, hhigh⟩
    exact step_groupShort ready (hlength ▸ Nat.one_lt_two) hend

/-! ### The groups that leave the cache: INDEX and RUN -/

/-- INDEX in a decode pass (R196). -/
theorem exec_index_decode {s : State} (k : BitVec 6) (hmode : s.mode = .decode) :
    exec (.index k) s = .next (s.givePixels s.cache (s.readCache k) 1) := by
  rw [← State.producePixel_eq_givePixels s _ hmode]
  simp only [exec, execIndex, hmode, doIndex]

/-- Settles O19: a first byte up to 0x3F is INDEX, whose pixel is the slot's, and the cache it leaves is the one it read. -/
theorem indexDecodes : Obligations.IndexDecodes := by
  unfold Obligations.IndexDecodes
  refine ⟨fun k s hmode => ?exec, fun b0 rest s hhigh ready => ?step⟩
  case exec =>
    exact ⟨_, exec_index_decode k hmode, State.givePixels_one_produced s _ _, rfl, rfl, rfl, rfl,
      State.givePixels_rest s _ _ 1⟩
  case step =>
    obtain ⟨hindex, -⟩ := firstByteMap b0
    obtain ⟨-, hdecode⟩ := hindex hhigh
    rw [← ofNat_mod (w := 6) (m := 64) rfl]
    exact step_givePixel ready (hdecode rest) rfl (exec_index_decode _ ready.mode)

/-- RUN in a decode pass: `PREV` for the run's length, or as often as it is still wanted (R199). -/
theorem exec_run_decode {s : State} (len : BitVec 6) (hmode : s.mode = .decode) :
    exec (.run len) s = .next (s.givePixels s.cache s.prev (min (len.toNat + 1) (s.n - s.pixCount.toNat))) := by
  simp only [exec, execRun, hmode, doRun, State.outPixels_eq s _ _ hmode, runLength, State.givePixels]

/-- Settles O22: a first byte of 0xC0 to 0xFD is RUN, of at most 62 pixels, so the step has room for what it gives. -/
theorem runDecodes : Obligations.RunDecodes := by
  unfold Obligations.RunDecodes
  refine ⟨fun len s hmode => ?exec, fun b0 rest s hlow hhigh ready => ?step⟩
  case exec =>
    exact ⟨_, exec_run_decode len hmode, rfl, rfl, rfl, rfl, rfl, rfl, rfl, State.givePixels_rest s _ _ _⟩
  case step =>
    obtain ⟨-, -, -, hrun, -⟩ := firstByteMap b0
    obtain ⟨-, hcap, hdecode⟩ := hrun ⟨hlow, hhigh⟩
    intro k
    have hexec := exec_run_decode (s := s.afterTurn.takeInput 1) (BitVec.ofNat 6 (b0.toNat % 64)) ready.mode
    have hfield : (BitVec.ofNat 6 (b0.toNat % 64)).toNat = b0.toNat % 64 :=
      (BitVec.toNat_ofNat _ _).trans (Nat.mod_mod _ _)
    rw [hfield] at hexec
    have hk : k ≤ 62 := (Nat.min_le_left _ _).trans (Nat.succ_le_succ hcap)
    have hwanted : s.pixCount.toNat + k ≤ s.n := by have := ready.wanted; omega
    obtain ⟨t, hstep, taken, hprev, hcache, hout, hpix⟩ := step_givePixels ready (hdecode rest) rfl hk hwanted hexec
    exact ⟨t, hstep, hout, hpix, hprev, hcache, taken⟩

end Sys2Proof.Machine

/-! The encoder's pixel step (R234 to R246): the group the decision chain gives, and the step from the chain's branch. -/

namespace Sys2Proof.Machine

/-! ### The group of a changed pixel -/

/-- The class bits of INDEX are zeros before the slot (R93, R239). -/
theorem encode_index (k : BitVec 6) : encode (.index k) = [k.zeroExtend 8] := by revert k; decide

section
variable {dr dg db : Int}

/-- Within the small window the packed byte is the encoding of the stored fields (R151). -/
theorem encode_diff_of_fits (h : fitsDiff dr dg db = true) :
    encode (.diff (BitVec.ofInt 2 (dr + 2)) (BitVec.ofInt 2 (dg + 2)) (BitVec.ofInt 2 (db + 2))) =
      [packDiff dr dg db] := by
  obtain ⟨hr, hg, hb⟩ := fitsDiff_iff.1 h
  have hpack := packDiff_eq (BitVec.ofInt 2 (dr + 2)) (BitVec.ofInt 2 (dg + 2)) (BitVec.ofInt 2 (db + 2))
  rw [diffDelta_ofInt dr hr.1 hr.2, diffDelta_ofInt dg hg.1 hg.2, diffDelta_ofInt db hb.1 hb.2] at hpack
  rw [hpack]
  rfl

/-- The DIFF byte of deltas in the small window, as a number (R151). -/
theorem encode_diff_deltas (h : fitsDiff dr dg db = true) :
    encode (.diff (BitVec.ofInt 2 (dr + 2)) (BitVec.ofInt 2 (dg + 2)) (BitVec.ofInt 2 (db + 2))) =
      [BitVec.ofInt 8 (0x40 + (dr + 2) * 16 + (dg + 2) * 4 + (db + 2))] := by
  obtain ⟨hr, hg, hb⟩ := fitsDiff_iff.1 h
  exact encode_diff_ofInt (by omega) (by omega) (by omega)

/-- Within the luma window the packed bytes are the encoding of the stored fields (R152). -/
theorem encode_luma_of_fits (h : fitsLuma dr dg db = true) :
    encode (.luma (BitVec.ofInt 6 (dg + 32)) (BitVec.ofInt 4 (dr - dg + 8)) (BitVec.ofInt 4 (db - dg + 8))) =
      [packLumaFirst dg, packLumaSecond dr dg db] := by
  obtain ⟨hg, hr, hb⟩ := fitsLuma_iff.1 h
  have hfirst := packLumaFirst_eq (BitVec.ofInt 6 (dg + 32))
  have hsecond := packLumaSecond_eq dg (BitVec.ofInt 4 (dr - dg + 8)) (BitVec.ofInt 4 (db - dg + 8))
  rw [lumaGreen_ofInt dg hg.1 hg.2] at hfirst
  rw [lumaOffset_ofInt _ hr.1 hr.2, lumaOffset_ofInt _ hb.1 hb.2, add_sub_cancel, add_sub_cancel] at hsecond
  rw [hfirst, hsecond]
  rfl

/-- The LUMA bytes of deltas in the luma window, as numbers (R152). -/
theorem encode_luma_deltas (h : fitsLuma dr dg db = true) :
    encode (.luma (BitVec.ofInt 6 (dg + 32)) (BitVec.ofInt 4 (dr - dg + 8)) (BitVec.ofInt 4 (db - dg + 8))) =
      [BitVec.ofInt 8 (0x80 + (dg + 32)), BitVec.ofInt 8 ((dr - dg + 8) * 16 + (db - dg + 8))] := by
  obtain ⟨hg, hr, hb⟩ := fitsLuma_iff.1 h
  exact encode_luma_ofInt (by omega) (by omega) (by omega)

end

section
variable {s : State} {new : Pixel}

/-- The stored fields of a small difference rebuild the pixel (R154). -/
theorem applySmallDiff_fields (halpha : new.a = s.prev.a)
    (h : fitsDiff (channelDelta new.r s.prev.r) (channelDelta new.g s.prev.g) (channelDelta new.b s.prev.b) = true) :
    applySmallDiff s.prev (BitVec.ofInt 2 (channelDelta new.r s.prev.r + 2))
      (BitVec.ofInt 2 (channelDelta new.g s.prev.g + 2)) (BitVec.ofInt 2 (channelDelta new.b s.prev.b + 2)) = new := by
  obtain ⟨hr, hg, hb⟩ := fitsDiff_iff.1 h
  rw [applySmallDiff, diffDelta_ofInt _ hr.1 hr.2, diffDelta_ofInt _ hg.1 hg.2, diffDelta_ofInt _ hb.1 hb.2,
    addDelta_channelDelta, addDelta_channelDelta, addDelta_channelDelta, ← halpha]

/-- The stored fields of a luma difference rebuild the pixel (R154). -/
theorem applyLumaDiff_fields (halpha : new.a = s.prev.a)
    (h : fitsLuma (channelDelta new.r s.prev.r) (channelDelta new.g s.prev.g) (channelDelta new.b s.prev.b) = true) :
    applyLumaDiff s.prev (BitVec.ofInt 6 (channelDelta new.g s.prev.g + 32))
      (BitVec.ofInt 4 (channelDelta new.r s.prev.r - channelDelta new.g s.prev.g + 8))
      (BitVec.ofInt 4 (channelDelta new.b s.prev.b - channelDelta new.g s.prev.g + 8)) = new := by
  obtain ⟨hg, hr, hb⟩ := fitsLuma_iff.1 h
  rw [applyLumaDiff, lumaGreen_ofInt _ hg.1 hg.2, lumaOffset_ofInt _ hr.1 hr.2, lumaOffset_ofInt _ hb.1 hb.2,
    add_sub_cancel, add_sub_cancel, addDelta_channelDelta, addDelta_channelDelta, addDelta_channelDelta, ← halpha]

/-! The chosen group, branch by branch (R239 to R245). -/

theorem State.chosenGroup_hit (hhit : s.readCache (pixelHash new) = new) :
    s.chosenGroup new = .index (pixelHash new) := if_pos hhit

section
variable (hmiss : s.readCache (pixelHash new) ≠ new)
include hmiss

theorem State.chosenGroup_alpha (halpha : new.a ≠ s.prev.a) :
    s.chosenGroup new = .rgba new.r new.g new.b new.a := by
  simp only [State.chosenGroup, if_neg hmiss, if_pos halpha]

variable (halpha : new.a = s.prev.a)
include halpha

theorem State.chosenGroup_small
    (hsmall : fitsDiff (channelDelta new.r s.prev.r) (channelDelta new.g s.prev.g) (channelDelta new.b s.prev.b) = true) :
    s.chosenGroup new = .diff (BitVec.ofInt 2 (channelDelta new.r s.prev.r + 2))
      (BitVec.ofInt 2 (channelDelta new.g s.prev.g + 2)) (BitVec.ofInt 2 (channelDelta new.b s.prev.b + 2)) := by
  simp only [State.chosenGroup, if_neg hmiss, if_neg (not_not.2 halpha)]
  exact if_pos hsmall

variable
  (hsmall : fitsDiff (channelDelta new.r s.prev.r) (channelDelta new.g s.prev.g) (channelDelta new.b s.prev.b) = false)
include hsmall

theorem State.chosenGroup_luma
    (hluma : fitsLuma (channelDelta new.r s.prev.r) (channelDelta new.g s.prev.g) (channelDelta new.b s.prev.b) = true) :
    s.chosenGroup new = .luma (BitVec.ofInt 6 (channelDelta new.g s.prev.g + 32))
      (BitVec.ofInt 4 (channelDelta new.r s.prev.r - channelDelta new.g s.prev.g + 8))
      (BitVec.ofInt 4 (channelDelta new.b s.prev.b - channelDelta new.g s.prev.g + 8)) := by
  simp only [State.chosenGroup, if_neg hmiss, if_neg (not_not.2 halpha)]
  exact (if_neg (Bool.eq_false_iff.1 hsmall)).trans (if_pos hluma)

theorem State.chosenGroup_rgb
    (hluma : fitsLuma (channelDelta new.r s.prev.r) (channelDelta new.g s.prev.g) (channelDelta new.b s.prev.b) = false) :
    s.chosenGroup new = .rgb new.r new.g new.b := by
  simp only [State.chosenGroup, if_neg hmiss, if_neg (not_not.2 halpha)]
  exact (if_neg (Bool.eq_false_iff.1 hsmall)).trans (if_neg (Bool.eq_false_iff.1 hluma))

end

/-- A hit gives the slot's INDEX and leaves the cache (R239). -/
theorem encodeChanged_hit (hhit : s.readCache (pixelHash new) = new) :
    encodeChanged new s = s.outBytes (encode (s.chosenGroup new)) := by
  rw [s.chosenGroup_hit hhit, encode_index]
  exact if_pos ((s.lookup_hit new).2 hhit)

/-- A miss gives the chosen group and writes the slot of the pixel, which is the one that the group stands for: by its
operands, or by R154 (R240 to R245). -/
theorem encodeChanged_miss (hmiss : s.readCache (pixelHash new) ≠ new) :
    encodeChanged new s = (s.outBytes (encode (s.chosenGroup new))).updateCache new ∧
      cachedPixel (s.chosenGroup new) s.prev = some new := by
  simp only [encodeChanged, if_neg (mt (s.lookup_hit new).1 hmiss)]
  by_cases halpha : new.a = s.prev.a
  case neg =>
    rw [State.chosenGroup_alpha hmiss halpha, if_pos ((alphaDiffers_iff _ _).2 halpha)]
    exact ⟨rfl, rfl⟩
  rw [if_neg (mt (alphaDiffers_iff _ _).1 (not_not.2 halpha))]
  cases hsmall : fitsDiff (channelDelta new.r s.prev.r) (channelDelta new.g s.prev.g) (channelDelta new.b s.prev.b) with
  | true =>
    rw [State.chosenGroup_small hmiss halpha hsmall, encode_diff_of_fits hsmall]
    exact ⟨rfl, congrArg some (applySmallDiff_fields halpha hsmall)⟩
  | false =>
    cases hluma : fitsLuma (channelDelta new.r s.prev.r) (channelDelta new.g s.prev.g) (channelDelta new.b s.prev.b) with
    | true =>
      rw [State.chosenGroup_luma hmiss halpha hsmall hluma, encode_luma_of_fits hluma]
      exact ⟨rfl, congrArg some (applyLumaDiff_fields halpha hluma)⟩
    | false =>
      rw [State.chosenGroup_rgb hmiss halpha hsmall hluma]
      exact ⟨rfl, by rw [cachedPixel, ← halpha]⟩

end

/-- The cache after a pixel that differs from `PREV`: unchanged on a hit, else with the pixel in its slot (R172). -/
def State.cacheAfter (s : State) (new : Pixel) : Vector Pixel 64 :=
  if s.readCache (pixelHash new) = new then s.cache else (s.updateCache new).cache

section
variable {s : State} {new : Pixel}

theorem State.cacheAfter_hit (hhit : s.readCache (pixelHash new) = new) : s.cacheAfter new = s.cache := if_pos hhit

theorem State.cacheAfter_miss (hmiss : s.readCache (pixelHash new) ≠ new) :
    s.cacheAfter new = (s.updateCache new).cache := if_neg hmiss

/-- Steps 3 to 7 of the chain give the chosen group (R239 to R245). -/
theorem encodeChanged_emits (hmode : s.mode = .encode) :
    Emits s (encodeChanged new s) (encode (s.chosenGroup new)) ∧ (encodeChanged new s).run = s.run ∧
      (encodeChanged new s).cache = s.cacheAfter new := by
  by_cases hhit : s.readCache (pixelHash new) = new
  · rw [encodeChanged_hit hhit, State.cacheAfter_hit hhit]
    exact ⟨Emits.outBytes s _ s.run s.cache hmode, rfl, rfl⟩
  · rw [(encodeChanged_miss hhit).1, State.cacheAfter_miss hhit]
    exact ⟨Emits.outBytes s _ s.run (s.updateCache new).cache hmode, rfl, rfl⟩

/-- No group of a pixel is an ill-formed RUN or the end marker. -/
theorem State.chosenGroup_wf (s : State) (new : Pixel) :
    (s.chosenGroup new).wf = true ∧ s.chosenGroup new ≠ .endMarker := by
  by_cases hhit : s.readCache (pixelHash new) = new
  · rw [s.chosenGroup_hit hhit]
    exact ⟨rfl, nofun⟩
  · have hcached := (encodeChanged_miss hhit).2
    cases hgroup : s.chosenGroup new with
    | index _ => exact ⟨rfl, nofun⟩
    | diff _ _ _ => exact ⟨rfl, nofun⟩
    | luma _ _ _ => exact ⟨rfl, nofun⟩
    | rgb _ _ _ => exact ⟨rfl, nofun⟩
    | rgba _ _ _ _ => exact ⟨rfl, nofun⟩
    | run _ => rw [hgroup] at hcached; nomatch hcached
    | endMarker => rw [hgroup] at hcached; nomatch hcached

end

/-- The chosen group depends on `PREV` and the cache alone. -/
theorem State.chosenGroup_congr {s t : State} (hprev : t.prev = s.prev) (hcache : t.cache = s.cache) (new : Pixel) :
    t.chosenGroup new = s.chosenGroup new := by
  simp only [State.chosenGroup, State.readCache_congr hcache, hprev]

theorem State.cacheAfter_congr {s t : State} (hcache : t.cache = s.cache) (new : Pixel) :
    t.cacheAfter new = s.cacheAfter new := by
  simp only [State.cacheAfter, State.readCache_congr hcache, hcache, State.updateCache_eq, State.writeCache_cache]

/-- A group of a pixel pass has at most five bytes (R92). -/
theorem encode_length_le {i : Instr} (h : i ≠ .endMarker) : (encode i).length ≤ 5 := by
  cases i with
  | endMarker => exact absurd rfl h
  | _ => simp [encode]

theorem State.flushBytes_length_le (s : State) : s.flushBytes.length ≤ 1 := by
  unfold State.flushBytes
  split <;> simp

/-! ### The pixel step, branch by branch -/

section
variable {s : State} {new : Pixel} (ready : PixelReady s new)
include ready

/-- A pixel that differs from `PREV`: the pending run's byte and the chosen group are given (R238 to R245). -/
theorem step_changed (hne : new ≠ s.prev) :
    ∃ t, step s = .next t ∧ PixelTaken s t new (s.flushBytes ++ encode (s.chosenGroup new)) ∧ t.run = 0 ∧
      t.cache = s.cacheAfter new := by
  obtain ⟨hflush, hrun, hcache⟩ := flushRun_emits s.afterInPixel ready.mode
  obtain ⟨hgroup, hrun', hcache'⟩ := encodeChanged_emits (new := new) (hflush.rest.mode.trans ready.mode)
  have hchain : encodeChain new s.afterInPixel = encodeChanged new (flushRun s.afterInPixel) :=
    if_neg (mt (pixelEq_iff _ _).1 hne)
  have hsame : (flushRun s.afterInPixel).chosenGroup new = s.chosenGroup new :=
    State.chosenGroup_congr hflush.prev hcache new
  rw [hsame] at hgroup
  have hlen : (s.flushBytes ++ encode (s.chosenGroup new)).length ≤ 6 := by
    have hone := s.flushBytes_length_le
    have hfive := encode_length_le (s.chosenGroup_wf new).2
    rw [List.length_append]
    omega
  obtain ⟨t, hstep, taken, htrun, htcache⟩ := pixel_step ready hchain (hflush.trans hgroup) hlen
  exact ⟨t, hstep, taken, htrun.trans (hrun'.trans hrun),
    htcache.trans (hcache'.trans (State.cacheAfter_congr hcache new))⟩

/-- A pixel that differs from `PREV` and misses writes its slot. -/
theorem step_missed (hne : new ≠ s.prev) (hmiss : s.readCache (pixelHash new) ≠ new) :
    ∃ t, step s = .next t ∧ PixelTaken s t new (s.flushBytes ++ encode (s.chosenGroup new)) ∧ t.run = 0 ∧
      SlotWritten s t new := by
  obtain ⟨t, hstep, taken, hrun, hcache⟩ := step_changed ready hne
  exact ⟨t, hstep, taken, hrun, State.updateCache_slotWritten s t new (hcache.trans (State.cacheAfter_miss hmiss))⟩

end

/-- A pixel equal to `PREV` runs only the run test (R236, R237). -/
theorem encodeChain_same {s : State} {new : Pixel} (hsame : new = s.prev) : encodeChain new s = extendRun s :=
  if_pos ((pixelEq_iff _ _).2 hsame)

/-- Settles O28: the run test alone runs, and below the cap it changes `RUN` alone. -/
theorem runExtension : Obligations.RunExtension := by
  unfold Obligations.RunExtension
  intro s new ready hsame hrun
  have hchain : encodeChain new s.afterInPixel =
      { s.afterInPixel.outBytes [] with run := s.run + 1, cache := s.cache } := by
    rw [State.outBytes_nil, encodeChain_same (s := s.afterInPixel) hsame]
    exact if_pos hrun
  exact pixel_step ready hchain (Emits.outBytes s.afterInPixel [] (s.run + 1) s.cache ready.mode) (Nat.zero_le 6)

/-- Settles O29: at the cap the run of 62 is given as one byte, and the pixel starts a new run. -/
theorem runAtCapSplits : Obligations.RunAtCapSplits := by
  unfold Obligations.RunAtCapSplits
  intro s new ready hsame hrun
  have hcap : ¬ s.run.toNat < runMax := by rw [hrun]; decide
  have hchain : encodeChain new s.afterInPixel = { s.afterInPixel.outBytes [0xFD] with run := 1, cache := s.cache } := by
    have hbyte : packRun (s.run - 1) = 0xFD := by rw [hrun]; decide
    rw [← hbyte, encodeChain_same (s := s.afterInPixel) hsame]
    exact if_neg hcap
  exact pixel_step ready hchain (Emits.outBytes s.afterInPixel [0xFD] 1 s.cache ready.mode) (by decide)

/-- Settles O30: on a hit the chosen group is INDEX, of one byte, and the cache stays. -/
theorem cacheHitEmitsIndex : Obligations.CacheHitEmitsIndex := by
  unfold Obligations.CacheHitEmitsIndex
  intro s new ready hne hhit
  have hbytes : encode (s.chosenGroup new) = [BitVec.ofNat 8 (pixelHash new).toNat] := by
    rw [s.chosenGroup_hit hhit, encode_index, BitVec.ofNat_toNat]
  obtain ⟨t, hstep, taken, hrun, hcache⟩ := step_changed ready hne
  exact ⟨t, hstep, hbytes ▸ taken, hrun, hcache.trans (State.cacheAfter_hit hhit)⟩

/-- In a pass of three channels every pixel's alpha is 255 (R252). -/
theorem State.nextPixel_alpha {s : State} {new : Pixel} (h : s.nextPixel = some new) (hc : s.channels = 3) :
    new.a = 255 := by
  have hne : ¬ s.channels = 4 := by rw [hc]; decide
  rw [State.nextPixel, if_neg hne] at h
  split at h
  · rw [← Option.some.inj h]
  · nomatch h

/-- Settles O31: a differing alpha is a differing pixel, and on a miss it decides before the windows are tested. -/
theorem alphaChangeEmitsRgba : Obligations.AlphaChangeEmitsRgba := by
  unfold Obligations.AlphaChangeEmitsRgba
  refine ⟨fun s new ready hmiss halpha => ?_, fun s new ready hc => State.nextPixel_alpha ready.pixel hc⟩
  have hne : new ≠ s.prev := fun h => halpha (congrArg Pixel.a h)
  have hstep := step_missed ready hne hmiss
  rwa [State.chosenGroup_alpha hmiss halpha] at hstep

/-- Settles O32: within the small window the group is DIFF, whose fields are the biased deltas. -/
theorem smallDiffEmitsDiff : Obligations.SmallDiffEmitsDiff := by
  unfold Obligations.SmallDiffEmitsDiff
  intro s new ready hne hmiss halpha dr dg db hsmall
  have hbytes : encode (s.chosenGroup new) = [BitVec.ofInt 8 (0x40 + (dr + 2) * 16 + (dg + 2) * 4 + (db + 2))] := by
    rw [State.chosenGroup_small hmiss halpha hsmall]
    exact encode_diff_deltas hsmall
  exact hbytes ▸ step_missed ready hne hmiss

/-- Settles O33: within the luma window alone the group is LUMA, whose fields are the biased green delta and offsets. -/
theorem lumaDiffEmitsLuma : Obligations.LumaDiffEmitsLuma := by
  unfold Obligations.LumaDiffEmitsLuma
  intro s new ready hne hmiss halpha dr dg db hsmall hluma
  have hbytes : encode (s.chosenGroup new) =
      [BitVec.ofInt 8 (0x80 + (dg + 32)), BitVec.ofInt 8 ((dr - dg + 8) * 16 + (db - dg + 8))] := by
    rw [State.chosenGroup_luma hmiss halpha hsmall hluma]
    exact encode_luma_deltas hluma
  exact hbytes ▸ step_missed ready hne hmiss

/-- Settles O34: where no window fits the group is RGB. -/
theorem fallbackEmitsRgb : Obligations.FallbackEmitsRgb := by
  unfold Obligations.FallbackEmitsRgb
  intro s new ready hne hmiss halpha dr dg db hsmall hluma
  have hstep := step_missed ready hne hmiss
  rwa [State.chosenGroup_rgb hmiss halpha hsmall hluma] at hstep

/-! ### The header step and the final step -/

/-- A core's turn that gives `bytes` and counts `k` is taken where the output channel accepts them and the count does not
wrap (R312). -/
theorem stepWith_of_gives {p : Params} {s t : State} {bytes : List Byte} (k : Nat) (hturn : s.coreTurn = true)
    (haction : coreAction p s.afterTurn = .next t) (hout : t.out = s.out ++ bytes) (hroom : bytes.length ≤ s.outRoom)
    (hbytes : t.byteCount = s.byteCount + BitVec.ofNat 64 k) (hcount : s.byteCount.toNat + k < 2 ^ 64) :
    stepWith p s = .next { t with outRoom := s.outRoom - bytes.length } := by
  have hlen : t.out.length - s.afterTurn.out.length = bytes.length := by
    rw [hout, State.afterTurn_out, List.length_append, Nat.add_sub_cancel_left]
  rw [stepWith_core p s hturn, coreStep_of_next haction, gate_next, hlen, State.afterTurn_outRoom]
  · rwa [hlen]
  · rw [hbytes, count_add _ _ hcount]
    exact Nat.le_add_right _ _

section
variable {p : Params} {s : State}

theorem coreAction_header_encode (hphase : s.phase = .header) (hmode : s.mode = .encode) :
    coreAction p s = .next (encodeHeader p s) := by
  simp only [coreAction, hphase, hmode]

/-- The checks of R231 in their order, said in the fields' values. -/
theorem encodeChecks_eq :
    encodeChecks p s =
      if ¬ (s.channels = 3 ∨ s.channels = 4) then some .badChannels
      else if p.maxBufferBytes < s.width.toNat * s.height.toNat * s.channels.toNat then some .sizeLimit
      else if s.inLen.toNat ≠ s.width.toNat * s.height.toNat * s.channels.toNat then some .inputLen
      else none := by
  have hchannels : (!channelsLegal s.channels) = true ↔ ¬ (s.channels = 3 ∨ s.channels = 4) := by
    rw [← channelsLegal_iff, Bool.not_eq_true', Bool.not_eq_true]
  simp only [← hchannels]
  rfl

theorem encodeHeader_of_check {cause : ErrCause} (h : encodeChecks p s = some cause) :
    encodeHeader p s = s.raise cause 0 := by
  simp only [encodeHeader, h]

theorem encodeHeader_of_legal (h : encodeChecks p s = none) :
    encodeHeader p s = { s.outBytes (headerBytesOf p ⟨s.width, s.height, s.channels, s.colorspace⟩) with
      n := s.width.toNat * s.height.toNat
      phase := if s.width.toNat * s.height.toNat = 0 then .final else .body } := by
  simp only [encodeHeader, h]

end

/-- Settles O16: the first failing check raises and gives nothing; where none fails the 14 bytes are given and counted. -/
theorem encodeHeaderStep : Obligations.EncodeHeaderStep := by
  unfold Obligations.EncodeHeaderStep
  intro p s hturn hphase hmode hroom hcount size legal
  have haction : coreAction p s.afterTurn = .next (encodeHeader p s.afterTurn) := coreAction_header_encode hphase hmode
  have hchecks : encodeChecks p s.afterTurn = if ¬ legal then some .badChannels
      else if p.maxBufferBytes < size then some .sizeLimit
      else if s.inLen.toNat ≠ size then some .inputLen else none := encodeChecks_eq
  refine ⟨fun cause hcause => ?raised, fun hlegal hlimit hlen => ?written⟩
  case raised =>
    have hcheck : encodeChecks p s.afterTurn = some cause := by
      rw [hchecks]
      obtain ⟨rfl, hlegal⟩ | ⟨rfl, hlegal, hlimit⟩ | ⟨rfl, hlegal, hlimit, hlen⟩ := hcause
      · rw [if_pos hlegal]
      · rw [if_neg (not_not.2 hlegal), if_pos hlimit]
      · rw [if_neg (not_not.2 hlegal), if_neg hlimit.not_gt, if_pos hlen]
    rw [encodeHeader_of_check hcheck] at haction
    exact ⟨_, stepWith_of_quiet 0 hturn s.byteCount.isLt haction rfl rfl (BitVec.add_zero _).symm,
      raises_of s _ cause 0 rfl rfl rfl rfl rfl rfl rfl rfl ⟨rfl, rfl, rfl, rfl, rfl, rfl⟩ ⟨rfl, rfl, rfl⟩, rfl, rfl⟩
  case written =>
    have hcheck : encodeChecks p s.afterTurn = none := by
      rw [hchecks, if_neg (not_not.2 hlegal), if_neg hlimit.not_gt, if_neg (not_not.2 hlen)]
    rw [encodeHeader_of_legal hcheck] at haction
    have hbytes : (s.afterTurn.outBytes (headerBytesOf p ⟨s.width, s.height, s.channels, s.colorspace⟩)).byteCount =
        s.byteCount + BitVec.ofNat 64 14 := State.outBytes_byteCount_encode _ _ hmode
    exact ⟨_, stepWith_of_gives 14 hturn haction rfl hroom hbytes hcount, rfl, rfl, hbytes, rfl, rfl, rfl, rfl, rfl,
      rfl, rfl, rfl, ⟨rfl, rfl, rfl, rfl, rfl, rfl⟩, ⟨rfl, rfl, rfl⟩, ⟨rfl, rfl, rfl⟩⟩

/-- The final step gives the pending run's byte and the marker, where the host is ready for exactly those (R248, R249). -/
theorem stepWith_final {p : Params} {s : State} (hturn : s.coreTurn = true) (hphase : s.phase = .final)
    (hmode : s.mode = .encode) (hroom : s.flushBytes.length + 8 ≤ s.outRoom)
    (hcount : s.byteCount.toNat + (s.flushBytes.length + 8) < 2 ^ 64) :
    ∃ t, stepWith p s = .next { t with phase := .done, outRoom := s.outRoom - (s.flushBytes.length + 8) } ∧
      Emits s.afterTurn t (s.flushBytes ++ endMarkerBytes) ∧ t.run = 0 ∧ t.cache = s.cache := by
  obtain ⟨hflush, hrun, hcache⟩ := flushRun_emits s.afterTurn hmode
  have hmode' : (flushRun s.afterTurn).mode = .encode := hflush.rest.mode.trans hmode
  have hgiven := hflush.trans
    (Emits.outBytes _ endMarkerBytes (flushRun s.afterTurn).run (flushRun s.afterTurn).cache hmode')
  have haction : coreAction p s.afterTurn = .next (emitEnd (flushRun s.afterTurn)) := by
    simp only [coreAction, State.afterTurn_phase, State.afterTurn_mode, hphase, hmode, finalStep, exec, execEndMarker, hmode']
  have hlen : (s.afterTurn.flushBytes ++ endMarkerBytes).length = s.flushBytes.length + 8 := List.length_append
  rw [← hlen] at hroom hcount ⊢
  exact ⟨(flushRun s.afterTurn).outBytes endMarkerBytes,
    stepWith_of_gives _ hturn haction hgiven.out hroom hgiven.byteCount hcount, hgiven, hrun, hcache⟩

/-- Settles O37: the run flush and then END, both emissions, and the gate accepts their bytes. -/
theorem finalStepFlushesAndEnds : Obligations.FinalStepFlushesAndEnds := by
  unfold Obligations.FinalStepFlushesAndEnds
  intro s hturn hphase hmode hroom hcount
  have hone := s.flushBytes_length_le
  obtain ⟨t, hstep, given, hrun, hcache⟩ :=
    stepWith_final (p := Config.params) hturn hphase hmode (by omega) (by omega)
  have hlen : (s.flushBytes ++ endMarkerBytes).length = s.flushBytes.length + 8 := List.length_append
  refine ⟨_, hstep, ?_, hrun, rfl, hlen ▸ given.byteCount, rfl, given.prev, hcache, given.pixCount, given.rest.inQueue,
    given.rest.mode, given.rest.n, ?_, ?_, ?_⟩
  · rw [List.append_assoc]
    exact given.out
  · obtain ⟨h1, h2, h3, h4, h5, h6⟩ := given.rest.config
    exact ⟨h1, h2, h3, h4, h5, h6⟩
  · obtain ⟨h1, h2, h3⟩ := given.rest.error
    exact ⟨h1, h2, h3⟩
  · obtain ⟨h1, h2, h3⟩ := given.rest.host
    exact ⟨h1, h2, h3⟩

end Sys2Proof.Machine

/-! The round trip (R250): a decoder that follows the encoder group by group, and the two passes from START to DONE. -/

namespace Sys2Proof.Machine

/-- Every group of a pixel pass is read back from its bytes (R93 to R98). -/
theorem decodeGroup_encode {i : Instr} (hwf : i.wf = true) (hgroup : i ≠ .endMarker) (rest : List Byte) :
    decodeGroup (encode i ++ rest) = .ok (i, rest) := by
  cases i with
  | index k =>
    have hfields : classOf (0b00#2 ++ k) = 0b00 ∧ payloadOf (0b00#2 ++ k) = k :=
      ⟨BitVec.extractLsb'_append_eq_left, BitVec.extractLsb'_append_eq_right⟩
    have hdecode := (indexGroup hfields.1).2 rest
    rwa [hfields.2] at hdecode
  | diff fr fg fb =>
    obtain ⟨hclass, hr, hg, hb⟩ := append_fields 0b01#2 fr fg fb
    have hdecode := (diffGroup hclass).2 rest
    rwa [hr, hg, hb] at hdecode
  | luma fdg fdr fdb =>
    have hfields : classOf (0b10#2 ++ fdg) = 0b10 ∧ payloadOf (0b10#2 ++ fdg) = fdg :=
      ⟨BitVec.extractLsb'_append_eq_left, BitVec.extractLsb'_append_eq_right⟩
    have hdecode := (lumaGroup hfields.1).2 (fdr ++ fdb) rest
    rwa [hfields.2, BitVec.extractLsb'_append_eq_left, BitVec.extractLsb'_append_eq_right] at hdecode
  | run len =>
    have hlen : len.toNat ≤ 61 := of_decide_eq_true hwf
    have htags : (0b11#2 ++ len : Byte) ≠ 0xFE ∧ (0b11#2 ++ len : Byte) ≠ 0xFF := by
      revert len
      decide
    have hfields : classOf (0b11#2 ++ len) = 0b11 ∧ payloadOf (0b11#2 ++ len) = len :=
      ⟨BitVec.extractLsb'_append_eq_left, BitVec.extractLsb'_append_eq_right⟩
    have hdecode := (runGroup hfields.1 htags.1 htags.2).2 rest
    rwa [hfields.2] at hdecode
  | rgb r g b => rfl
  | rgba r g b a => rfl
  | endMarker => exact absurd rfl hgroup

/-! ### Runs of the machine -/

/-- Outside HEADER the open parameters play no part in the core's turn. -/
theorem stepWith_eq_step (p : Params) {s : State} (hturn : s.coreTurn = true) (hphase : s.phase ≠ .header) :
    stepWith p s = step s := by
  have haction : coreAction p s.afterTurn = coreAction Config.params s.afterTurn := by
    unfold coreAction
    cases hp : s.afterTurn.phase with
    | header => exact absurd hp hphase
    | body => cases s.afterTurn.mode <;> rfl
    | final => cases s.afterTurn.mode <;> rfl
    | _ => rfl
  rw [stepWith_core p s hturn, step_core s hturn, coreStep, haction, coreStep]

/-- Any number of steps, each of which keeps the configuration. -/
def Steps (p : Params) : State → State → Prop :=
  Relation.ReflTransGen fun s t => stepWith p s = .next t ∧ SameConfig s t

theorem SameConfig.refl (s : State) : SameConfig s s := ⟨rfl, rfl, rfl, rfl, rfl, rfl⟩

theorem SameConfig.trans {s t u : State} (h : SameConfig s t) (g : SameConfig t u) : SameConfig s u :=
  ⟨g.ctrlMode.trans h.ctrlMode, g.width.trans h.width, g.height.trans h.height, g.channels.trans h.channels,
    g.colorspace.trans h.colorspace, g.inLen.trans h.inLen⟩

theorem Steps.sameConfig {p : Params} {s t : State} (h : Steps p s t) : SameConfig s t := by
  induction h with
  | refl => exact SameConfig.refl s
  | tail _ hstep ih => exact ih.trans hstep.2

theorem run_succ {p : Params} {s t : State} (h : stepWith p s = .next t) (k : Nat) :
    (coreWith p).run (k + 1) s = (coreWith p).run k t := by
  have hstep : (coreWith p).step s = .next t := h
  simp only [Host.Core.run, hstep]

theorem Steps.run {p : Params} {s t : State} (h : Steps p s t) : ∃ k, (coreWith p).run k s = .next t := by
  induction h using Relation.ReflTransGen.head_induction_on with
  | refl => exact ⟨0, rfl⟩
  | head hstep _ ih =>
    obtain ⟨k, hk⟩ := ih
    exact ⟨k + 1, (run_succ hstep.1 k).trans hk⟩

theorem State.coreTurn_of_turns {s : State} (h : s.turns = []) : s.coreTurn = true := by
  rw [State.coreTurn, h]

theorem State.afterTurn_of_turns {s : State} (h : s.turns = []) : s.afterTurn = s := by
  have htail : s.turns.tail = s.turns := by rw [h, List.tail_nil]
  rw [State.afterTurn, htail]

/-! ### A decoder that follows an encoder -/

/-- A decoder between two groups, with only the core left to move: `queue` is next in its channel, and the host is ready for
every pixel still wanted. -/
structure Decoding (d : State) (queue : List Byte) : Prop where
  turns : d.turns = []
  phase : d.phase = if d.pixCount.toNat = d.n then .done else .body
  mode : d.mode = .decode
  fits : d.n < 2 ^ 64
  queue : d.inQueue = queue
  room : (d.n - d.pixCount.toNat) * d.pixelWidth ≤ d.outRoom

/-- `d` after the step of a group `i` that gives `k` copies of `new` and leaves the cache `c`. -/
def State.afterGroup (d : State) (i : Instr) (c : Vector Pixel 64) (new : Pixel) (k : Nat) : State :=
  { (d.takeInput (lengthBytes i)).givePixels c new k with
    phase := if (d.pixCount + BitVec.ofNat 64 k).toNat = d.n then .done else d.phase
    outRoom := d.outRoom - (runBytes d.channels new k).length }

theorem encode_length (i : Instr) : (encode i).length = lengthBytes i := by cases i <;> rfl

section
variable {p : Params} {d : State} {i : Instr} {rest : List Byte} {c : Vector Pixel 64} {new : Pixel} {k : Nat}
  (ready : Decoding d (encode i ++ rest)) (hk : 1 ≤ k) (hwanted : d.pixCount.toNat + k ≤ d.n)
include ready hk hwanted

/-- A group whose pixels are all wanted is executed, however little room there is beside theirs. -/
theorem Decoding.stepWith_group (hwf : i.wf = true) (hgroup : i ≠ .endMarker)
    (hcount : d.byteCount.toNat + (encode i).length < 2 ^ 64)
    (hexec : exec i (d.takeInput (lengthBytes i)) = .next ((d.takeInput (lengthBytes i)).givePixels c new k)) :
    stepWith p d = .next (d.afterGroup i c new k) := by
  have hturn := State.coreTurn_of_turns ready.turns
  have hsame := State.afterTurn_of_turns ready.turns
  have hbody : d.phase = .body := by rw [ready.phase, if_neg (by omega)]
  have hdecode : decodeAt .groups d.inQueue = .ok (i, rest) := by
    rw [ready.queue]
    exact decodeGroup_encode hwf hgroup rest
  have haction : coreAction p d.afterTurn =
      .next (finishAtN ((d.takeInput (lengthBytes i)).givePixels c new k)) := by
    rw [hsame, coreAction_body_decode hbody ready.mode]
    simp only [decodeStep, if_pos (show d.pixCount.toNat < d.n by omega), hdecode, execGroup, hexec]
  have hlen : (runBytes d.channels new k).length ≤ d.outRoom := by
    refine le_trans ?_ ready.room
    rw [runBytes_length]
    exact Nat.mul_le_mul_right _ (by omega)
  have hbytes : (d.takeInput (lengthBytes i)).byteCount = d.byteCount + BitVec.ofNat 64 (lengthBytes i) :=
    State.takeInput_byteCount_decode _ _ ready.mode
  rw [encode_length] at hcount
  rw [finishAtN_eq] at haction
  exact stepWith_of_gives (lengthBytes i) hturn haction rfl hlen hbytes hcount

theorem Decoding.afterGroup : Decoding (d.afterGroup i c new k) rest := by
  have hpix : (d.pixCount + BitVec.ofNat 64 k).toNat = d.pixCount.toNat + k :=
    count_add _ _ (hwanted.trans_lt ready.fits)
  have hbody : d.phase = .body := by rw [ready.phase, if_neg (by omega)]
  refine ⟨ready.turns, ?phase, ready.mode, ready.fits, ?queue, ?room⟩
  case phase => rw [State.afterGroup, hbody]; rfl
  case queue =>
    show d.inQueue.drop (lengthBytes i) = rest
    rw [ready.queue, ← encode_length, List.drop_left]
  case room =>
    show (d.n - (d.pixCount + BitVec.ofNat 64 k).toNat) * d.pixelWidth ≤ d.outRoom - (runBytes d.channels new k).length
    have hwidth : pixelSize d.channels = d.pixelWidth := rfl
    rw [hpix, runBytes_length, hwidth, Nat.sub_add_eq, Nat.sub_mul]
    exact Nat.sub_le_sub_right ready.room _

end

/-- A decoder `d` that has executed every group that the encoder `e` has given, with `queue` next in its channel. -/
structure Follows (e d : State) (image queue : List Byte) : Prop extends Lockstep e d image, Decoding d queue where
  byteCount : d.byteCount = e.byteCount

/-- `t` is `e` with the pixel `new` consumed and `bytes` given and counted, as far as a decoder that follows can tell. -/
structure Consumes (e t : State) (new : Pixel) (bytes : List Byte) : Prop where
  prev : t.prev = new
  pixCount : t.pixCount = e.pixCount + 1
  byteCount : t.byteCount = e.byteCount + BitVec.ofNat 64 bytes.length
  n : t.n = e.n
  channels : t.channels = e.channels

theorem Emits.refl (s : State) : Emits s s [] :=
  ⟨(List.append_nil _).symm, (BitVec.add_zero _).symm, rfl, rfl, rfl,
    ⟨rfl, rfl, rfl, rfl, SameConfig.refl s, ⟨rfl, rfl, rfl⟩, ⟨rfl, rfl, rfl⟩⟩⟩

/-- What is left of a pixel step after a first emission, the run flush. -/
theorem PixelTaken.consumes {s a t : State} {new : Pixel} {x y : List Byte} (taken : PixelTaken s t new (x ++ y))
    (h : Emits s a x) : Consumes a t new y where
  prev := taken.prev
  pixCount := by rw [taken.pixCount, h.pixCount]
  byteCount := by
    rw [taken.byteCount, h.byteCount, BitVec.add_assoc, List.length_append, BitVec.ofNat_add]
  n := taken.n.trans h.rest.n.symm
  channels := taken.config.channels.trans h.rest.config.channels.symm

theorem runBytes_add (channels : Byte) (new : Pixel) (j k : Nat) :
    runBytes channels new (j + k) = runBytes channels new j ++ runBytes channels new k := by
  rw [runBytes, List.replicate_add, List.flatten_append]
  rfl

section
variable {p : Params} {e d t : State} {new : Pixel} {image rest : List Byte}

/-- A pixel equal to `PREV` that only lengthens the pending run asks nothing of the decoder. -/
theorem Follows.extend (follows : Follows e d image rest) (consumed : Consumes e t e.prev [])
    (hrun : t.run.toNat = e.run.toNat + 1) (hcache : t.cache = e.cache) (hpix : e.pixCount.toNat < e.n) :
    Follows t d (image ++ pixelBytes e.channels e.prev) rest := by
  have hfits : e.n < 2 ^ 64 := follows.n ▸ follows.fits
  refine ⟨⟨?_, ?_, ?_, ?_, ?_, ?_⟩, follows.toDecoding, ?_⟩
  · rw [follows.prev, consumed.prev]
  · rw [follows.cache, hcache]
  · rw [follows.n, consumed.n]
  · rw [follows.channels, consumed.channels]
  · rw [consumed.pixCount, hrun, ← Nat.add_assoc, ← follows.pixCount]
    exact count_add _ 1 (by omega)
  · rw [consumed.channels, consumed.prev, hrun, runBytes_add, ← List.append_assoc, follows.out, runBytes_one]
  · rw [follows.byteCount, consumed.byteCount]
    exact (BitVec.add_zero _).symm

theorem State.flushBytes_of_zero (hrun : e.run = 0) : e.flushBytes = [] := if_pos hrun

/-- A pending run's byte is a RUN group (R238). -/
theorem State.flushBytes_pending (hrun : e.run ≠ 0) : e.flushBytes = encode (.run (e.run - 1)) := by
  rw [State.flushBytes, if_neg hrun, ← packRun_pending _ hrun, packRun_eq]
  rfl

/-- The decoder executes the byte of the pending run. -/
theorem Follows.flush (hmode : e.mode = .encode) (hrun : e.run.toNat ≤ 62) (hpix : e.pixCount.toNat ≤ e.n)
    (hcount : e.byteCount.toNat + e.flushBytes.length < 2 ^ 64) (follows : Follows e d image (e.flushBytes ++ rest)) :
    ∃ d', Steps p d d' ∧ Follows (flushRun e) d' image rest := by
  by_cases hpending : e.run = 0
  case pos =>
    have hquiet : flushRun e = e := if_neg (by rw [hpending]; decide)
    rw [State.flushBytes_of_zero hpending] at follows
    rw [hquiet]
    exact ⟨d, .refl, follows⟩
  obtain ⟨hflush, hrun', hcache⟩ := flushRun_emits e hmode
  have hlen : (e.run - 1).toNat + 1 = e.run.toNat := by
    have hpos : e.run.toNat ≠ 0 := fun h => hpending (BitVec.eq_of_toNat_eq h)
    bv_omega
  have hgroup := State.flushBytes_pending hpending
  have ready := follows.toDecoding
  rw [hgroup] at ready hcount
  rw [← follows.byteCount] at hcount
  have hcounted := follows.pixCount
  have hk : 1 ≤ e.run.toNat := hlen ▸ Nat.le_add_left _ _
  have hwanted : d.pixCount.toNat + e.run.toNat ≤ d.n := by rw [← hcounted, follows.n]; exact hpix
  have hexec := exec_run_decode (s := d.takeInput 1) (e.run - 1) ready.mode
  rw [hlen, State.takeInput_prev, State.takeInput_n, State.takeInput_pixCount, Nat.min_eq_left (by omega), follows.prev]
    at hexec
  have hwf : (Instr.run (e.run - 1)).wf = true := decide_eq_true (by omega)
  have hstep := ready.stepWith_group (p := p) hk hwanted hwf nofun hcount hexec
  have hpc : (d.pixCount + BitVec.ofNat 64 e.run.toNat).toNat = d.pixCount.toNat + e.run.toNat :=
    count_add _ _ (hwanted.trans_lt ready.fits)
  refine ⟨_, .single ⟨hstep, ⟨rfl, rfl, rfl, rfl, rfl, rfl⟩⟩, ⟨?_, ?_, ?_, ?_, ?_, ?_⟩, ready.afterGroup hk hwanted, ?_⟩
  · exact hflush.prev.symm
  · exact follows.cache.trans hcache.symm
  · exact follows.n.trans hflush.rest.n.symm
  · exact follows.channels.trans hflush.rest.config.channels.symm
  · rw [hflush.pixCount, hrun', hcounted]
    exact hpc.symm
  · rw [hrun', ← follows.out, ← follows.channels]
    exact List.append_nil _
  · rw [hflush.byteCount, ← follows.byteCount, hgroup, encode_length]
    exact State.takeInput_byteCount_decode _ _ ready.mode

/-- The decoder executes the group of a pixel that differs from `PREV`: it names the pixel, and the cache after it is the
encoder's (R173, R176). -/
theorem exec_chosenGroup (hmode : d.mode = .decode) (hprev : d.prev = e.prev) (hcache : d.cache = e.cache) :
    exec (e.chosenGroup new) d = .next (d.givePixels (e.cacheAfter new) new 1) := by
  rw [← State.chosenGroup_congr hprev hcache, ← State.cacheAfter_congr hcache]
  by_cases hhit : d.readCache (pixelHash new) = new
  · rw [d.chosenGroup_hit hhit, State.cacheAfter_hit hhit, exec_index_decode _ hmode, hhit]
  · rw [exec_of_cachedPixel hmode (encodeChanged_miss hhit).2, State.cacheAfter_miss hhit]

/-- The decoder executes the group of a pixel that differs from `PREV`, where no run is pending. -/
theorem Follows.changed (hrun : e.run = 0) (hpix : e.pixCount.toNat < e.n)
    (hcount : e.byteCount.toNat + (encode (e.chosenGroup new)).length < 2 ^ 64)
    (consumed : Consumes e t new (encode (e.chosenGroup new))) (hrun' : t.run = 0) (hcache : t.cache = e.cacheAfter new)
    (follows : Follows e d image (encode (e.chosenGroup new) ++ rest)) :
    ∃ d', Steps p d d' ∧ Follows t d' (image ++ pixelBytes e.channels new) rest := by
  have ready := follows.toDecoding
  have hcounted : e.pixCount = d.pixCount := by
    have hto := follows.pixCount
    rw [hrun] at hto
    exact BitVec.eq_of_toNat_eq hto
  have hwanted : d.pixCount.toNat + 1 ≤ d.n := by rw [← hcounted, follows.n]; exact hpix
  rw [← follows.byteCount] at hcount
  obtain ⟨hwf, hgroup⟩ := e.chosenGroup_wf new
  have hstep := ready.stepWith_group (p := p) le_rfl hwanted hwf hgroup hcount
    (exec_chosenGroup ready.mode follows.prev follows.cache)
  refine ⟨_, .single ⟨hstep, ⟨rfl, rfl, rfl, rfl, rfl, rfl⟩⟩, ⟨?_, ?_, ?_, ?_, ?_, ?_⟩, ready.afterGroup le_rfl hwanted, ?_⟩
  · exact consumed.prev.symm
  · exact hcache.symm
  · exact follows.n.trans consumed.n.symm
  · exact follows.channels.trans consumed.channels.symm
  · rw [consumed.pixCount, hrun', hcounted]
    rfl
  · have hout := follows.out
    rw [hrun] at hout
    rw [hrun', ← hout, ← follows.channels, ← runBytes_one]
    simp [State.afterGroup, State.givePixels]
  · rw [consumed.byteCount, ← follows.byteCount, encode_length]
    exact State.takeInput_byteCount_decode _ _ ready.mode

end

/-! ### An encoder between START and DONE -/

/-- An encoder after its header step, with only the core left to move: the buffer's other pixels are in the channel, and
neither the host's readiness nor the byte counter stops the bytes that can still come (R253). -/
structure Encoding (e : State) : Prop where
  turns : e.turns = []
  phase : e.phase = if e.pixCount.toNat = e.n then .final else .body
  mode : e.mode = .encode
  fits : e.n < 2 ^ 64
  run : e.run.toNat ≤ 62
  counted : e.pixCount.toNat ≤ e.n
  queue : e.inQueue.length = (e.n - e.pixCount.toNat) * e.pixelWidth
  room : e.flushBytes.length + 5 * (e.n - e.pixCount.toNat) + 8 ≤ e.outRoom
  count : e.byteCount.toNat + (e.flushBytes.length + 5 * (e.n - e.pixCount.toNat) + 8) < 2 ^ 64

/-- A pixel step that gives, with the run then pending, at most five bytes more than were pending, and that a decoder can
follow: it executes the bytes given, and its image grows by the pixel (R176). -/
structure PixelFollowed (p : Params) (e t : State) (new : Pixel) (bytes : List Byte) : Prop where
  step : step e = .next t
  taken : PixelTaken e t new bytes
  run : t.run.toNat ≤ 62
  pending : bytes.length + t.flushBytes.length ≤ e.flushBytes.length + 5
  follow : ∀ d image rest, Follows e d image (bytes ++ rest) →
    ∃ d', Steps p d d' ∧ Follows t d' (image ++ pixelBytes e.channels new) rest

/-- The next pixel's bytes stand at the head of the channel (R66). -/
theorem State.inQueue_of_nextPixel {s : State} {new : Pixel} (h : s.nextPixel = some new) :
    s.inQueue = pixelBytes s.channels new ++ s.inQueue.drop s.pixelWidth := by
  rw [State.nextPixel] at h
  rw [pixelBytes, State.pixelWidth]
  by_cases hc : s.channels = 4
  · rw [if_pos hc] at h ⊢
    split at h
    · next hqueue => rw [hqueue, ← Option.some.inj h, if_pos hc]; rfl
    · nomatch h
  · rw [if_neg hc] at h ⊢
    split at h
    · next hqueue => rw [hqueue, ← Option.some.inj h, if_neg hc]; rfl
    · nomatch h

section
variable {p : Params} {e : State}

/-- While pixels are wanted one is ready. -/
theorem Encoding.pixelReady (ready : Encoding e) (hwanted : e.pixCount.toNat < e.n) : ∃ new, PixelReady e new := by
  have hroom := ready.room
  have hcount := ready.count
  have hqueue : ¬ e.inQueue.length < pixelSize e.channels := by
    rw [ready.queue]
    exact (Nat.le_mul_of_pos_left _ (by omega)).not_gt
  obtain ⟨new, hnew⟩ := Option.ne_none_iff_exists'.1 (mt e.nextPixel_none.1 hqueue)
  exact ⟨new, State.coreTurn_of_turns ready.turns, by rw [ready.phase, if_neg hwanted.ne], ready.mode, hwanted,
    ready.fits, hnew, by omega, by omega⟩

/-- The encoder goes on after a pixel step. -/
theorem Encoding.next {t : State} {new : Pixel} {bytes : List Byte} (ready : Encoding e)
    (hwanted : e.pixCount.toNat < e.n) (followed : PixelFollowed p e t new bytes) : Encoding t := by
  have hroom := ready.room
  have hcount := ready.count
  have hfits := ready.fits
  have hpending := followed.pending
  have taken := followed.taken
  have hpix : t.pixCount.toNat = e.pixCount.toNat + 1 := by
    rw [taken.pixCount]
    exact count_add _ 1 (by omega)
  have hbytes : t.byteCount.toNat = e.byteCount.toNat + bytes.length := by
    rw [taken.byteCount]
    exact count_add _ _ (by omega)
  have hwidth : t.pixelWidth = e.pixelWidth := by rw [State.pixelWidth, taken.config.channels]; rfl
  refine ⟨?_, ?_, taken.mode.trans ready.mode, taken.n ▸ hfits, followed.run, ?_, ?_, ?_, ?_⟩
  · rw [taken.host.turns, State.afterTurn_turns, ready.turns, List.tail_nil]
  · rw [taken.phase, hpix, taken.n]
  · rw [hpix, taken.n]
    exact hwanted
  · rw [taken.queue, List.length_drop, ready.queue, hpix, taken.n, hwidth, Nat.sub_add_eq, Nat.sub_mul _ 1, Nat.one_mul]
  · rw [taken.room, hpix, taken.n]
    omega
  · rw [hbytes, hpix, taken.n]
    omega

section
variable {new : Pixel} (hnew : PixelReady e new)
include hnew

/-- Below the cap the decoder waits for the run to end (R236). -/
theorem pixelFollowed_extension (hsame : new = e.prev) (hcap : e.run.toNat < 62) :
    ∃ t bytes, PixelFollowed p e t new bytes := by
  obtain ⟨t, hstep, taken, hrun, hcache⟩ := runExtension e new hnew hsame hcap
  have hlonger : t.run.toNat = e.run.toNat + 1 := by
    rw [hrun]
    bv_omega
  have hone := t.flushBytes_length_le
  subst hsame
  refine ⟨t, [], hstep, taken, by omega, ?_, fun d image rest follows => ?_⟩
  · rw [List.length_nil]
    omega
  · exact ⟨d, .refl, follows.extend (taken.consumes (x := []) (Emits.refl e)) hlonger hcache hnew.wanted⟩

/-- At the cap the decoder executes the run of 62 (R237). -/
theorem pixelFollowed_cap (hsame : new = e.prev) (hcap : e.run = 62) : ∃ t bytes, PixelFollowed p e t new bytes := by
  obtain ⟨t, hstep, taken, hrun, hcache⟩ := runAtCapSplits e new hnew hsame hcap
  obtain ⟨hflush, hfrun, hfcache⟩ := flushRun_emits e hnew.mode
  have hbytes : [0xFD] = e.flushBytes := by
    rw [State.flushBytes, hcap]
    rfl
  have hone := t.flushBytes_length_le
  have hcount := hnew.count
  rw [hbytes] at taken
  refine ⟨t, e.flushBytes, hstep, taken, by rw [hrun]; decide, by omega, fun d image rest follows => ?_⟩
  obtain ⟨d', hsteps, follows'⟩ := follows.flush (p := p) hnew.mode (by rw [hcap]; decide) hnew.wanted.le
    (by rw [← hbytes, List.length_singleton]; omega)
  rw [← List.append_nil e.flushBytes] at taken
  have consumed := taken.consumes hflush
  rw [hsame, ← hflush.prev] at consumed
  have follows'' := follows'.extend consumed (by rw [hrun, hfrun]; rfl) (hcache.trans hfcache.symm)
    (by rw [hflush.pixCount, hflush.rest.n]; exact hnew.wanted)
  rw [hflush.prev, hflush.rest.config.channels, ← hsame] at follows''
  exact ⟨d', hsteps, follows''⟩

/-- Where the pixel changes the decoder executes the pending run, then the pixel's group (R238 to R245). -/
theorem pixelFollowed_changed (hrun : e.run.toNat ≤ 62) (hne : new ≠ e.prev) :
    ∃ t bytes, PixelFollowed p e t new bytes := by
  obtain ⟨t, hstep, taken, htrun, hcache⟩ := step_changed hnew hne
  obtain ⟨hflush, hfrun, hfcache⟩ := flushRun_emits e hnew.mode
  have hgroup := State.chosenGroup_congr hflush.prev hfcache new
  have hone := e.flushBytes_length_le
  have hfive := encode_length_le (e.chosenGroup_wf new).2
  have hcount := hnew.count
  have hbytes : (flushRun e).byteCount.toNat = e.byteCount.toNat + e.flushBytes.length := by
    rw [hflush.byteCount]
    exact count_add _ _ (by omega)
  refine ⟨t, _, hstep, taken, by rw [htrun]; decide, ?_, fun d image rest follows => ?_⟩
  · rw [State.flushBytes_of_zero htrun, List.length_append, List.length_nil]
    omega
  rw [List.append_assoc] at follows
  obtain ⟨d₁, hsteps₁, follows₁⟩ := follows.flush (p := p) hnew.mode hrun hnew.wanted.le (by omega)
  have consumed := taken.consumes hflush
  rw [← hgroup] at consumed follows₁ hfive
  obtain ⟨d₂, hsteps₂, follows₂⟩ := follows₁.changed (p := p) hfrun
    (by rw [hflush.pixCount, hflush.rest.n]; exact hnew.wanted) (by omega) consumed htrun
    (hcache.trans (State.cacheAfter_congr hfcache new).symm)
  rw [hflush.rest.config.channels] at follows₂
  exact ⟨d₂, hsteps₁.trans hsteps₂, follows₂⟩

end

/-- One pixel of an encode pass, whichever branch of the chain it takes (R235). -/
theorem Encoding.pixel (ready : Encoding e) (hwanted : e.pixCount.toNat < e.n) :
    ∃ t new bytes, PixelFollowed p e t new bytes ∧ e.inQueue = pixelBytes e.channels new ++ t.inQueue := by
  obtain ⟨new, hnew⟩ := ready.pixelReady hwanted
  have hrun := ready.run
  have hfollowed : ∃ t bytes, PixelFollowed p e t new bytes := by
    by_cases hsame : new = e.prev
    case neg => exact pixelFollowed_changed hnew hrun hsame
    by_cases hcap : e.run.toNat < 62
    case pos => exact pixelFollowed_extension hnew hsame hcap
    case neg =>
      have hfull : e.run.toNat = 62 := by omega
      exact pixelFollowed_cap hnew hsame (BitVec.eq_of_toNat_eq hfull)
  obtain ⟨t, bytes, followed⟩ := hfollowed
  exact ⟨t, new, bytes, followed, followed.taken.queue ▸ State.inQueue_of_nextPixel hnew.pixel⟩

/-- The rest of an encode pass, and the decode pass of a decoder that follows: both end in DONE, and the decoder's output is
what the encoder has consumed (R250). -/
theorem Encoding.pass (m : Nat) (ready : Encoding e) (hm : e.n - e.pixCount.toNat = m) :
    ∃ t bytes, Steps p e t ∧ t.phase = .done ∧ t.mode = .encode ∧ t.out = e.out ++ bytes ∧
      ∀ d image rest, Follows e d image (bytes ++ rest) →
        ∃ d', Steps p d d' ∧ d'.phase = .done ∧ d'.mode = .decode ∧ d'.out = image ++ e.inQueue := by
  induction m generalizing e with
  | zero =>
    have hdone : e.pixCount.toNat = e.n := by have := ready.counted; omega
    have hroom := ready.room
    have hcount := ready.count
    obtain ⟨t, hstep, given, -, -⟩ := stepWith_final (p := p) (State.coreTurn_of_turns ready.turns)
      (by rw [ready.phase, if_pos hdone]) ready.mode (by omega) (by omega)
    have hempty : e.inQueue = [] := List.eq_nil_of_length_eq_zero (by rw [ready.queue, hm, Nat.zero_mul])
    refine ⟨_, _, .single ⟨hstep, ?_⟩, rfl, given.rest.mode.trans ready.mode, given.out, fun d image rest follows => ?_⟩
    · obtain ⟨h1, h2, h3, h4, h5, h6⟩ := given.rest.config
      exact ⟨h1, h2, h3, h4, h5, h6⟩
    rw [List.append_assoc] at follows
    obtain ⟨hflush, hrun, -⟩ := flushRun_emits e ready.mode
    obtain ⟨d', hsteps, follows'⟩ := follows.flush (p := p) ready.mode ready.run hdone.le (by omega)
    have hpix := follows'.pixCount
    have hout := follows'.out
    rw [hrun] at hpix hout
    refine ⟨d', hsteps, ?_, follows'.mode, ?_⟩
    · rw [follows'.phase, if_pos]
      rw [follows'.n, hflush.rest.n, ← hdone, ← hflush.pixCount, hpix]
      rfl
    · rw [hempty, List.append_nil, ← hout]
      exact (List.append_nil _).symm
  | succ m ih =>
    have hwanted : e.pixCount.toNat < e.n := by omega
    obtain ⟨e', new, bytes, followed, hqueue⟩ := ready.pixel (p := p) hwanted
    have taken := followed.taken
    have hstep : stepWith p e = .next e' := by
      rw [stepWith_eq_step p (State.coreTurn_of_turns ready.turns) (by rw [ready.phase, if_neg hwanted.ne]; nofun)]
      exact followed.step
    have hm' : e'.n - e'.pixCount.toNat = m := by
      have hpix : e'.pixCount.toNat = e.pixCount.toNat + 1 := by
        have := ready.fits
        rw [taken.pixCount]
        exact count_add _ 1 (by omega)
      rw [hpix, taken.n]
      omega
    obtain ⟨t, bytes', hsteps, hphase, hmode, hout, hdecode⟩ := ih (ready.next hwanted followed) hm'
    refine ⟨t, bytes ++ bytes', .head ⟨hstep, taken.config⟩ hsteps, hphase, hmode, ?_, fun d image rest follows => ?_⟩
    · rw [hout, taken.out, List.append_assoc]
    rw [List.append_assoc] at follows
    obtain ⟨d₁, hsteps₁, follows₁⟩ := followed.follow d image _ follows
    obtain ⟨d₂, hsteps₂, hphase₂, hmode₂, hout₂⟩ := hdecode d₁ _ rest follows₁
    refine ⟨d₂, hsteps₁.trans hsteps₂, hphase₂, hmode₂, ?_⟩
    rw [hout₂, hqueue, List.append_assoc]

end

/-! ### From START to DONE -/

/-- A pass of mode `m` right after its START, with only the core left to move (R47, R303). -/
def State.passStart (s : State) (m : Mode) (input : List Byte) (inEnd : Bool) (room : Nat) : State :=
  { { s with ctrlMode := m }.startPass with inQueue := input, inEnd := inEnd, outRoom := room, turns := [] }

/-- A START of a free core, by a write of CTRL (R302). -/
theorem State.started_eq {s : State} {v : Word} (hfree : s.phase.busy = false) (hstart : v.getLsbD 0 = true)
    (input : List Byte) (inEnd : Bool) (room : Nat) :
    s.started v input inEnd room = s.passStart (Mode.ofBit (v.getLsbD 1)) input inEnd room := by
  rw [State.started, writeReg_idle _ _ hfree, writeIdle, writeCtrl, if_pos hstart]
  rfl

/-- A legal channel count is a pixel's size (R65, R123). -/
theorem pixelSize_legal {c : Byte} (h : c = 3 ∨ c = 4) : pixelSize c = c.toNat := by
  obtain rfl | rfl := h <;> rfl

/-- What either mode's header step leaves: the start values of R47, 14 bytes counted, and the header's fields. -/
structure AtFirstPixel (s : State) (h : Header) : Prop where
  turns : s.turns = []
  prev : s.prev = initPrev
  cache : s.cache = initCache
  run : s.run = 0
  pixCount : s.pixCount = 0
  byteCount : s.byteCount = 14
  n : s.n = h.width.toNat * h.height.toNat
  header : (⟨s.width, s.height, s.channels, s.colorspace⟩ : Header) = h

/-- The header step of a legal encode pass (R231, R232). -/
theorem EncodeLegal.header {p : Params} {s : State} {input : List Byte} (legal : EncodeLegal p s input) (inEnd : Bool)
    {room : Nat} (hroom : 14 + 5 * (s.width.toNat * s.height.toNat) + 8 ≤ room) :
    ∃ e, stepWith p (s.started 1 input inEnd room) = .next e ∧ Encoding e ∧ e.inQueue = input ∧
      AtFirstPixel e ⟨s.width, s.height, s.channels, s.colorspace⟩ ∧
      e.out = headerBytesOf p ⟨s.width, s.height, s.channels, s.colorspace⟩ := by
  have hcounter := legal.counter
  have hlength : input.length = s.width.toNat * s.height.toNat * pixelSize s.channels := by
    rw [pixelSize_legal legal.channels, legal.input, legal.inLen]
  rw [State.started_eq legal.free (by decide)]
  obtain ⟨-, hwritten⟩ := encodeHeaderStep p (s.passStart .encode input inEnd room) rfl rfl rfl
    (show 14 ≤ room by omega) (show 0 + 14 < 2 ^ 64 by decide)
  obtain ⟨e, hstep, hn, hout, hbytes, heroom, hphase, hqueue, hprev, hcache, hrun, hpix, hmode, hconfig, -, hhost⟩ :=
    hwritten legal.channels legal.limit legal.inLen
  replace hn : e.n = s.width.toNat * s.height.toNat := hn
  replace heroom : e.outRoom = room - 14 := heroom
  have first : AtFirstPixel e ⟨s.width, s.height, s.channels, s.colorspace⟩ :=
    ⟨hhost.turns, hprev, hcache, hrun, hpix, hbytes, hn,
      by rw [hconfig.width, hconfig.height, hconfig.channels, hconfig.colorspace]; rfl⟩
  have hzero : e.pixCount.toNat = 0 := by rw [hpix]; rfl
  have hflush : e.flushBytes.length = 0 := by rw [State.flushBytes_of_zero hrun, List.length_nil]
  have hcount : e.byteCount.toNat = 14 := by rw [hbytes]; rfl
  have hleft : e.n - e.pixCount.toNat = s.width.toNat * s.height.toNat := by rw [hzero, hn, Nat.sub_zero]
  have hwidth : e.pixelWidth = pixelSize s.channels := by rw [State.pixelWidth, hconfig.channels]; rfl
  refine ⟨e, hstep, ⟨first.turns, ?_, hmode, ?_, ?_, ?_, ?_, ?_, ?_⟩, hqueue, first, hout⟩
  · rw [hphase, hzero, hn]
    exact if_congr eq_comm rfl rfl
  · rw [hn]
    omega
  · rw [first.run]
    decide
  · rw [hzero]
    exact Nat.zero_le _
  · rw [hqueue, hleft, hwidth]
    exact hlength
  · rw [hflush, hleft, heroom]
    omega
  · rw [hflush, hleft, hcount]
    omega

/-- The header step of a decode pass of a written header (R192, R129). -/
theorem decodeHeader_written {p : Params} {d : State} {h : Header} {room : Nat} (hfree : d.phase.busy = false)
    (hchannels : h.channels = 3 ∨ h.channels = 4)
    (hlimit : h.width.toNat * h.height.toNat * h.channels.toNat ≤ p.maxBufferBytes)
    (hroom : h.width.toNat * h.height.toNat * h.channels.toNat ≤ room) (hfits : h.width.toNat * h.height.toNat < 2 ^ 64)
    (rest : List Byte) (inEnd : Bool) :
    ∃ d', stepWith p (d.started 3 (headerBytesOf p h ++ rest) inEnd room) = .next d' ∧ Decoding d' rest ∧
      AtFirstPixel d' h ∧ d'.out = [] := by
  have hlen : 14 ≤ (headerBytesOf p h ++ rest).length := by
    rw [List.length_append]
    exact Nat.le_add_right _ _
  rw [State.started_eq hfree (by decide)]
  obtain ⟨hparsed, -, -⟩ := decodeHeaderStep p (d.passStart .decode (headerBytesOf p h ++ rest) inEnd room) rfl rfl rfl
    (show 0 + 14 < 2 ^ 64 by decide)
  obtain ⟨d', hstep, hw, hh, hc, hcs, hn, hphase, hbytes, hqueue, hout, hdroom, hprev, hcache, hrun, hpix, hmode, -, -,
    -, hhost⟩ := hparsed h hlen (headerSymmetry p h hchannels hlimit)
  have first : AtFirstPixel d' h := ⟨hhost.turns, hprev, hcache, hrun, hpix, hbytes, hn, by rw [hw, hh, hc, hcs]⟩
  have hzero : d'.pixCount.toNat = 0 := by rw [hpix]; rfl
  refine ⟨d', hstep, ⟨first.turns, ?_, hmode, hn ▸ hfits, hqueue, ?_⟩, first, hout⟩
  · rw [hphase, hzero, hn]
    exact if_congr eq_comm rfl rfl
  · have hwidth : d'.pixelWidth = h.channels.toNat := by
      rw [State.pixelWidth, hc]
      exact pixelSize_legal hchannels
    rw [hzero, hn, hwidth, hdroom]
    exact hroom

/-- Right after the two header steps the decoder follows the encoder. -/
theorem AtFirstPixel.follows {e d : State} {h : Header} {queue : List Byte} (he : AtFirstPixel e h)
    (hd : AtFirstPixel d h) (hout : d.out = []) (ready : Decoding d queue) : Follows e d [] queue where
  toDecoding := ready
  prev := hd.prev.trans he.prev.symm
  cache := hd.cache.trans he.cache.symm
  n := hd.n.trans he.n.symm
  channels := congrArg Header.channels (hd.header.trans he.header.symm)
  pixCount := by rw [he.pixCount, hd.pixCount, he.run]; rfl
  out := by rw [hout, he.run]; rfl
  byteCount := hd.byteCount.trans he.byteCount.symm

/-- A finished decode pass shows its output and the header's fields (R315). -/
theorem State.observe_decoded {d : State} (hphase : d.phase = .done) (hmode : d.mode = .decode) :
    d.observe = some (.decoded d.out ⟨d.width, d.height, d.channels, d.colorspace⟩ d.byteCount) := by
  rw [State.observe, hphase, hmode]

/-- A finished encode pass shows its stream (R315). -/
theorem State.observe_encoded {e : State} (hphase : e.phase = .done) (hmode : e.mode = .encode) :
    e.observe = some (.encoded e.out) := by
  rw [State.observe, hphase, hmode]

/-- Settles O60: the decoder follows the encoder from the two header steps, group by group, to DONE. -/
theorem roundTrip : Obligations.RoundTrip := by
  unfold Obligations.RoundTrip
  intro p s input inEnd room legal hroom
  obtain ⟨e₁, hheader, encoding, hqueue, hfirst, hout₁⟩ := legal.header inEnd hroom
  obtain ⟨e, bytes, hpass, hdone, hmode, hout, hfollow⟩ := encoding.pass (p := p) _ rfl
  obtain ⟨k, hrun⟩ := hpass.run
  refine ⟨k + 1, e, (run_succ hheader k).trans hrun, ?encoded, fun d more inEnd' room' hfree hroom' => ?decoded⟩
  case encoded => exact State.observe_encoded hdone hmode
  case decoded =>
    have hcounter := legal.counter
    have hlength : s.width.toNat * s.height.toNat * s.channels.toNat ≤ room' := by
      rw [← legal.inLen, ← legal.input]
      exact hroom'
    obtain ⟨d₁, hheader', decoding, hfirst', hout'⟩ := decodeHeader_written (p := p) hfree
      (h := ⟨s.width, s.height, s.channels, s.colorspace⟩) legal.channels legal.limit hlength
      (show s.width.toNat * s.height.toNat < 2 ^ 64 by omega) (bytes ++ more) inEnd'
    obtain ⟨d', hpass', hdone', hmode', hout''⟩ := hfollow d₁ [] more (hfirst.follows hfirst' hout' decoding)
    obtain ⟨k', hrun'⟩ := hpass'.run
    have hconfig := hpass'.sameConfig
    refine ⟨k' + 1, d', d'.byteCount, ?_, ?_⟩
    · rw [hout, hout₁, List.append_assoc, run_succ hheader' k', hrun']
    · rw [State.observe_decoded hdone' hmode', hout'', hqueue, hconfig.width, hconfig.height, hconfig.channels,
        hconfig.colorspace, hfirst'.header, List.nil_append]

end Sys2Proof.Machine

/-! Encodings both ways (R92 to R102): what is encoded is read back, and what is read is an encoding. -/

namespace Sys2Proof

/-- A byte is its class before its payload (R91). -/
theorem classOf_append_payloadOf (b0 : Byte) : classOf b0 ++ payloadOf b0 = b0 :=
  (BitVec.extractLsb'_append_extractLsb'_eq_extractLsb' (by decide)).trans BitVec.extractLsb'_eq_self

/-- LUMA's second byte is its two nibbles (R95). -/
theorem nibbles_append (b1 : Byte) : b1.extractLsb' 4 4 ++ b1.extractLsb' 0 4 = b1 :=
  (BitVec.extractLsb'_append_extractLsb'_eq_extractLsb' (by decide)).trans BitVec.extractLsb'_eq_self

/-- A DIFF payload is its three fields (R94). -/
theorem diffFields_append (b0 : Byte) :
    classOf b0 ++ b0.extractLsb' 4 2 ++ b0.extractLsb' 2 2 ++ b0.extractLsb' 0 2 = b0 := by
  revert b0
  decide

/-- The payload of a class 11 byte that is no tag is a stored run length (R96). -/
theorem payloadOf_le_of_untagged {b0 : Byte} (hclass : classOf b0 = 0b11) (hFE : b0 ≠ 0xFE) (hFF : b0 ≠ 0xFF) :
    (payloadOf b0).toNat ≤ 61 := by
  revert b0
  decide

/-- The four classes are all there are. -/
theorem classOf_cases (b0 : Byte) : classOf b0 = 0b00 ∨ classOf b0 = 0b01 ∨ classOf b0 = 0b10 ∨ classOf b0 = 0b11 := by
  generalize classOf b0 = c
  revert c
  decide


/-- A group is read only where all its bytes are there (R92). -/
theorem groupLength_le_of_decodeGroup {b0 : Byte} {ops rest : List Byte} {i : Instr}
    (h : decodeGroup (b0 :: ops) = .ok (i, rest)) : groupLength b0 ≤ ops.length + 1 := by
  by_contra hshort
  rw [decodeGroup_short b0 ops (not_le.1 hshort)] at h
  nomatch h

/-- What is read from a first byte and the bytes after it is a group with its encoding, class by class and tag by tag. -/
theorem encode_of_decodeGroup {bytes rest : List Byte} {i : Instr} (h : decodeGroup bytes = .ok (i, rest)) :
    i.wf = true ∧ bytes = encode i ++ rest := by
  rcases bytes with _ | ⟨b0, ops⟩
  · nomatch h
  have hlen := groupLength_le_of_decodeGroup h
  have read {j : Instr} {after : List Byte} (hj : decodeGroup (b0 :: ops) = .ok (j, after)) : j = i ∧ after = rest :=
    Prod.mk.inj (Except.ok.inj (hj.symm.trans h))
  by_cases hFE : b0 = 0xFE
  · subst hFE
    match ops, hlen with
    | r :: g :: b :: after, _ => obtain ⟨rfl, rfl⟩ := read rfl; exact ⟨rfl, rfl⟩
  by_cases hFF : b0 = 0xFF
  · subst hFF
    match ops, hlen with
    | r :: g :: b :: a :: after, _ => obtain ⟨rfl, rfl⟩ := read rfl; exact ⟨rfl, rfl⟩
  have hbyte := classOf_append_payloadOf b0
  obtain hclass | hclass | hclass | hclass := classOf_cases b0
  · obtain ⟨rfl, rfl⟩ := read ((indexGroup hclass).2 ops)
    rw [hclass] at hbyte
    exact ⟨rfl, congrArg (· :: ops) hbyte.symm⟩
  · obtain ⟨rfl, rfl⟩ := read ((diffGroup hclass).2 ops)
    have hfields := diffFields_append b0
    rw [hclass] at hfields
    exact ⟨rfl, congrArg (· :: ops) hfields.symm⟩
  · obtain ⟨hlength, hdecode⟩ := lumaGroup hclass
    rw [hlength] at hlen
    match ops, hlen with
    | b1 :: after, _ =>
      obtain ⟨rfl, rfl⟩ := read (hdecode b1 after)
      rw [hclass] at hbyte
      exact ⟨rfl, congrArg₂ (· :: · :: after) hbyte.symm (nibbles_append b1).symm⟩
  · obtain ⟨rfl, rfl⟩ := read ((runGroup hclass hFE hFF).2 ops)
    rw [hclass] at hbyte
    exact ⟨decide_eq_true (payloadOf_le_of_untagged hclass hFE hFF), congrArg (· :: ops) hbyte.symm⟩

/-- Settles O2: what is read is a group, with its encoding before the bytes left. -/
theorem encodeOfDecode : Obligations.EncodeOfDecode := by
  unfold Obligations.EncodeOfDecode
  intro bytes rest i h
  obtain ⟨hwf, hbytes⟩ := encode_of_decodeGroup h
  exact ⟨hwf, decodeGroup_not_endMarker h, hbytes⟩

/-- Settles O1: the marker is read at its own place, and every group from its own bytes. -/
theorem decodeOfEncode : Obligations.DecodeOfEncode := by
  unfold Obligations.DecodeOfEncode
  intro i rest hwf
  cases i with
  | endMarker => rfl
  | _ => exact Machine.decodeGroup_encode hwf nofun rest

/-- Settles O4: the decoder computes each of them. -/
theorem sampleWordsDecode : Obligations.SampleWordsDecode := by
  unfold Obligations.SampleWordsDecode
  exact ⟨rfl, rfl, rfl, rfl, rfl, rfl, rfl, rfl⟩

end Sys2Proof

/-! Instructions in an encode pass (R238 to R249): each gives its encoding, and the decision chain runs the one it picks. -/

namespace Sys2Proof.Machine

section
variable {s : State} (hmode : s.mode = .encode)
include hmode

/-- INDEX in an encode pass (R239). -/
theorem exec_index_encode (k : BitVec 6) : exec (.index k) s = .next (s.outBytes (encode (.index k))) := by
  simp only [exec, execIndex, hmode, emitIndex, State.outByte_eq, encode_index]

/-- RUN in an encode pass (R238, R248). -/
theorem exec_run_encode (len : BitVec 6) :
    exec (.run len) s = .next { s.outBytes (encode (.run len)) with run := 0 } := by
  simp only [exec, execRun, hmode, emitRun, State.outByte_eq, packRun_eq, encode]

/-- END in an encode pass (R249). -/
theorem exec_endMarker_encode : exec .endMarker s = .next { s.outBytes (encode .endMarker) with phase := .done } := by
  simp only [exec, execEndMarker, hmode, emitEnd, encode]

/-- The four emission rules that write the cache are one: the encoding, then `UpdateCache(new)` (R240 to R245). -/
theorem exec_encode_of_cachedPixel {i : Instr} {new : Pixel} (hnew : cachedPixel i s.prev = some new) :
    exec i s = .next ((s.outBytes (encode i)).updateCache new) := by
  cases i with
  | index k => nomatch hnew
  | run len => nomatch hnew
  | endMarker => nomatch hnew
  | diff fr fg fb =>
    obtain rfl := Option.some.inj hnew
    simp only [exec, execDiff, hmode, emitDiff, State.outByte_eq, packDiff_eq, encode]
  | luma fdg fdr fdb =>
    obtain rfl := Option.some.inj hnew
    simp only [exec, execLuma, hmode, emitLuma, packLumaFirst_eq, packLumaSecond_eq, encode]
  | rgb r g b =>
    obtain rfl := Option.some.inj hnew
    simp only [exec, execRgb, hmode, emitRgb, encode]
  | rgba r g b a =>
    obtain rfl := Option.some.inj hnew
    simp only [exec, execRgba, hmode, emitRgba, encode]

end

/-- Giving bytes in an encode pass, with any new cache, `RUN` and phase, leaves the rest. -/
theorem SameRest.outBytes (s : State) (vs : List Byte) (r : BitVec 6) (c : Vector Pixel 64) (ph : Phase) :
    SameRest s { s.outBytes vs with run := r, cache := c, phase := ph } :=
  ⟨rfl, rfl, rfl, rfl, ⟨rfl, rfl, rfl, rfl, rfl, rfl⟩, ⟨rfl, rfl, rfl⟩, ⟨rfl, rfl, rfl⟩⟩

/-- Settles O25: each instruction gives its encoding, and writes the cache, clears `RUN` or ends the pass as its rule says. -/
theorem encodeModeEmitsEncoding : Obligations.EncodeModeEmitsEncoding := by
  unfold Obligations.EncodeModeEmitsEncoding
  intro i s hmode
  have hcount (r : BitVec 6) (c : Vector Pixel 64) (ph : Phase) :
      ({ s.outBytes (encode i) with run := r, cache := c, phase := ph } : State).byteCount =
        s.byteCount + BitVec.ofNat 64 (lengthBytes i) := by
    rw [← encode_length]
    exact State.outBytes_byteCount_encode _ _ hmode
  cases hcached : cachedPixel i s.prev with
  | some new =>
    have hexec := exec_encode_of_cachedPixel hmode hcached
    have hrun : ∀ len, i ≠ .run len := by rintro len rfl; nomatch hcached
    have hend : i ≠ .endMarker := by rintro rfl; nomatch hcached
    exact ⟨_, hexec, rfl, hcount _ _ _,
      fun new' h => Option.some.inj h ▸ State.updateCache_slotWritten s _ new rfl, nofun,
      fun ⟨len, h⟩ => absurd h (hrun len), fun _ => rfl, fun h => absurd h hend, fun _ => rfl, rfl, rfl,
      SameRest.outBytes s _ _ _ _⟩
  | none =>
    cases i with
    | index k =>
      exact ⟨_, exec_index_encode hmode k, rfl, hcount _ _ _, nofun, fun _ => rfl, nofun, fun _ => rfl, nofun, fun _ => rfl,
        rfl, rfl, SameRest.outBytes s _ _ _ _⟩
    | run len =>
      exact ⟨_, exec_run_encode hmode len, rfl, hcount _ _ _, nofun, fun _ => rfl, fun _ => rfl,
        fun h => absurd rfl (h len), nofun, fun _ => rfl, rfl, rfl, SameRest.outBytes s _ _ _ _⟩
    | endMarker =>
      exact ⟨_, exec_endMarker_encode hmode, rfl, hcount _ _ _, nofun, fun _ => rfl, nofun, fun _ => rfl, fun _ => rfl,
        fun h => absurd rfl h, rfl, rfl, SameRest.outBytes s _ _ _ _⟩
    | diff _ _ _ => nomatch hcached
    | luma _ _ _ => nomatch hcached
    | rgb _ _ _ => nomatch hcached
    | rgba _ _ _ _ => nomatch hcached

/-- Settles O35: on a hit both give the slot's INDEX; on a miss the group stands for the pixel whose slot the chain writes. -/
theorem chainRunsChosenGroup : Obligations.ChainRunsChosenGroup := by
  unfold Obligations.ChainRunsChosenGroup
  intro s new hmode _
  refine ⟨(s.chosenGroup_wf new).1, ?_⟩
  by_cases hhit : s.readCache (pixelHash new) = new
  · rw [encodeChanged_hit hhit, s.chosenGroup_hit hhit, exec_index_encode hmode]
  · obtain ⟨hchain, hcached⟩ := encodeChanged_miss hhit
    rw [hchain, exec_encode_of_cachedPixel hmode hcached]

/-- Settles O26: the decoder's arm of END is the state itself. -/
theorem endMarkerIgnoredByDecoder : Obligations.EndMarkerIgnoredByDecoder := by
  unfold Obligations.EndMarkerIgnoredByDecoder
  intro s hmode
  simp only [exec, execEndMarker, hmode]

end Sys2Proof.Machine

/-! The register block and reset (R32 to R47, R300 to R302): what each register reads as and what each write does. -/

namespace Sys2Proof.Machine

/-- Settles O47: constructor by constructor. -/
theorem codeNumbers : Obligations.CodeNumbers := by
  unfold Obligations.CodeNumbers
  exact ⟨fun c => by cases c <;> decide, fun ph => by cases ph <;> decide, rfl, rfl⟩

/-! ### The values of the registers -/

theorem toNat_loWord (v : Count) : (loWord v).toNat = v.toNat % 2 ^ 32 := by
  simp [loWord]

theorem toNat_hiWord (v : Count) : (hiWord v).toNat = v.toNat / 2 ^ 32 := by
  have := v.isLt
  simp only [hiWord, extractLsb'_eq_ofNat, BitVec.toNat_ofNat]
  omega

/-- Two fields side by side, as a number. -/
theorem toNat_append_add {n m : Nat} (x : BitVec n) (y : BitVec m) : (x ++ y).toNat = x.toNat * 2 ^ m + y.toNat := by
  rw [BitVec.toNat_append, ← Nat.shiftLeft_add_eq_or_of_lt y.isLt, Nat.shiftLeft_eq]

theorem hiWord_append (hi lo : Word) : hiWord (hi ++ lo) = hi := BitVec.extractLsb'_append_eq_left

theorem loWord_append (hi lo : Word) : loWord (hi ++ lo) = lo := BitVec.extractLsb'_append_eq_right

/-! The flags of STATUS as numbers (R34). -/

theorem toNat_busy (ph : Phase) :
    (BitVec.ofBool ph.busy).toNat = if ph = .header ∨ ph = .body ∨ ph = .final then 1 else 0 := by
  cases ph <;> rfl

theorem toNat_isDone (ph : Phase) : (BitVec.ofBool ph.isDone).toNat = if ph = .done then 1 else 0 := by
  cases ph <;> rfl

theorem toNat_isError (ph : Phase) : (BitVec.ofBool ph.isError).toNat = if ph = .error then 1 else 0 := by
  cases ph <;> rfl

theorem toNat_runActive (s : State) : (BitVec.ofBool s.runActive).toNat = if s.run = 0 then 0 else 1 := by
  by_cases h : s.run = 0
  · rw [if_pos h, State.runActive, h]
    rfl
  · have hpos : 0 < s.run.toNat := Nat.pos_of_ne_zero fun h0 => h (BitVec.eq_of_toNat_eq h0)
    rw [if_neg h, State.runActive, decide_eq_true hpos]
    rfl

/-! The registers of several fields. -/

section
variable (s : State)

theorem toNat_ctrl : s.ctrl.toNat = 2 * (if s.ctrlMode = .decode then 1 else 0) := by
  show BitVec.toNat (w := 30 + 1 + 1) (0#30 ++ s.ctrlMode.code ++ 0#1) = _
  rw [toNat_append_add, toNat_append_add]
  cases s.ctrlMode <;> rfl

theorem toNat_status :
    s.status.toNat =
      (if s.phase = .header ∨ s.phase = .body ∨ s.phase = .final then 1 else 0) +
      2 * (if s.phase = .done then 1 else 0) + 4 * (if s.phase = .error then 1 else 0) +
      8 * (if s.run = 0 then 0 else 1) + 16 * s.phase.code.toNat := by
  show BitVec.toNat (w := 25 + 3 + 1 + 1 + 1 + 1) (0#25 ++ s.phase.code ++ BitVec.ofBool s.runActive ++
    BitVec.ofBool s.phase.isError ++ BitVec.ofBool s.phase.isDone ++ BitVec.ofBool s.phase.busy) = _
  rw [toNat_append_add, toNat_append_add, toNat_append_add, toNat_append_add, toNat_append_add, BitVec.toNat_zero,
    toNat_busy, toNat_isDone, toNat_isError, toNat_runActive]
  omega

theorem toNat_err : s.err.toNat = s.errCode.code.toNat + 256 * s.errCause.code.toNat := by
  show BitVec.toNat (w := 20 + 4 + 4 + 4) (0#20 ++ s.errCause.code ++ 0#4 ++ s.errCode.code) = _
  rw [toNat_append_add, toNat_append_add, toNat_append_add, BitVec.toNat_zero, BitVec.toNat_zero]
  omega

theorem toNat_format : s.format.toNat = s.channels.toNat + 256 * s.colorspace.toNat := by
  show BitVec.toNat (w := 16 + 8 + 8) (0#16 ++ s.colorspace ++ s.channels) = _
  rw [toNat_append_add, toNat_append_add, BitVec.toNat_zero]
  omega

theorem toNat_runLen : (0#26 ++ s.run).toNat = s.run.toNat := by
  rw [toNat_append_add, BitVec.toNat_zero, Nat.zero_mul, Nat.zero_add]

end

/-- Settles O44: each register's fields, side by side, as numbers. -/
theorem registerReads : Obligations.RegisterReads := by
  unfold Obligations.RegisterReads
  intro s
  refine ⟨toNat_ctrl s, toNat_status s, toNat_err s, rfl, rfl, toNat_format s, toNat_loWord _, toNat_hiWord _,
    toNat_loWord _, toNat_hiWord _, toNat_loWord _, toNat_hiWord _, toNat_loWord _, toNat_hiWord _, toNat_runLen s,
    fun off hoff => ?_⟩
  have hreg : regAt off = .reserved := by
    obtain rfl | h := hoff
    · rfl
    · exact regAt_reserved h
  rw [hreg]
  rfl

/-- Settles O48: every field of the reset state is clear, and so is every register made of them. -/
theorem powerOnValues : Obligations.PowerOnValues := by
  unfold Obligations.PowerOnValues
  refine ⟨rfl, rfl, rfl, rfl, rfl, rfl, rfl, rfl, rfl, rfl, rfl, rfl, rfl, rfl, fun off => ?_⟩
  cases regAt off <;> rfl

/-- The state after a reset is the power-on state for all a register shows. -/
theorem readReg_doReset (r : Reg) (s : State) : readReg r s.doReset = readReg r State.reset := by
  cases r <;> rfl

/-- Settles O49: the host's move is the reset itself, and the registers are those of power-on. -/
theorem resetFromAnyPhase : Obligations.ResetFromAnyPhase := by
  unfold Obligations.ResetFromAnyPhase
  intro s hturn
  obtain ⟨-, -, -, -, -, -, -, -, -, -, -, -, -, -, hregs⟩ := powerOnValues
  exact ⟨s.afterTurn.doReset, stepWith_host _ s _ hturn, rfl, fun off => (readReg_doReset _ _).trans (hregs off), rfl, rfl,
    rfl, rfl, rfl, rfl, rfl⟩

/-! ### Accesses and writes -/

/-- Settles O46: inside the window the shape is tested, and an access of any other shape is refused. -/
theorem misshapenAccessRefused : Obligations.MisshapenAccessRefused := by
  unfold Obligations.MisshapenAccessRefused
  intro p s off width v hwindow hshape hturn
  have hreg : regOf p (p.regBase + off) width = .error .accessShape := by
    rw [regOf, if_neg (by omega), if_pos (by rwa [Nat.add_sub_cancel_left])]
  obtain hwrite | hread := hturn
  · rw [stepWith_host p s _ hwrite, hostMove, hreg]
  · rw [stepWith_host p s _ hread, hostMove, hreg]

/-- The registers a write can change (R33, R36 to R39). -/
def writableRegs : List Reg := [.ctrl, .width, .height, .format, .inLenLo, .inLenHi]

theorem writeReg_of_not_writable {r : Reg} (h : r ∉ writableRegs) (v : Word) (s : State) : writeReg r v s = s := by
  have hidle : writeIdle r v s = s := by
    cases r with
    | ctrl | width | height | format | inLenLo | inLenHi => exact absurd (by decide) h
    | _ => rfl
  rw [writeReg, hidle, ite_self]

/-- STATUS, ERR and every register past the configuration are read-only or reserved (R34, R35, R40 to R44). -/
theorem regAt_not_writable {off : Nat} (hoff : off = 0x04 ∨ off = 0x08 ∨ 0x20 ≤ off) : regAt off ∉ writableRegs := by
  have hmap : ∀ off < 0x40, off = 0x04 ∨ off = 0x08 ∨ 0x20 ≤ off → regAt off ∉ writableRegs := by decide
  by_cases h : off < 0x40
  · exact hmap off h hoff
  · rw [regAt_reserved (not_lt.1 h)]
    decide

/-- Settles O45: while not BUSY a write is its register's, and a register's value is made of the fields it sets. -/
theorem configurationReadsBack : Obligations.ConfigurationReadsBack := by
  unfold Obligations.ConfigurationReadsBack
  intro s v hfree
  have hwrite (r : Reg) : writeReg r v s = writeIdle r v s := writeReg_idle r v hfree
  simp only [hwrite]
  refine ⟨fun p off hwindow haligned hturn => stepWith_busWrite hwindow haligned hturn, rfl, rfl, rfl, rfl,
    ⟨_, _, rfl⟩, ?format, ⟨_, rfl⟩, loWord_append _ _, hiWord_append _ _, ⟨_, rfl⟩, hiWord_append _ _,
    loWord_append _ _, fun off hoff => ?readOnly⟩
  case format =>
    refine (toNat_format _).trans ?_
    show (v.extractLsb' 0 8).toNat + 256 * (v.extractLsb' 8 8).toNat = v.toNat % 2 ^ 16
    simp only [extractLsb'_eq_ofNat, BitVec.toNat_ofNat]
    omega
  case readOnly => rw [← hwrite, writeReg_of_not_writable (regAt_not_writable hoff)]

/-- Settles O42: CTRL is the block's first word; its write is a START, a change of the mode bit, or ignored. -/
theorem ctrlWrites : Obligations.CtrlWrites := by
  unfold Obligations.CtrlWrites
  intro p s v hturn
  have hstep : stepWith p s = .next (writeReg .ctrl v s.afterTurn) := by
    rw [stepWith_host p s _ hturn, hostMove_write (regOf_base p)]
  rw [hstep]
  refine ⟨fun hfree hstart => ?start, fun hfree hstart => ?mode, fun hbusy => ?busy⟩
  case start =>
    rw [writeReg_idle (s := s.afterTurn) _ _ hfree, writeIdle, writeCtrl, if_pos hstart]
    exact ⟨_, rfl, rfl, rfl, rfl, rfl, State.readCache_initCache _ rfl, rfl, rfl, rfl, rfl, rfl, rfl, rfl, rfl, rfl, rfl,
      rfl, rfl, rfl, rfl, rfl, rfl, rfl⟩
  case mode =>
    rw [writeReg_idle (s := s.afterTurn) _ _ hfree, writeIdle, writeCtrl, if_neg (by rw [hstart]; nofun)]
    rfl
  case busy => rw [writeReg_busy (s := s.afterTurn) _ _ hbusy]

/-- Settles O41: each is one of the host's moves, refused after end of input. -/
theorem hostFeedsChannels : Obligations.HostFeedsChannels := by
  unfold Obligations.HostFeedsChannels
  intro s
  refine ⟨fun b hturn hend => ?supply, fun hturn hend => ?endInput, fun k hturn => ?accept, fun b hturn hend => ?refused⟩
  case supply =>
    refine (stepWith_host _ s _ hturn).trans ?_
    simp only [hostMove, State.afterTurn_inEnd, hend, Bool.false_eq_true, if_false, State.afterTurn_inQueue]
  case endInput =>
    refine (stepWith_host _ s _ hturn).trans ?_
    simp only [hostMove, State.afterTurn_inEnd, hend, Bool.false_eq_true, if_false]
  case accept => exact stepWith_host _ s _ hturn
  case refused =>
    obtain hturn | hturn := hturn
    · refine (stepWith_host _ s _ hturn).trans ?_
      simp only [hostMove, State.afterTurn_inEnd, hend, if_true]
    · refine (stepWith_host _ s _ hturn).trans ?_
      simp only [hostMove, State.afterTurn_inEnd, hend, if_true]

end Sys2Proof.Machine

/-! The core's turn (R62, R63, R190, R234, R312): where it changes nothing, where it raises, and the output channel's gate. -/

namespace Sys2Proof.Machine

/-! ### The written header -/

/-- The bytes of a word as numbers, most significant first (R67). -/
theorem map_toNat_be32 (v : Word) :
    (be32 v).map BitVec.toNat =
      [v.toNat / 2 ^ 24, v.toNat / 2 ^ 16 % 256, v.toNat / 2 ^ 8 % 256, v.toNat % 256] := by
  simp only [be32, List.map_cons, List.map_nil, extractLsb'_eq_ofNat, BitVec.toNat_ofNat, List.cons.injEq, and_true]
  omega

/-- A line is legal where its first operand fits its field and the rest of the line is legal. -/
theorem asmField_bind_isSome {bits : Nat} {v : Int} {α : Type} (f : BitVec bits → Option α) :
    ((asmField bits 0 v).bind f).isSome = true ↔
      (0 ≤ v ∧ v < 2 ^ bits) ∧ (f (BitVec.ofInt bits v)).isSome = true := by
  by_cases hv : 0 ≤ v ∧ v < 2 ^ bits
  · rw [asmField_some (by rwa [add_zero]), Option.bind_some, add_zero]
    exact (and_iff_right hv).symm
  · rw [asmField_none (by rwa [add_zero]), Option.bind_none]
    exact iff_of_false nofun fun h => hv h.1

/-- A HEADER line is legal where each operand fits its field. -/
theorem assemble_header_isSome (p : Params) (w h c cs : Int) :
    (assemble p (.header w h c cs)).isSome = true ↔
      (0 ≤ w ∧ w < 2 ^ 32) ∧ (0 ≤ h ∧ h < 2 ^ 32) ∧ (0 ≤ c ∧ c < 2 ^ 8) ∧ (0 ≤ cs ∧ cs < 2 ^ 8) := by
  simp only [assemble, Option.bind_eq_bind, asmField_bind_isSome, Option.isSome_some, and_true]

/-- Settles O14: the header is three words and two bytes, and HEADER's operands are taken one after the other. -/
theorem writeHeaderBytes : Obligations.WriteHeaderBytes := by
  unfold Obligations.WriteHeaderBytes
  refine ⟨fun p h => ?_, assemble_header_isSome⟩
  rw [headerBytesOf, List.map_append, List.map_append, List.map_append, map_toNat_be32, map_toNat_be32, map_toNat_be32]
  rfl

/-! ### Turns that change nothing -/

/-- Where the core's action is to do nothing, its turn changes nothing. -/
theorem step_of_holds {s : State} (hturn : s.coreTurn = true)
    (haction : coreAction Config.params s.afterTurn = .next s.afterTurn) : step s = .next s.afterTurn :=
  stepWith_of_quiet 0 hturn s.byteCount.isLt haction rfl rfl (BitVec.add_zero _).symm

/-- Outside a pass the core's action is to do nothing (R280, R284, R305). -/
theorem coreAction_outside (p : Params) {s : State} (hphase : s.phase = .idle ∨ s.phase = .done ∨ s.phase = .error) :
    coreAction p s = .next s := by
  obtain hphase | hphase | hphase := hphase <;> simp only [coreAction, hphase]

/-- Settles O27: the core's action is to do nothing there. -/
theorem nothingRunsOutsideAPass : Obligations.NothingRunsOutsideAPass := by
  unfold Obligations.NothingRunsOutsideAPass
  intro s hturn hphase
  exact step_of_holds hturn (coreAction_outside _ hphase)

section
variable {s : State}

theorem coreAction_body_encode {p : Params} (hphase : s.phase = .body) (hmode : s.mode = .encode) :
    coreAction p s = .next (pixelStep s) := by
  simp only [coreAction, hphase, hmode]

theorem coreAction_final_encode {p : Params} (hphase : s.phase = .final) (hmode : s.mode = .encode) :
    coreAction p s = finalStep s := by
  simp only [coreAction, hphase, hmode]

theorem decodeStep_of_group {i : Instr} {rest : List Byte} (hwanted : s.pixCount.toNat < s.n)
    (hdecode : decodeGroup s.inQueue = .ok (i, rest)) : decodeStep s = execGroup i (s.takeInput (lengthBytes i)) := by
  simp only [decodeStep, if_pos hwanted, decodeAt, hdecode]

/-- A group's bytes are not all there: none is, or the first says that more belong to it (R92). -/
theorem decodeStep_of_missing (hwanted : s.pixCount.toNat < s.n) (hend : s.inEnd = false)
    (hmissing : s.inQueue = [] ∨ ∃ b0 ops, s.inQueue = b0 :: ops ∧ s.inQueue.length < groupLength b0) :
    decodeStep s = .next s := by
  obtain hqueue | ⟨b0, ops, hqueue, hshort⟩ := hmissing
  · simp only [decodeStep, if_pos hwanted, hqueue, decodeAt, decodeGroup, hend, Bool.false_eq_true, if_false]
  · have hdecode : decodeAt .groups s.inQueue = .error .operandShort := by
      rw [hqueue] at hshort ⊢
      exact decodeGroup_short b0 ops hshort
    simp only [decodeStep, if_pos hwanted, hdecode, hend, Bool.false_eq_true, if_false]

theorem pixelStep_of_missing (hwanted : s.pixCount.toNat < s.n) (hmissing : s.inQueue.length < pixelSize s.channels) :
    pixelStep s =
      if s.inEnd then (s.takeInput s.inQueue.length).raise .inputShort (s.pixCount * s.channels.zeroExtend 64) else s := by
  simp only [pixelStep, if_pos hwanted, s.nextPixel_none.2 hmissing]

theorem decodeHeader_of_missing {p : Params} (hlen : s.inQueue.length < 14) (hend : s.inEnd = false) :
    decodeHeader p s = s := by
  simp only [decodeHeader, headerBytes, if_neg hlen.not_ge, hend, Bool.false_eq_true, if_false]

end

/-- Settles O39: in each of the four places the core's action is to do nothing. -/
theorem coreHoldsForInput : Obligations.CoreHoldsForInput := by
  unfold Obligations.CoreHoldsForInput
  intro s hturn hend hplace
  refine step_of_holds hturn ?_
  obtain ⟨hphase, hmode, hlen⟩ | ⟨hphase, hmode, hwanted, hqueue⟩ | ⟨hphase, hmode, hwanted, hshort⟩ |
    ⟨hphase, hmode, hwanted, hshort⟩ := hplace
  · rw [coreAction_header_decode (s := s.afterTurn) hphase hmode, decodeHeader_of_missing (s := s.afterTurn) hlen hend]
  · rw [coreAction_body_decode (s := s.afterTurn) hphase hmode,
      decodeStep_of_missing (s := s.afterTurn) hwanted hend (.inl hqueue)]
  · rw [coreAction_body_decode (s := s.afterTurn) hphase hmode,
      decodeStep_of_missing (s := s.afterTurn) hwanted hend (.inr hshort)]
  · rw [coreAction_body_encode (s := s.afterTurn) hphase hmode, pixelStep_of_missing (s := s.afterTurn) hwanted hshort,
      State.afterTurn_inEnd, hend]
    rfl

/-- Settles O36: the bytes of the cut-short pixel are taken, none is given, and the position does not wrap. -/
theorem inputShortRaised : Obligations.InputShortRaised := by
  unfold Obligations.InputShortRaised
  intro s hturn hphase hmode hwanted hchannels hshort hend hpos
  have hmissing : s.inQueue.length < pixelSize s.channels := by rwa [pixelSize_legal hchannels]
  have hposition : s.pixCount * s.channels.zeroExtend 64 = BitVec.ofNat 64 (s.pixCount.toNat * s.channels.toNat) := by
    apply BitVec.eq_of_toNat_eq
    have hwide : (s.channels.zeroExtend 64).toNat = s.channels.toNat := by
      have := s.channels.isLt
      simp only [BitVec.truncate_eq_setWidth, BitVec.toNat_setWidth]
      omega
    rw [BitVec.toNat_mul, BitVec.toNat_ofNat, hwide]
  have haction : coreAction Config.params s.afterTurn = .next ((s.afterTurn.takeInput s.inQueue.length).raise .inputShort
      (BitVec.ofNat 64 (s.pixCount.toNat * s.channels.toNat))) := by
    rw [coreAction_body_encode (s := s.afterTurn) hphase hmode, pixelStep_of_missing (s := s.afterTurn) hwanted hmissing,
      ← hposition, if_pos (show s.afterTurn.inEnd = true from hend)]
    rfl
  have hbytes : (s.afterTurn.takeInput s.inQueue.length).byteCount = s.byteCount :=
    State.takeInput_byteCount_encode _ _ hmode
  exact ⟨_, stepWith_of_quiet 0 hturn s.byteCount.isLt haction rfl rfl (hbytes.trans (BitVec.add_zero _).symm),
    raises_of s _ _ _ rfl rfl rfl rfl rfl rfl rfl rfl ⟨rfl, rfl, rfl, rfl, rfl, rfl⟩ ⟨rfl, rfl, rfl⟩, hbytes,
    List.drop_length⟩

/-- Settles O23: the bytes read are the instruction's encoding, and the step's parts are those of R190 and R249. -/
theorem stepRunsDecodedGroup : Obligations.StepRunsDecodedGroup := by
  unfold Obligations.StepRunsDecodedGroup
  refine ⟨fun s i rest hturn hphase hmode hwanted hdecode => ?group, fun s hturn hphase hmode => ?final⟩
  case group =>
    obtain ⟨hwf, hqueue⟩ := encode_of_decodeGroup hdecode
    refine ⟨hwf, ?_, ?_⟩
    · rw [State.takeInput_inQueue, State.afterTurn_inQueue, hqueue, ← encode_length, List.drop_left]
    · obtain ⟨t, hexec⟩ := exec_next i (s.afterTurn.takeInput (lengthBytes i))
      have haction : coreAction Config.params s.afterTurn = .next (finishAtN t) := by
        rw [coreAction_body_decode (s := s.afterTurn) hphase hmode,
          decodeStep_of_group (s := s.afterTurn) hwanted hdecode, execGroup, hexec]
      simp only [step_core s hturn, coreStep_of_next haction, hexec]
  case final =>
    obtain ⟨t, hexec⟩ := exec_next .endMarker (flushRun s.afterTurn)
    have haction : coreAction Config.params s.afterTurn = .next t :=
      (coreAction_final_encode (s := s.afterTurn) hphase hmode).trans hexec
    simp only [step_core s hturn, coreStep_of_next haction, hexec]

/-! ### The gate -/

/-- A turn of the core appends bytes to the output, no more than the host is ready for, and uses up so much readiness. -/
theorem CoreMove.appends {p : Params} {s t : State} (move : CoreMove p s t) :
    ∃ bytes, t.out = s.out ++ bytes ∧ bytes.length ≤ s.outRoom ∧ t.outRoom = s.outRoom - bytes.length := by
  have silent {u : State} (hout : u.out = s.out) (hroom : u.outRoom = s.outRoom) :
      ∃ bytes, u.out = s.out ++ bytes ∧ bytes.length ≤ s.outRoom ∧ u.outRoom = s.outRoom - bytes.length :=
    ⟨[], by rw [hout, List.append_nil], Nat.zero_le _, hroom⟩
  cases move with
  | stay => exact silent rfl rfl
  | header => exact silent rfl rfl
  | raised => exact silent rfl rfl
  | written _ _ hchecks hroom =>
    refine ⟨headerBytesOf p ⟨s.width, s.height, s.channels, s.colorspace⟩, ?_, hroom, rfl⟩
    rw [encodeHeader_of_legal hchecks]
    rfl
  | group i rest new c k _ _ _ _ _ _ _ _ _ hroom =>
    rw [← runBytes_length s.channels new k] at hroom ⊢
    exact ⟨_, rfl, hroom, rfl⟩
  | pixel new bytes r c _ _ _ _ _ hroom => exact ⟨bytes, rfl, hroom, rfl⟩
  | final bytes _ _ _ hroom => exact ⟨bytes, rfl, hroom, rfl⟩

/-- Settles O40: the gate holds or takes the action's result, and every action appends to the output. -/
theorem outputIsGated : Obligations.OutputIsGated := by
  unfold Obligations.OutputIsGated
  intro s hturn
  rw [step_core s hturn]
  refine ⟨fun u haction => ⟨fun hroom => ?held, fun hroom hcount => ?taken⟩, fun t hstep => ?answers⟩
  case held => exact (coreStep_of_next haction).trans (gate_held s.afterTurn u hroom)
  case taken => exact (coreStep_of_next haction).trans (gate_next s.afterTurn u hroom hcount)
  case answers => exact .inr (coreStep_move hstep).appends

end Sys2Proof.Machine

/-! What every turn keeps: the machine's invariant, the lifecycle, the cache, the configuration and the stream's length (R22 to
R27, R35, R172, R173, R253, R306, R309). -/

namespace Sys2Proof.Machine

/-! ### Everything a host's move can do -/

/-- What the host's move `m` comes to: a reset; a START; a change of the configuration while not BUSY; or a change of the channels'
and the host's own parts alone. -/
inductive HostChange (p : Params) (m : HostMove) (s : State) : State → Prop where
  | reset : m = .reset → HostChange p m s s.doReset
  | start (addr : Nat) (v : Word) : m = .write addr 4 v → v.getLsbD 0 = true → regOf p addr 4 = .ok .ctrl →
      s.phase.busy = false → HostChange p m s { s with ctrlMode := Mode.ofBit (v.getLsbD 1) }.startPass
  | config (mode : Mode) (w h : Word) (c cs : Byte) (len : Count) : s.phase.busy = false →
      HostChange p m s { s with ctrlMode := mode, width := w, height := h, channels := c, colorspace := cs, inLen := len }
  | channels (queue : List Byte) (inEnd : Bool) (room : Nat) (replies : List Word) :
      HostChange p m s { s with inQueue := queue, inEnd := inEnd, outRoom := room, replies := replies }

theorem HostChange.none (p : Params) (m : HostMove) (s : State) : HostChange p m s s :=
  .channels s.inQueue s.inEnd s.outRoom s.replies

/-- Everything a host's move can answer with a next state. -/
theorem hostMove_change {p : Params} {m : HostMove} {s t : State} (h : hostMove p m s = .next t) : HostChange p m s t := by
  cases m with
  | write addr width v =>
    cases hreg : regOf p addr width with
    | error _ => rw [hostMove, hreg] at h; nomatch h
    | ok r =>
      obtain rfl := regOf_width hreg
      obtain rfl := Host.Outcome.next.inj ((hostMove_write hreg v s).symm.trans h)
      obtain hsame | ⟨hfree, rfl, hv, hstart⟩ | ⟨hfree, mode, w, h, c, cs, len, hconfig⟩ := writeReg_cases r v s
      · rw [hsame]; exact .none p _ s
      · rw [hstart]; exact .start addr v rfl hv hreg hfree
      · rw [hconfig]; exact .config mode w h c cs len hfree
  | read addr width =>
    cases hreg : regOf p addr width with
    | error _ => rw [hostMove, hreg] at h; nomatch h
    | ok r =>
      obtain rfl := regOf_width hreg
      obtain rfl := Host.Outcome.next.inj ((hostMove_read hreg s).symm.trans h)
      exact .channels _ _ _ _
  | supply b =>
    rw [hostMove] at h
    split at h
    · nomatch h
    · obtain rfl := Host.Outcome.next.inj h
      exact .channels _ _ _ _
  | endInput =>
    rw [hostMove] at h
    split at h
    · nomatch h
    · obtain rfl := Host.Outcome.next.inj h
      exact .channels _ _ _ _
  | accept count =>
    obtain rfl := Host.Outcome.next.inj h
    exact .channels _ _ _ _
  | reset =>
    obtain rfl := Host.Outcome.next.inj h
    exact .reset rfl

/-- A step is the core's turn or one of the host's moves. -/
theorem step_cases {s t : State} (h : step s = .next t) :
    (s.coreTurn = true ∧ CoreMove Config.params s.afterTurn t) ∨
      ∃ m, s.HostTurn m ∧ HostChange Config.params m s.afterTurn t := by
  obtain hturn | ⟨m, hturn⟩ := s.turn_cases
  · exact .inl ⟨hturn, coreStep_move ((step_core s hturn).symm.trans h)⟩
  · exact .inr ⟨m, hturn, hostMove_change ((stepWith_host _ s m hturn).symm.trans h)⟩

/-- The step of the core's turn. -/
theorem coreMove_of_step {s t : State} (hturn : s.coreTurn = true) (h : step s = .next t) :
    CoreMove Config.params s.afterTurn t := coreStep_move ((step_core s hturn).symm.trans h)

/-- The step of the host's turn. -/
theorem hostChange_of_step {s t : State} {m : HostMove} (hturn : s.HostTurn m) (h : step s = .next t) :
    HostChange Config.params m s.afterTurn t := hostMove_change ((stepWith_host _ s m hturn).symm.trans h)

/-! ### The lifecycle, the cache and the configuration -/

/-- Every core's turn leaves the phase or takes a row of R306's table. -/
theorem CoreMove.coreEdge {p : Params} {s t : State} (move : CoreMove p s t) : t.phase = s.phase ∨ CoreEdge s t := by
  unfold CoreEdge
  cases move with
  | stay => exact .inl rfl
  | header h hphase hmode _ _ _ =>
    by_cases hn : h.width.toNat * h.height.toNat = 0
    · exact .inr <| .inl ⟨hphase, hmode, if_pos hn, hn⟩
    · exact .inr <| .inr <| .inl ⟨hphase, hmode, if_neg hn, Nat.pos_of_ne_zero hn⟩
  | raised _ _ _ hphase _ _ => exact .inr <| .inr <| .inr <| .inr <| .inr <| .inr <| .inr <| .inr <| ⟨hphase, rfl⟩
  | written hphase hmode hchecks _ _ =>
    rw [encodeHeader_of_legal hchecks]
    by_cases hn : s.width.toNat * s.height.toNat = 0
    · exact .inr <| .inr <| .inr <| .inl ⟨hphase, hmode, if_pos hn, hn⟩
    · exact .inr <| .inr <| .inr <| .inr <| .inl ⟨hphase, hmode, if_neg hn, Nat.pos_of_ne_zero hn⟩
  | group i rest new c k hphase hmode _ _ _ _ _ _ _ _ _ =>
    by_cases hn : (s.pixCount + BitVec.ofNat 64 k).toNat = s.n
    · exact .inr <| .inr <| .inr <| .inr <| .inr <| .inl ⟨hphase, hmode, if_pos hn, hn⟩
    · exact .inl ((if_neg hn).trans hphase.symm)
  | pixel new bytes r c hphase hmode _ _ _ _ _ =>
    by_cases hn : (s.pixCount + 1).toNat = s.n
    · exact .inr <| .inr <| .inr <| .inr <| .inr <| .inr <| .inl ⟨hphase, hmode, if_pos hn, hn⟩
    · exact .inl ((if_neg hn).trans hphase.symm)
  | final bytes hphase hmode _ _ _ => exact .inr <| .inr <| .inr <| .inr <| .inr <| .inr <| .inr <| .inl ⟨hphase, hmode, rfl⟩

/-- Settles O52: the core's turns take the table's rows, and of the host's moves a START and a reset alone leave the phase. -/
theorem phaseTransitions : Obligations.PhaseTransitions := by
  unfold Obligations.PhaseTransitions
  intro s t hstep
  refine ⟨fun hturn => (coreMove_of_step hturn hstep).coreEdge, fun m hturn => ?_⟩
  cases hostChange_of_step hturn hstep with
  | reset hm => exact .inl ⟨hm, rfl⟩
  | start addr v hm hv hreg hfree =>
    have hphase : s.phase = .idle ∨ s.phase = .done ∨ s.phase = .error := by
      replace hfree : s.phase.busy = false := hfree
      cases hp : s.phase <;> simp_all [Phase.busy]
    exact .inr (.inr ⟨hphase, rfl, addr, v, hm, hv, hreg⟩)
  | config => exact .inr (.inl rfl)
  | channels => exact .inr (.inl rfl)

/-- Every core's turn leaves the cache or writes one slot, that of the pixel it makes `PREV` (R172). -/
theorem CoreMove.cache_or_slotWritten {p : Params} {s t : State} (move : CoreMove p s t) :
    t.cache = s.cache ∨ SlotWritten s t t.prev := by
  have written {u : State} (hcache : u.cache = s.cache ∨ u.cache = (s.updateCache u.prev).cache) :
      u.cache = s.cache ∨ SlotWritten s u u.prev := hcache.imp_right (State.updateCache_slotWritten s u u.prev)
  cases move with
  | stay => exact .inl rfl
  | header => exact .inl rfl
  | raised => exact .inl rfl
  | written _ _ hchecks => rw [encodeHeader_of_legal hchecks]; exact .inl rfl
  | group i rest new c k _ _ _ _ _ _ _ hc => exact written hc
  | pixel new bytes r c _ _ _ _ hcase =>
    obtain ⟨_, _, _, _, hc⟩ | ⟨_, _, _, _, hc⟩ | ⟨_, _, _, hc⟩ := hcase
    · exact .inl hc
    · exact .inl hc
    · exact written hc
  | final => exact .inl rfl

/-- Settles O54: the core writes at most the slot of `PREV`, and the host's START alone clears the cache. -/
theorem cacheWrittenTwoWays : Obligations.CacheWrittenTwoWays := by
  unfold Obligations.CacheWrittenTwoWays
  intro s t hstep
  refine ⟨fun hturn => ?core, fun m hturn => ?host⟩
  case core =>
    obtain hsame | hslot := (coreMove_of_step hturn hstep).cache_or_slotWritten
    · exact .inl hsame
    · exact .inr ⟨hslot.slot, hslot.others⟩
  case host =>
    cases hostChange_of_step hturn hstep with
    | reset hm => exact .inr (.inl hm)
    | start addr v hm hv hreg hfree =>
      exact .inr (.inr ⟨hfree, rfl, State.readCache_initCache _ rfl, addr, v, hm, hv, hreg⟩)
    | config => exact .inl rfl
    | channels => exact .inl rfl

/-- No core's turn but a decoder's header step changes the configuration, and that one leaves CTRL.MODE and IN_LEN (R192). -/
theorem CoreMove.sameConfig_or_header {p : Params} {s t : State} (move : CoreMove p s t) :
    SameConfig s t ∨ (s.phase = .header ∧ s.mode = .decode ∧ t.ctrlMode = s.ctrlMode ∧ t.inLen = s.inLen) := by
  cases move with
  | header h hphase hmode => exact .inr ⟨hphase, hmode, rfl, rfl⟩
  | written _ _ hchecks => rw [encodeHeader_of_legal hchecks]; exact .inl ⟨rfl, rfl, rfl, rfl, rfl, rfl⟩
  | _ => exact .inl ⟨rfl, rfl, rfl, rfl, rfl, rfl⟩

/-- Settles O55: while BUSY the host's writes are ignored, and of the core's turns the decoder's header step alone writes. -/
theorem configurationFixedWhileBusy : Obligations.ConfigurationFixedWhileBusy := by
  unfold Obligations.ConfigurationFixedWhileBusy
  intro s t hbusy hstep
  obtain ⟨hturn, hmove⟩ | ⟨m, hturn, hchange⟩ := step_cases hstep
  · obtain hsame | ⟨hphase, hmode, hctrl, hlen⟩ := hmove.sameConfig_or_header
    · exact .inl ⟨hsame.1, hsame.2, hsame.3, hsame.4, hsame.5, hsame.6⟩
    · exact .inr (.inr ⟨hturn, hphase, hmode, hctrl, hlen⟩)
  · cases hchange with
    | reset hm => exact .inr (.inl (hm ▸ hturn))
    | start _ _ _ _ _ hfree => exact absurd (hbusy.symm.trans hfree) nofun
    | config _ _ _ _ _ _ hfree => exact absurd (hbusy.symm.trans hfree) nofun
    | channels => exact .inl ⟨rfl, rfl, rfl, rfl, rfl, rfl⟩

end Sys2Proof.Machine

/-! The machine's invariant and the stream's length, move by move (R22 to R27, R35, R173, R253). -/

namespace Sys2Proof.Machine

/-! ### What a move's own conditions say -/

/-- A header that is parsed has a legal channel count, and its buffer is within the limit (R123, R124). -/
theorem parseHeader_legal {p : Params} {bytes : List Byte} {h : Header} (hparse : parseHeader p bytes = .ok h) :
    (h.channels = 3 ∨ h.channels = 4) ∧ h.width.toNat * h.height.toNat * h.channels.toNat ≤ p.maxBufferBytes := by
  unfold parseHeader at hparse
  split at hparse
  case h_2 => nomatch hparse
  split at hparse
  · nomatch hparse
  dsimp only at hparse
  split at hparse
  · nomatch hparse
  next hlegal =>
    split at hparse
    · nomatch hparse
    next hlimit =>
      rw [← Except.ok.inj hparse]
      exact ⟨channelsLegal_iff.1 (by simpa using hlegal), not_lt.1 hlimit⟩

/-- A configuration that passes the checks has a legal channel count (R231). -/
theorem encodeChecks_channels {p : Params} {s : State} (h : encodeChecks p s = none) : s.channels = 3 ∨ s.channels = 4 := by
  rw [encodeChecks_eq] at h
  by_contra hlegal
  rw [if_pos hlegal] at h
  nomatch h

/-- Every cause but NONE belongs to a code of its own (R271). -/
theorem ErrCause.errCode_ne_none {cause : ErrCause} (h : cause ≠ .none) : cause.errCode ≠ .none := by
  cases cause with
  | none => exact absurd rfl h
  | _ => nofun

/-- Every slot holds (0,0,0,0) or a pixel of its own hash (R173). -/
def State.CacheTagged (s : State) : Prop := ∀ k, s.readCache k = Pixel.zero ∨ pixelHash (s.readCache k) = k

/-- The write of a pixel's own slot keeps every slot's tag. -/
theorem State.CacheTagged.update {s t : State} {new : Pixel} (tagged : s.CacheTagged)
    (hcache : t.cache = s.cache ∨ t.cache = (s.updateCache new).cache) : t.CacheTagged := by
  intro k
  obtain hsame | hwritten := hcache
  · rw [State.readCache_congr hsame]
    exact tagged k
  · have slot := State.updateCache_slotWritten s t new hwritten
    by_cases hk : k = pixelHash new
    · rw [hk, slot.slot]
      exact .inr rfl
    · rw [slot.others k hk]
      exact tagged k

theorem State.CacheTagged.init {s : State} (h : s.cache = initCache) : s.CacheTagged :=
  fun k => .inl (s.readCache_initCache h k)

/-- A counter that does not go back has not wrapped. -/
theorem count_add_of_le {x : Count} {k : Nat} (hk : k < 2 ^ 64) (h : x.toNat ≤ (x + BitVec.ofNat 64 k).toNat) :
    (x + BitVec.ofNat 64 k).toNat = x.toNat + k := by
  rw [BitVec.toNat_add, BitVec.toNat_ofNat] at h ⊢
  omega

/-- `N` is below 2^64 (R27). -/
theorem toNat_mul_lt (w h : Word) : w.toNat * h.toNat < 2 ^ 64 :=
  (Nat.mul_lt_mul'' w.isLt h.isLt).trans_eq (by norm_num)

/-! ### The host's moves -/

/-- Settles O50: nothing is counted, given, pending or raised, and every slot is (0,0,0,0). -/
theorem resetMeetsInvariant : Obligations.ResetMeetsInvariant := by
  unfold Obligations.ResetMeetsInvariant
  exact {
    runBound := by decide
    runInDecode := fun _ => rfl
    runPhase := fun h => absurd rfl h
    runCounted := by decide
    nBound := by decide
    fresh := fun _ => ⟨rfl, rfl, rfl⟩
    bodyCount := nofun
    finalCount := nofun
    doneCount := nofun
    active := by rintro (h | h) <;> nomatch h
    errorPhase := by decide
    errorCause := rfl
    errorPos := fun _ => rfl
    cacheSlots := State.CacheTagged.init rfl
    encodedOut := fun _ => rfl
    decodedOut := nofun }

/-- The replies and the moves that a reset keeps are in no clause. -/
theorem State.doReset_inv (s : State) : s.doReset.Inv := { resetMeetsInvariant with }

section
variable {s : State} (inv : s.Inv)
include inv

/-- The invariant says nothing of the channels' input, the readiness, the replies and the moves to come. -/
theorem State.Inv.channels (queue : List Byte) (inEnd : Bool) (room : Nat) (replies : List Word) (turns : List Turn) :
    ({ s with inQueue := queue, inEnd := inEnd, outRoom := room, replies := replies, turns := turns } : State).Inv :=
  { inv with }

theorem State.Inv.afterTurn : s.afterTurn.Inv := inv.channels s.inQueue s.inEnd s.outRoom s.replies s.turns.tail

/-- While not BUSY no clause speaks of the configuration. -/
theorem State.Inv.config (hfree : s.phase.busy = false) (mode : Mode) (w h : Word) (c cs : Byte) (len : Count) :
    ({ s with ctrlMode := mode, width := w, height := h, channels := c, colorspace := cs, inLen := len } : State).Inv :=
  { inv with
    active := fun hphase => by
      obtain hphase | hphase := hphase <;> exact absurd (hfree.symm.trans (congrArg Phase.busy hphase)) nofun
    decodedOut := fun _ hphase => absurd (hfree.symm.trans (congrArg Phase.busy hphase)) nofun }

/-- A START leaves nothing counted, given, pending or raised, and clears the cache (R47). -/
theorem State.Inv.startPass : s.startPass.Inv where
  runBound := Nat.zero_le _
  runInDecode _ := rfl
  runPhase h := absurd rfl h
  runCounted := Nat.zero_le _
  nBound := inv.nBound
  fresh _ := ⟨rfl, rfl, rfl⟩
  bodyCount := nofun
  finalCount := nofun
  doneCount := nofun
  active := by rintro (h | h) <;> nomatch h
  errorPhase := iff_of_false nofun fun h => h rfl
  errorCause := rfl
  errorPos _ := rfl
  cacheSlots := State.CacheTagged.init rfl
  encodedOut _ := rfl
  decodedOut := nofun

/-- Every move of the host keeps the invariant. -/
theorem HostChange.keepsInv {p : Params} {m : HostMove} {t : State} (change : HostChange p m s t) : t.Inv := by
  cases change with
  | reset => exact s.doReset_inv
  | start _ v _ _ _ hfree =>
    exact (inv.config hfree (Mode.ofBit (v.getLsbD 1)) s.width s.height s.channels s.colorspace s.inLen).startPass
  | config mode w h c cs len hfree => exact inv.config hfree mode w h c cs len
  | channels queue inEnd room replies => exact inv.channels queue inEnd room replies s.turns

/-! ### The core's moves -/

/-- Before BODY no run is pending (R22). -/
theorem State.Inv.run_of_header (hphase : s.phase = .header) : s.run = 0 := by
  by_contra h
  obtain h | h | h := inv.runPhase h <;> exact absurd (hphase.symm.trans h) nofun

/-- An error entry (R274) writes the record and leaves all that the other clauses speak of. -/
theorem State.Inv.raised {cause : ErrCause} (hcause : cause ≠ .none) (pos : Count) (k : Nat) :
    ((s.takeInput k).raise cause pos).Inv :=
  { inv with
    runPhase := fun _ => .inr (.inr rfl)
    fresh := by rintro (h | h) <;> nomatch h
    bodyCount := nofun
    finalCount := nofun
    doneCount := nofun
    active := by rintro (h | h) <;> nomatch h
    errorPhase := iff_of_true rfl (ErrCause.errCode_ne_none hcause)
    errorCause := rfl
    errorPos := fun h => absurd rfl h
    encodedOut := fun hmode => by
      have hbytes : (s.takeInput k).byteCount = s.byteCount := State.takeInput_byteCount_encode _ _ hmode
      rw [State.raise_byteCount, hbytes]
      exact inv.encodedOut hmode
    decodedOut := nofun }

/-- The final step: the pending run is over and the pass is at `N` (R248, R249). -/
theorem State.Inv.finished (bytes : List Byte) (room : Nat) (hphase : s.phase = .final) (hlen : bytes.length < 2 ^ 64)
    (hcount : s.byteCount.toNat ≤ (s.byteCount + BitVec.ofNat 64 bytes.length).toNat) :
    ({ s with
      run := 0
      out := s.out ++ bytes
      outRoom := room
      byteCount := s.byteCount + BitVec.ofNat 64 bytes.length
      phase := .done } : State).Inv :=
  { inv with
    runBound := Nat.zero_le _
    runInDecode := fun _ => rfl
    runPhase := fun h => absurd rfl h
    runCounted := Nat.zero_le _
    fresh := by rintro (h | h) <;> nomatch h
    bodyCount := nofun
    finalCount := nofun
    doneCount := fun _ => (inv.finalCount hphase).2
    active := by rintro (h | h) <;> nomatch h
    errorPhase := iff_of_false nofun (mt inv.errorPhase.2 (by rw [hphase]; nofun))
    errorPos := fun _ => inv.errorPos (by rw [hphase]; nofun)
    encodedOut := fun hmode => by
      rw [List.length_append, inv.encodedOut hmode, count_add_of_le hlen hcount]
    decodedOut := nofun }

end

/-- The phase at `N` pixels: an encode pass has its final step before it, a decode pass is over (R25, R200, R235). -/
def Mode.phaseAtN : Mode → Phase
  | .encode => .final
  | .decode => .done

/-- What holds between a pass's header step and its last pixel, and just after that one: the invariant's clauses on the pixels
handled, for either mode. -/
structure State.InPass (s : State) : Prop where
  phase : s.phase = if s.pixCount.toNat = s.n then s.mode.phaseAtN else .body
  counted : s.pixCount.toNat ≤ s.n
  nBound : s.n < 2 ^ 64
  product : s.n = s.width.toNat * s.height.toNat
  channels : s.channels = 3 ∨ s.channels = 4
  runBound : s.run.toNat ≤ 62
  runInDecode : s.mode = .decode → s.run = 0
  runCounted : s.run.toNat ≤ s.pixCount.toNat
  errCode : s.errCode = .none
  errCause : s.errCode = s.errCause.errCode
  errPos : s.errPos = 0
  tagged : s.CacheTagged
  encodedOut : s.mode = .encode → s.out.length = s.byteCount.toNat
  decodedOut : s.mode = .decode → s.out.length = s.pixCount.toNat * s.pixelWidth

section
variable {s : State} (pass : s.InPass)
include pass

/-- A pass is in BODY with pixels wanted, or at `N`. -/
theorem State.InPass.cases :
    (s.phase = .body ∧ s.pixCount.toNat < s.n) ∨ (s.phase = .final ∧ s.mode = .encode ∧ s.pixCount.toNat = s.n) ∨
      (s.phase = .done ∧ s.mode = .decode ∧ s.pixCount.toNat = s.n) := by
  have hphase := pass.phase
  by_cases hn : s.pixCount.toNat = s.n
  · rw [if_pos hn] at hphase
    cases hmode : s.mode with
    | encode => exact .inr (.inl ⟨by rw [hphase, hmode]; rfl, rfl, hn⟩)
    | decode => exact .inr (.inr ⟨by rw [hphase, hmode]; rfl, rfl, hn⟩)
  · rw [if_neg hn] at hphase
    exact .inl ⟨hphase, pass.counted.lt_of_ne hn⟩

theorem State.InPass.inv : s.Inv where
  runBound := pass.runBound
  runInDecode := pass.runInDecode
  runPhase hrun := by
    obtain ⟨hphase, -⟩ | ⟨hphase, -⟩ | ⟨-, hmode, -⟩ := pass.cases
    · exact .inl hphase
    · exact .inr (.inl hphase)
    · exact absurd (pass.runInDecode hmode) hrun
  runCounted := pass.runCounted
  nBound := pass.nBound
  fresh := by rintro (h | h) <;> simpa [h] using pass.cases
  bodyCount h := by simpa [h] using pass.cases
  finalCount h := by simpa [h] using pass.cases
  doneCount h := by
    obtain ⟨-, hn⟩ : s.mode = .decode ∧ s.pixCount.toNat = s.n := by simpa [h] using pass.cases
    exact hn
  active _ := ⟨pass.product, pass.channels⟩
  errorPhase := iff_of_false (fun h => by simpa [h] using pass.cases) (not_not.2 pass.errCode)
  errorCause := pass.errCause
  errorPos _ := pass.errPos
  cacheSlots := pass.tagged
  encodedOut := pass.encodedOut
  decodedOut h _ := pass.decodedOut h

end

section
variable {s : State} (inv : s.Inv)
include inv

/-- In BODY the invariant is that of a pass with pixels wanted. -/
theorem State.Inv.inPass (hphase : s.phase = .body) : s.InPass where
  phase := by rw [if_neg (inv.bodyCount hphase).ne, hphase]
  counted := (inv.bodyCount hphase).le
  nBound := inv.nBound
  product := (inv.active (.inl hphase)).1
  channels := (inv.active (.inl hphase)).2
  runBound := inv.runBound
  runInDecode := inv.runInDecode
  runCounted := inv.runCounted
  errCode := not_not.1 (mt inv.errorPhase.2 (by rw [hphase]; nofun))
  errCause := inv.errorCause
  errPos := inv.errorPos (by rw [hphase]; nofun)
  tagged := inv.cacheSlots
  encodedOut := inv.encodedOut
  decodedOut h := inv.decodedOut h hphase

/-- A decoder's header step starts the pass with no pixel handled (R192, R193). -/
theorem State.Inv.committed {p : Params} {h : Header} (hphase : s.phase = .header) (hmode : s.mode = .decode)
    (hparse : parseHeader p (s.inQueue.take 14) = .ok h) : ((s.takeInput 14).commitHeader h).InPass := by
  obtain ⟨hpix, -, hout⟩ := inv.fresh (.inr hphase)
  have hzero : s.pixCount.toNat = 0 := by rw [hpix]; rfl
  have herror : s.phase ≠ .error := by rw [hphase]; nofun
  exact {
    phase := by
      show (if h.width.toNat * h.height.toNat = 0 then Phase.done else .body) =
        if s.pixCount.toNat = h.width.toNat * h.height.toNat then s.mode.phaseAtN else .body
      rw [hzero, hmode]
      exact if_congr eq_comm rfl rfl
    counted := hzero.le.trans (Nat.zero_le _)
    nBound := toNat_mul_lt h.width h.height
    product := rfl
    channels := (parseHeader_legal hparse).1
    runBound := inv.runBound
    runInDecode := inv.runInDecode
    runCounted := inv.runCounted
    errCode := not_not.1 (mt inv.errorPhase.2 herror)
    errCause := inv.errorCause
    errPos := inv.errorPos herror
    tagged := inv.cacheSlots
    encodedOut := fun h => absurd (hmode.symm.trans h) nofun
    decodedOut := fun _ => by
      show s.out.length = s.pixCount.toNat * _
      rw [hout, hzero, Nat.zero_mul, List.length_nil] }

/-- An encoder's header step starts the pass with no pixel handled and 14 bytes given (R232). -/
theorem State.Inv.written {p : Params} (room : Nat) (hphase : s.phase = .header) (hmode : s.mode = .encode)
    (hchecks : encodeChecks p s = none) : ({ encodeHeader p s with outRoom := room } : State).InPass := by
  obtain ⟨hpix, hcount, hout⟩ := inv.fresh (.inr hphase)
  have hzero : s.pixCount.toNat = 0 := by rw [hpix]; rfl
  have herror : s.phase ≠ .error := by rw [hphase]; nofun
  rw [encodeHeader_of_legal hchecks]
  exact {
    phase := by
      show (if s.width.toNat * s.height.toNat = 0 then Phase.final else .body) =
        if s.pixCount.toNat = s.width.toNat * s.height.toNat then s.mode.phaseAtN else .body
      rw [hzero, hmode]
      exact if_congr eq_comm rfl rfl
    counted := hzero.le.trans (Nat.zero_le _)
    nBound := toNat_mul_lt s.width s.height
    product := rfl
    channels := encodeChecks_channels hchecks
    runBound := inv.runBound
    runInDecode := inv.runInDecode
    runCounted := inv.runCounted
    errCode := not_not.1 (mt inv.errorPhase.2 herror)
    errCause := inv.errorCause
    errPos := inv.errorPos herror
    tagged := inv.cacheSlots
    encodedOut := fun _ => by
      have hbytes := State.outBytes_byteCount_encode s
        (headerBytesOf p ⟨s.width, s.height, s.channels, s.colorspace⟩) hmode
      rw [hcount] at hbytes
      exact (congrArg List.length (congrArg (· ++ _) hout)).trans (congrArg BitVec.toNat hbytes).symm
    decodedOut := fun h => absurd (hmode.symm.trans h) nofun }

end

section
variable {p : Params} {s t : State}

/-- The core's move keeps the invariant, whichever of its shapes it has. -/
theorem CoreMove.keepsInv (move : CoreMove p s t) (inv : s.Inv) : t.Inv := by
  cases move with
  | stay => exact inv
  | header h hphase hmode _ hparse _ => exact (inv.committed hphase hmode hparse).inv
  | raised cause pos k _ hcause _ => exact inv.raised hcause pos k
  | written hphase hmode hchecks _ _ => exact (inv.written _ hphase hmode hchecks).inv
  | group i rest new c k hphase hmode hwanted _ hk hkn _ hc _ _ _ =>
    have pass := inv.inPass hphase
    have hpix : (s.pixCount + BitVec.ofNat 64 k).toNat = s.pixCount.toNat + k :=
      count_add _ _ (by have := pass.nBound; omega)
    exact State.InPass.inv { pass with
      phase := by
        show _ = if _ then s.mode.phaseAtN else _
        rw [hmode]
        rfl
      counted := by
        show (s.pixCount + BitVec.ofNat 64 k).toNat ≤ s.n
        omega
      runCounted := by
        show s.run.toNat ≤ (s.pixCount + BitVec.ofNat 64 k).toNat
        exact hpix ▸ pass.runCounted.trans (Nat.le_add_right _ _)
      tagged := State.CacheTagged.update pass.tagged hc
      encodedOut := fun h => absurd (hmode.symm.trans h) nofun
      decodedOut := fun h => by
        show (s.out ++ runBytes s.channels new k).length = (s.pixCount + BitVec.ofNat 64 k).toNat * s.pixelWidth
        rw [List.length_append, runBytes_length, pass.decodedOut h, hpix, Nat.add_mul]
        rfl }
  | pixel new bytes r c hphase hmode hwanted _ hcase _ hcount =>
    have pass := inv.inPass hphase
    have hpix : (s.pixCount + 1).toNat = s.pixCount.toNat + 1 :=
      count_add _ 1 (by have := pass.nBound; omega)
    obtain ⟨hrun, hlen, hc⟩ : (r.toNat ≤ 62 ∧ r.toNat ≤ s.pixCount.toNat + 1) ∧ bytes.length ≤ 6 ∧
        (c = s.cache ∨ c = (s.updateCache new).cache) := by
      have hcounted := pass.runCounted
      obtain ⟨-, rfl, hcap, rfl, hc⟩ | ⟨-, hone, -, rfl, hc⟩ | ⟨-, rfl, hfive, hc⟩ := hcase
      · refine ⟨?_, Nat.zero_le _, .inl hc⟩
        bv_omega
      · exact ⟨⟨by decide, Nat.le_add_left _ _⟩, by omega, .inl hc⟩
      · refine ⟨⟨by decide, Nat.zero_le _⟩, ?_, hc⟩
        split at hfive <;> omega
    exact State.InPass.inv { pass with
      phase := by
        show _ = if _ then s.mode.phaseAtN else _
        rw [hmode]
        rfl
      counted := by
        show (s.pixCount + 1).toNat ≤ s.n
        omega
      runBound := hrun.1
      runInDecode := fun h => absurd (hmode.symm.trans h) nofun
      runCounted := by
        show r.toNat ≤ (s.pixCount + 1).toNat
        exact hpix ▸ hrun.2
      tagged := State.CacheTagged.update pass.tagged hc
      encodedOut := fun h => by
        show (s.out ++ bytes).length = (s.byteCount + BitVec.ofNat 64 bytes.length).toNat
        rw [List.length_append, pass.encodedOut h, count_add_of_le (by omega) hcount]
      decodedOut := fun h => absurd (hmode.symm.trans h) nofun }
  | final bytes hphase _ hlen _ hcount =>
    have hshort : bytes.length < 2 ^ 64 := by split at hlen <;> omega
    exact inv.finished bytes _ hphase hshort hcount

end

/-- Settles O51: the core's seven shapes of a move and the host's four each keep every clause. -/
theorem stepKeepsInvariant : Obligations.StepKeepsInvariant := by
  unfold Obligations.StepKeepsInvariant
  intro s t inv hstep
  obtain ⟨-, move⟩ | ⟨m, -, change⟩ := step_cases hstep
  · exact move.keepsInv inv.afterTurn
  · exact change.keepsInv inv.afterTurn

/-! ### The stream's length -/

/-- Before BODY and after an error the bound says nothing. -/
theorem State.sizeBounded_outside {s : State} (h : s.phase = .idle ∨ s.phase = .header ∨ s.phase = .error) :
    s.SizeBounded := by
  intro _
  obtain h | h | h := h <;> simp [h]

/-- The bound while pixels are handled, with the pending run's byte. -/
theorem State.sizeBounded_inPass {s : State} (hphase : s.phase ≠ .done)
    (h : s.out.length + (if s.run = 0 then 0 else 1) ≤ 14 + 5 * s.pixCount.toNat) : s.SizeBounded :=
  fun _ => ⟨fun _ => h, fun hdone => absurd hdone hphase⟩

/-- The bound of R253 through the core's moves: a pixel adds five bytes, the pending run's among them. -/
theorem CoreMove.keepsSizeBounded {p : Params} {s t : State} (move : CoreMove p s t) (inv : s.Inv)
    (bounded : s.SizeBounded) : t.SizeBounded := by
  cases move with
  | stay => exact bounded
  | header h _ hmode => exact fun h => absurd (hmode.symm.trans h) nofun
  | raised cause pos k => exact State.sizeBounded_outside (.inr (.inr rfl))
  | written hphase hmode hchecks _ _ =>
    obtain ⟨-, -, hout⟩ := inv.fresh (.inr hphase)
    have hrun := inv.run_of_header hphase
    rw [encodeHeader_of_legal hchecks]
    refine State.sizeBounded_inPass (by dsimp only; split <;> nofun) ?_
    simp [hout, hrun, headerBytesOf, be32]
  | group _ _ _ _ _ _ hmode => exact fun h => absurd (hmode.symm.trans h) nofun
  | pixel new bytes r c hphase hmode hwanted _ hcase _ _ =>
    have hpix : (s.pixCount + 1).toNat = s.pixCount.toNat + 1 := count_add _ 1 (by have := inv.nBound; omega)
    have hbound := (bounded hmode).1 (.inl hphase)
    have hgrow : bytes.length + (if r = 0 then 0 else 1) ≤ (if s.run = 0 then 0 else 1) + 5 := by
      obtain ⟨-, rfl, -, -, -⟩ | ⟨-, hone, -, -, -⟩ | ⟨-, rfl, hfive, -⟩ := hcase
      · split <;> simp
      · split <;> omega
      · simpa using hfive
    refine State.sizeBounded_inPass (by dsimp only; split <;> nofun) ?_
    dsimp only
    rw [List.length_append, hpix]
    omega
  | final bytes hphase hmode hlen _ _ =>
    have hbound := (bounded hmode).1 (.inr hphase)
    have hn := (inv.finalCount hphase).2
    refine fun _ => ⟨by simp, fun _ => ?_⟩
    show (s.out ++ bytes).length ≤ 14 + 5 * s.n + 8
    rw [List.length_append]
    omega

/-- Settles O53: the bound is the core's to keep, and a START or a reset leaves the stream before BODY. -/
theorem streamLengthBounded : Obligations.StreamLengthBounded := by
  unfold Obligations.StreamLengthBounded
  intro s t inv bounded hstep
  have bounded' : s.afterTurn.SizeBounded := bounded
  obtain ⟨-, move⟩ | ⟨m, -, change⟩ := step_cases hstep
  · exact move.keepsSizeBounded inv.afterTurn bounded'
  · cases change with
    | reset => exact State.sizeBounded_outside (.inl rfl)
    | start => exact State.sizeBounded_outside (.inr (.inl rfl))
    | config => exact bounded'
    | channels => exact bounded'

end Sys2Proof.Machine

/-! No state survives into the next pass (R48, R73): after a START only `N` is stale, and no step reads it before it is set. -/

namespace Sys2Proof.Machine

/-- `s` with another `N`. -/
def State.withN (s : State) (m : Nat) : State := { s with n := m }

/-- Where no step reads `N` it can be anything. -/
theorem State.withN_stale (s : State) (m : Nat) (hphase : s.phase ≠ .body ∧ s.phase ≠ .final) :
    SameButStaleN s (s.withN m) where
  rest := rfl
  read h := (h.elim hphase.1 hphase.2).elim

theorem SameButStaleN.refl (s : State) : SameButStaleN s s := ⟨rfl, fun _ => rfl⟩

section
variable {s t : State} (same : SameButStaleN s t)
include same

theorem SameButStaleN.eq_withN : t = s.withN t.n := by
  have heq := congrArg (State.withN · t.n) same.rest
  exact heq.symm

/-- Either nothing is stale, or the phase is one in which no step reads `N`. -/
theorem SameButStaleN.cases : t = s ∨ ((s.phase ≠ .body ∧ s.phase ≠ .final) ∧ ∃ m, t = s.withN m) := by
  by_cases h : s.phase = .body ∨ s.phase = .final
  · have heq := same.eq_withN
    rw [← same.read h] at heq
    exact .inl heq
  · exact .inr ⟨not_or.1 h, _, same.eq_withN⟩

end

/-- Both machines go on, still alike, or both stop for one reason. -/
inductive SameAnswer : Host.Outcome State Fault Refusal → Host.Outcome State Fault Refusal → Prop where
  | next {s t : State} : SameButStaleN s t → SameAnswer (.next s) (.next t)
  | fault (r : Fault) : SameAnswer (.fault r) (.fault r)
  | refused (r : Refusal) : SameAnswer (.refused r) (.refused r)

theorem SameAnswer.refl (a : Host.Outcome State Fault Refusal) : SameAnswer a a := by
  cases a with
  | next s => exact .next (.refl s)
  | fault r => exact .fault r
  | refused r => exact .refused r

/-! What the second machine answers, from the first one's answer. -/

theorem SameAnswer.of_next {s : State} {b : Host.Outcome State Fault Refusal} (h : SameAnswer (.next s) b) :
    ∃ t, b = .next t ∧ SameButStaleN s t := by
  cases h with
  | next same => exact ⟨_, rfl, same⟩

theorem SameAnswer.of_fault {r : Fault} {b : Host.Outcome State Fault Refusal} (h : SameAnswer (.fault r) b) :
    b = .fault r := by
  cases h with
  | fault => rfl

theorem SameAnswer.of_refused {r : Refusal} {b : Host.Outcome State Fault Refusal} (h : SameAnswer (.refused r) b) :
    b = .refused r := by
  cases h with
  | refused => rfl

/-- The gate reads the output and `BYTECNT` alone. -/
theorem SameAnswer.gate {s t u v : State} (before : SameButStaleN s t) (after : SameButStaleN u v) :
    SameAnswer (gate s u) (gate t v) := by
  obtain ⟨m, rfl⟩ : ∃ m, t = s.withN m := ⟨_, before.eq_withN⟩
  obtain ⟨k, rfl⟩ : ∃ k, v = u.withN k := ⟨_, after.eq_withN⟩
  have taken (room : Nat) : SameButStaleN { u with outRoom := room } { u.withN k with outRoom := room } :=
    ⟨rfl, after.read⟩
  rw [Machine.gate]
  show SameAnswer _ (if s.outRoom < u.out.length - s.out.length then _
    else if u.byteCount.toNat < s.byteCount.toNat then _ else _)
  split
  · exact .next before
  · split
    · exact .fault _
    · exact .next (taken _)

section
variable (p : Params) (s : State) (m : Nat)

/-- An encoder's header step sets `N` or raises. -/
theorem encodeHeader_withN : SameButStaleN (encodeHeader p s) (encodeHeader p (s.withN m)) := by
  have hchecks : encodeChecks p (s.withN m) = encodeChecks p s := rfl
  cases h : encodeChecks p s with
  | some cause =>
    rw [encodeHeader_of_check h, encodeHeader_of_check (hchecks.trans h)]
    exact State.withN_stale _ m ⟨nofun, nofun⟩
  | none =>
    rw [encodeHeader_of_legal h, encodeHeader_of_legal (hchecks.trans h)]
    exact .refl _

variable (hphase : s.phase ≠ .body ∧ s.phase ≠ .final)
include hphase

/-- A decoder's header step sets `N`, or raises, or holds. -/
theorem decodeHeader_withN : SameButStaleN (decodeHeader p s) (decodeHeader p (s.withN m)) := by
  by_cases hlen : 14 ≤ s.inQueue.length
  · cases hparse : parseHeader p (s.inQueue.take 14) with
    | ok h =>
      rw [decodeHeader_of_ok hlen hparse, decodeHeader_of_ok (s := s.withN m) hlen hparse]
      exact .refl _
    | error cause =>
      rw [decodeHeader_of_error hlen hparse, decodeHeader_of_error (s := s.withN m) hlen hparse]
      exact State.withN_stale _ m ⟨nofun, nofun⟩
  · have hshort := not_le.1 hlen
    cases hend : s.inEnd with
    | true =>
      rw [decodeHeader_of_short hshort hend, decodeHeader_of_short (s := s.withN m) hshort hend]
      exact State.withN_stale _ m ⟨nofun, nofun⟩
    | false =>
      rw [decodeHeader_of_missing hshort hend, decodeHeader_of_missing (s := s.withN m) hshort hend]
      exact s.withN_stale m hphase

/-- Outside BODY and FINAL the core's turn does not read `N`. -/
theorem coreStep_withN : SameAnswer (coreStep p s) (coreStep p (s.withN m)) := by
  obtain ⟨u, v, hu, hv, same⟩ : ∃ u v, coreAction p s = .next u ∧ coreAction p (s.withN m) = .next v ∧
      SameButStaleN u v := by
    by_cases hheader : s.phase = .header
    · cases hmode : s.mode with
      | decode =>
        exact ⟨_, _, coreAction_header_decode hheader hmode, coreAction_header_decode (s := s.withN m) hheader hmode,
          decodeHeader_withN p s m hphase⟩
      | encode =>
        exact ⟨_, _, coreAction_header_encode hheader hmode, coreAction_header_encode (s := s.withN m) hheader hmode,
          encodeHeader_withN p s m⟩
    · have houtside : s.phase = .idle ∨ s.phase = .done ∨ s.phase = .error := by
        cases h : s.phase <;> simp_all
      exact ⟨_, _, coreAction_outside p houtside, coreAction_outside (s := s.withN m) p houtside,
        s.withN_stale m hphase⟩
  rw [coreStep_of_next hu, coreStep_of_next hv]
  exact .gate (s.withN_stale m hphase) same

/-- No register shows `N`. -/
theorem writeReg_withN (r : Reg) (v : Word) : SameButStaleN (writeReg r v s) (writeReg r v (s.withN m)) := by
  cases hbusy : s.phase.busy with
  | true =>
    rw [writeReg_busy r v hbusy, writeReg_busy (s := s.withN m) r v hbusy]
    exact s.withN_stale m hphase
  | false =>
    rw [writeReg_idle r v hbusy, writeReg_idle (s := s.withN m) r v hbusy]
    cases r with
    | ctrl =>
      rw [writeIdle, writeIdle, writeCtrl, writeCtrl]
      split
      · exact State.withN_stale _ m ⟨nofun, nofun⟩
      · exact State.withN_stale _ m hphase
    | _ => exact State.withN_stale _ m hphase

/-- No move of the host reads `N`. -/
theorem hostMove_withN (move : HostMove) : SameAnswer (hostMove p move s) (hostMove p move (s.withN m)) := by
  have channels (queue : List Byte) (inEnd : Bool) (room : Nat) (replies : List Word) :
      SameAnswer (.next { s with inQueue := queue, inEnd := inEnd, outRoom := room, replies := replies })
        (.next { s.withN m with inQueue := queue, inEnd := inEnd, outRoom := room, replies := replies }) :=
    .next (State.withN_stale _ m hphase)
  cases move with
  | write addr width v =>
    rw [hostMove, hostMove]
    cases regOf p addr width with
    | ok r => exact .next (writeReg_withN s m hphase r v)
    | error e => exact .refused e
  | read addr width =>
    rw [hostMove, hostMove]
    cases regOf p addr width with
    | ok r =>
      have hread : readReg r (s.withN m) = readReg r s := by cases r <;> rfl
      dsimp only
      rw [hread]
      exact channels _ _ _ _
    | error e => exact .refused e
  | supply b =>
    show SameAnswer (if s.inEnd then _ else _) (if s.inEnd then _ else _)
    split
    · exact .refused _
    · exact channels _ _ _ _
  | endInput =>
    show SameAnswer (if s.inEnd then _ else _) (if s.inEnd then _ else _)
    split
    · exact .refused _
    · exact channels _ _ _ _
  | accept count => exact channels _ _ _ _
  | reset => exact .refl _

end

/-- Settles O56: after a START all but `N` is set or the same, and the steps that read `N` come after a header step that sets it. -/
theorem passIndependentOfPast : Obligations.PassIndependentOfPast := by
  unfold Obligations.PassIndependentOfPast
  refine ⟨fun s t v hs ht hstart hconfig hroom hreplies hturns => ?start, fun s t same => ?step⟩
  case start =>
    have hstarted {u : State} (hu : u.phase.busy = false) :
        writeReg .ctrl v u = { u with ctrlMode := Mode.ofBit (v.getLsbD 1) }.startPass := by
      rw [writeReg_idle _ _ hu, writeIdle, writeCtrl, if_pos hstart]
    obtain ⟨-, hw, hh, hc, hcs, hlen⟩ := hconfig
    rw [hstarted hs, hstarted ht]
    refine ⟨?_, by rintro (h | h) <;> nomatch h⟩
    simp only [State.startPass, hw, hh, hc, hcs, hlen, hroom, hreplies, hturns]
  case step =>
    have answer : SameAnswer (step s) (step t) := by
      obtain rfl | ⟨hphase, m, rfl⟩ := same.cases
      · exact .refl _
      · obtain hturn | ⟨move, hturn⟩ := s.turn_cases
        · rw [step_core s hturn, step_core (s.withN m) hturn]
          exact coreStep_withN _ s.afterTurn m hphase
        · have hs := stepWith_host Config.params s move hturn
          have ht := stepWith_host Config.params (s.withN m) move hturn
          rw [step, step, hs, ht]
          exact hostMove_withN _ s.afterTurn m hphase move
    exact ⟨fun s' h => (h ▸ answer).of_next, fun r h => (h ▸ answer).of_fault, fun r h => (h ▸ answer).of_refused⟩

end Sys2Proof.Machine

/-! Runs of equal pixels (R236, R237, R251): `m` of them are given as the pseudo-instruction RUNS `m`. -/

namespace Sys2Proof.Machine

/-! ### A pixel step with no more room than it needs -/

/-- In an encode pass that still wants pixels, the pixel `new` is next in the channel. -/
structure PixelNext (s : State) (new : Pixel) : Prop where
  turn : s.coreTurn = true
  phase : s.phase = .body
  mode : s.mode = .encode
  wanted : s.pixCount.toNat < s.n
  fits : s.n < 2 ^ 64
  pixel : s.nextPixel = some new

/-- A pixel step where the host is ready for exactly the bytes that the decision chain gives. -/
theorem PixelNext.step {s c : State} {new : Pixel} {bytes : List Byte} (next : PixelNext s new)
    (hchain : encodeChain new s.afterInPixel = c) (emits : Emits s.afterInPixel c bytes) (hroom : bytes.length ≤ s.outRoom)
    (hcount : s.byteCount.toNat + bytes.length < 2 ^ 64) :
    ∃ t, step s = .next t ∧ PixelTaken s t new bytes ∧ t.run = c.run ∧ t.cache = c.cache := by
  have haction : coreAction Config.params s.afterTurn = .next (encodePixel new s.afterInPixel) := by
    have hnew : s.afterTurn.nextPixel = some new := next.pixel
    rw [coreAction_body_encode (s := s.afterTurn) next.phase next.mode, pixelStep,
      if_pos (show s.afterTurn.pixCount.toNat < s.afterTurn.n from next.wanted), hnew]
    rfl
  have hbase : s.afterInPixel.byteCount = s.byteCount := State.takeInput_byteCount_encode _ _ next.mode
  have hbytes : c.byteCount = s.byteCount + BitVec.ofNat 64 bytes.length := by rw [emits.byteCount, hbase]
  have hpix : c.pixCount.toNat = s.pixCount.toNat + 1 := by
    have := next.wanted
    have := next.fits
    rw [emits.pixCount]
    exact count_add _ 1 (by omega)
  rw [encodePixel_eq, hchain] at haction
  refine ⟨_, stepWith_of_gives bytes.length next.turn haction emits.out hroom hbytes hcount,
    ⟨rfl, emits.pixCount, ?_, emits.out, hbytes, rfl, ?_, emits.rest.mode, emits.rest.n, ?_, ?_, ?_⟩, rfl, rfl⟩
  · exact emits.rest.inQueue
  · have hn : c.n = s.n := emits.rest.n
    have hphase : c.phase = .body := emits.phase.trans next.phase
    dsimp only
    rw [hpix, hn, hphase]
  · obtain ⟨h1, h2, h3, h4, h5, h6⟩ := emits.rest.config
    exact ⟨h1, h2, h3, h4, h5, h6⟩
  · obtain ⟨h1, h2, h3⟩ := emits.rest.error
    exact ⟨h1, h2, h3⟩
  · obtain ⟨h1, h2, h3⟩ := emits.rest.host
    exact ⟨h1, h2, h3⟩

/-- The next pixel's bytes at the head of the channel are that pixel; in three channels its alpha is 255 (R66). -/
theorem State.nextPixel_of_inQueue {s : State} {new : Pixel} {rest : List Byte}
    (hqueue : s.inQueue = pixelBytes s.channels new ++ rest) (halpha : s.channels ≠ 4 → new.a = 255) :
    s.nextPixel = some new := by
  rw [State.nextPixel]
  rw [pixelBytes] at hqueue
  by_cases hc : s.channels = 4
  · rw [if_pos hc] at hqueue ⊢
    rw [hqueue]
    rfl
  · rw [if_neg hc] at hqueue ⊢
    rw [hqueue, ← halpha hc]
    rfl

/-! ### Pixels equal to PREV -/

/-- The bytes 0xFD that `m` equal pixels give while the run is still pending: one each time a run of 62 is full and another
pixel comes (R237). -/
def fullRuns (m : Nat) : Nat := (m - 1) / 62

/-- The encoder `t` after `m` pixels equal to the `PREV` of `s`, with `queue` next in the channel (R236, R237). -/
structure RunTaken (s t : State) (m : Nat) (queue : List Byte) : Prop where
  turns : t.turns = []
  phase : t.phase = if t.pixCount.toNat = t.n then .final else .body
  mode : t.mode = .encode
  n : t.n = s.n
  channels : t.channels = s.channels
  prev : t.prev = s.prev
  cache : t.cache = s.cache
  run : t.run.toNat = m - 62 * fullRuns m
  pixCount : t.pixCount = s.pixCount + BitVec.ofNat 64 m
  out : t.out = s.out ++ List.replicate (fullRuns m) 0xFD
  room : t.outRoom = s.outRoom - fullRuns m
  byteCount : t.byteCount.toNat = s.byteCount.toNat + fullRuns m
  queue : t.inQueue = queue

section
variable {s t : State} {m : Nat} {queue : List Byte}

/-- The run test on one pixel more: the run grows, or at the cap its byte is given and a new one begins. -/
theorem RunTaken.encodeChain (taken : RunTaken s t m queue) :
    ∃ bytes r, encodeChain t.prev t.afterInPixel = { t.afterInPixel.outBytes bytes with run := r, cache := t.cache } ∧
      r.toNat = m + 1 - 62 * fullRuns (m + 1) ∧
      ((bytes = [] ∧ fullRuns (m + 1) = fullRuns m) ∨ (bytes = [0xFD] ∧ fullRuns (m + 1) = fullRuns m + 1)) := by
  have hrun := taken.run
  have htest : Machine.encodeChain t.prev t.afterInPixel = extendRun t.afterInPixel := encodeChain_same rfl
  rw [htest]
  rw [fullRuns] at hrun
  by_cases hcap : t.run.toNat < 62
  case pos =>
    have hfull : fullRuns (m + 1) = fullRuns m := by rw [fullRuns, fullRuns]; omega
    refine ⟨[], t.run + 1, ?_, ?_, .inl ⟨rfl, hfull⟩⟩
    · rw [State.outBytes_nil]
      exact if_pos hcap
    · rw [hfull, fullRuns]
      bv_omega
  case neg =>
    have hfull : fullRuns (m + 1) = fullRuns m + 1 := by rw [fullRuns, fullRuns]; omega
    refine ⟨[0xFD], 1, ?_, ?_, .inr ⟨rfl, hfull⟩⟩
    · have hsixtyTwo : t.run = 62 := BitVec.eq_of_toNat_eq (show t.run.toNat = 62 by omega)
      have hbyte : packRun (t.run - 1) = 0xFD := by rw [hsixtyTwo]; decide
      rw [← hbyte]
      exact if_neg hcap
    · rw [hfull, fullRuns, show (1 : BitVec 6).toNat = 1 from rfl]
      omega

/-- One pixel more. -/
theorem RunTaken.next (taken : RunTaken s t m (pixelBytes s.channels s.prev ++ queue)) (hfits : s.n < 2 ^ 64)
    (hwanted : s.pixCount.toNat + m < s.n) (halpha : s.channels ≠ 4 → s.prev.a = 255) (hroom : m < s.outRoom)
    (hcount : s.byteCount.toNat + m + 1 < 2 ^ 64) : ∃ u, step t = .next u ∧ RunTaken s u (m + 1) queue := by
  have hpix : t.pixCount.toNat = s.pixCount.toNat + m := by
    rw [taken.pixCount]
    exact count_add _ _ (by omega)
  have hqueue : t.inQueue = pixelBytes t.channels t.prev ++ queue := by rw [taken.queue, taken.channels, taken.prev]
  have hn := taken.n
  have next : PixelNext t t.prev := {
    turn := State.coreTurn_of_turns taken.turns
    phase := by rw [taken.phase, if_neg (by omega)]
    mode := taken.mode
    wanted := by omega
    fits := by omega
    pixel := State.nextPixel_of_inQueue hqueue (by rw [taken.channels, taken.prev]; exact halpha) }
  obtain ⟨bytes, r, hchain, hr, hbytes⟩ := taken.encodeChain
  have hlen : bytes.length + fullRuns m = fullRuns (m + 1) := by
    obtain ⟨rfl, hfull⟩ | ⟨rfl, hfull⟩ := hbytes
    · rw [hfull, List.length_nil, Nat.zero_add]
    · rw [hfull, List.length_singleton, Nat.add_comm]
  have hfew : fullRuns (m + 1) ≤ m := by rw [fullRuns]; omega
  have hroom' := taken.room
  have hcount' := taken.byteCount
  obtain ⟨u, hstep, pixel, hrun, hcache⟩ := next.step hchain (Emits.outBytes t.afterInPixel bytes r t.cache taken.mode)
    (by omega) (by omega)
  refine ⟨u, hstep, ⟨?_, ?_, pixel.mode.trans taken.mode, pixel.n.trans hn,
    pixel.config.channels.trans taken.channels, pixel.prev.trans taken.prev, hcache.trans taken.cache, ?_, ?_, ?_, ?_, ?_,
    ?_⟩⟩
  · rw [pixel.host.turns, State.afterTurn_turns, taken.turns, List.tail_nil]
  · have hpix' : u.pixCount.toNat = t.pixCount.toNat + 1 := by
      rw [pixel.pixCount]
      exact count_add _ 1 (by omega)
    rw [pixel.phase, hpix', pixel.n]
  · rw [hrun]
    exact hr
  · rw [pixel.pixCount, taken.pixCount, BitVec.add_assoc, BitVec.ofNat_add]
    rfl
  · rw [pixel.out, taken.out, List.append_assoc]
    obtain ⟨rfl, hfull⟩ | ⟨rfl, hfull⟩ := hbytes
    · rw [hfull, List.append_nil]
    · rw [hfull, List.replicate_succ']
  · rw [pixel.room, hroom']
    omega
  · rw [pixel.byteCount, count_add _ _ (by omega)]
    omega
  · have hwidth : t.pixelWidth = (pixelBytes t.channels t.prev).length := (pixelBytes_length _ _).symm
    rw [pixel.queue, hqueue, hwidth, List.drop_left]

/-- `k` pixels more. -/
theorem RunTaken.more (k : Nat) (taken : RunTaken s t m (runBytes s.channels s.prev k ++ queue)) (hfits : s.n < 2 ^ 64)
    (hwanted : s.pixCount.toNat + (m + k) ≤ s.n) (halpha : s.channels ≠ 4 → s.prev.a = 255)
    (hroom : m + k ≤ s.outRoom) (hcount : s.byteCount.toNat + (m + k) < 2 ^ 64) :
    ∃ u, (coreWith Config.params).run k t = .next u ∧ RunTaken s u (m + k) queue := by
  induction k generalizing t m with
  | zero => exact ⟨t, rfl, taken⟩
  | succ k ih =>
    rw [runBytes_succ, List.append_assoc] at taken
    obtain ⟨u, hstep, taken'⟩ := taken.next hfits (by omega) halpha (by omega) (by omega)
    obtain ⟨v, hrun, taken''⟩ := ih taken' (by omega) (by omega) (by omega)
    exact ⟨v, (run_succ hstep k).trans hrun, by rwa [Nat.add_assoc, Nat.add_comm 1] at taken''⟩

/-- The full runs' bytes and the flush of the pending run are RUNS `m` (R251). -/
theorem RunTaken.flush (taken : RunTaken s t m queue) : (flushRun t).out = s.out ++ runsBytes m := by
  obtain ⟨hflush, -, -⟩ := flushRun_emits t taken.mode
  have hrun := taken.run
  have hzero : t.run = 0 ↔ t.run.toNat = 0 := BitVec.toNat_inj.symm
  rw [hflush.out, taken.out, List.append_assoc, runsBytes_eq, State.flushBytes]
  rw [fullRuns] at hrun ⊢
  congr 1
  by_cases hrest : m % 62 = 0
  case neg =>
    have hpending : t.run.toNat = m % 62 := by omega
    rw [if_neg (by rw [hzero]; omega), if_neg hrest, hpending, show (m - 1) / 62 = m / 62 by omega]
  case pos =>
    rw [if_pos hrest, List.append_nil]
    by_cases hm : m = 0
    · rw [if_pos (by rw [hzero]; omega), hm]
      rfl
    · have hpending : t.run.toNat = 62 := by omega
      rw [if_neg (by rw [hzero]; omega), hpending, show m / 62 = (m - 1) / 62 + 1 by omega, List.replicate_succ']
      rfl

end

/-- Every byte of RUNS encodes a length from 1 to 62 (R96, R105). -/
theorem runsBytes_length {m : Nat} {b : Byte} (hb : b ∈ runsBytes m) : 1 ≤ b.toNat - 0xBF ∧ b.toNat - 0xBF ≤ 62 := by
  rw [runsBytes_eq, List.mem_append] at hb
  obtain hfull | hrest := hb
  · rw [List.eq_of_mem_replicate hfull]
    decide
  · split at hrest
    · nomatch hrest
    · rw [List.mem_singleton.1 hrest, BitVec.toNat_ofNat]
      omega

/-- Settles O38: pixel by pixel the run grows or splits, and what is given with the pending run is RUNS `m`. -/
theorem runsSplitAtSixtyTwo : Obligations.RunsSplitAtSixtyTwo := by
  unfold Obligations.RunsSplitAtSixtyTwo
  refine ⟨fun s m rest hturns hphase hmode hrun hfits hwanted halpha hqueue hroom hcount => ?_, fun m b => runsBytes_length⟩
  by_cases hm : m = 0
  case pos =>
    subst hm
    have hquiet : flushRun s = s := if_neg (by rw [hrun]; decide)
    refine ⟨s, rfl, ?_, rfl, rfl, hqueue, (BitVec.add_zero _).symm⟩
    rw [hquiet]
    exact (List.append_nil _).symm
  have start : RunTaken s s 0 (runBytes s.channels s.prev m ++ rest) :=
    ⟨hturns, by rw [hphase, if_neg (by omega)], hmode, rfl, rfl, rfl, rfl, by rw [hrun]; rfl, (BitVec.add_zero _).symm,
      (List.append_nil _).symm, rfl, rfl, hqueue⟩
  obtain ⟨t, ht, taken⟩ := start.more m hfits (by omega) halpha (by omega) (by omega)
  rw [Nat.zero_add] at taken
  exact ⟨t, ht, taken.flush, taken.prev, taken.cache, taken.queue, taken.pixCount⟩

end Sys2Proof.Machine

/-! How long a pass takes (R314): an encode pass exactly `2 + N` steps, a decode pass at most `1 + N`. -/

namespace Sys2Proof.Machine

/-- A run of `j + k` steps goes on from the state that `j` steps reach. -/
theorem run_add {p : Params} {s t : State} {j : Nat} (h : (coreWith p).run j s = .next t) (k : Nat) :
    (coreWith p).run (j + k) s = (coreWith p).run k t := by
  induction j generalizing s with
  | zero =>
    obtain rfl := Host.Outcome.next.inj h
    rw [Nat.zero_add]
  | succ j ih =>
    cases hstep : stepWith p s with
    | next u =>
      rw [run_succ hstep] at h
      rw [Nat.add_right_comm, run_succ hstep, ih h]
    | fault r => simp only [Host.Core.run, show (coreWith p).step s = .fault r from hstep] at h; nomatch h
    | refused r => simp only [Host.Core.run, show (coreWith p).step s = .refused r from hstep] at h; nomatch h

/-! ### An encode pass -/

section
variable {p : Params} {e : State}

/-- The pixels an encoder has still to take. -/
def State.left (e : State) : Nat := e.n - e.pixCount.toNat

/-- While pixels are left, a step takes one. -/
theorem Encoding.stepWith (ready : Encoding e) (hleft : 0 < e.left) :
    ∃ t, stepWith p e = .next t ∧ Encoding t ∧ t.left + 1 = e.left := by
  rw [State.left] at hleft
  have hwanted : e.pixCount.toNat < e.n := by omega
  obtain ⟨t, new, bytes, followed, -⟩ := ready.pixel (p := p) hwanted
  have hstep : Machine.stepWith p e = .next t := by
    rw [stepWith_eq_step p (State.coreTurn_of_turns ready.turns) (by rw [ready.phase, if_neg hwanted.ne]; nofun)]
    exact followed.step
  have hpix : t.pixCount.toNat = e.pixCount.toNat + 1 := by
    have := ready.fits
    rw [followed.taken.pixCount]
    exact count_add _ 1 (by omega)
  refine ⟨t, hstep, ready.next hwanted followed, ?_⟩
  rw [State.left, State.left, hpix, followed.taken.n]
  omega

/-- `k` steps take `k` of the pixels left. -/
theorem Encoding.runPixels (k : Nat) (ready : Encoding e) (hk : k ≤ e.left) :
    ∃ t, (coreWith p).run k e = .next t ∧ Encoding t ∧ t.left + k = e.left := by
  induction k generalizing e with
  | zero => exact ⟨e, rfl, ready, rfl⟩
  | succ k ih =>
    obtain ⟨u, hstep, ready', hleft⟩ := ready.stepWith (p := p) (by omega)
    obtain ⟨t, hrun, ready'', hleft'⟩ := ih ready' (by omega)
    exact ⟨t, (run_succ hstep k).trans hrun, ready'', by omega⟩

theorem Encoding.busy (ready : Encoding e) : e.phase.busy = true := by
  rw [ready.phase]
  split <;> rfl

/-- With no pixel left the final step ends the pass. -/
theorem Encoding.finish (ready : Encoding e) (hleft : e.left = 0) :
    ∃ t, Machine.stepWith p e = .next t ∧ t.phase = .done := by
  rw [State.left] at hleft
  have hdone : e.pixCount.toNat = e.n := by have := ready.counted; omega
  have hroom := ready.room
  have hcount := ready.count
  obtain ⟨t, hstep, -⟩ := stepWith_final (p := p) (State.coreTurn_of_turns ready.turns)
    (by rw [ready.phase, if_pos hdone]) ready.mode (by omega) (by omega)
  exact ⟨_, hstep, rfl⟩

end

/-- Settles O57: the header step, one step a pixel, and the final step. -/
theorem encodePassTakesTwoPlusN : Obligations.EncodePassTakesTwoPlusN := by
  unfold Obligations.EncodePassTakesTwoPlusN
  intro p s input inEnd room legal hroom
  obtain ⟨e, hheader, ready, -, hfirst, -⟩ := legal.header inEnd hroom
  have hleft : e.left = s.width.toNat * s.height.toNat := by
    rw [State.left, hfirst.pixCount, hfirst.n]
    rfl
  refine ⟨fun k hk => ?busy, ?done⟩
  case busy =>
    cases k with
    | zero =>
      refine ⟨_, rfl, ?_⟩
      rw [State.started_eq legal.free (by decide)]
      rfl
    | succ k =>
      obtain ⟨t, hrun, ready', -⟩ := ready.runPixels (p := p) k (by omega)
      exact ⟨t, (run_succ hheader k).trans hrun, ready'.busy⟩
  case done =>
    obtain ⟨t, hrun, ready', hleft'⟩ := ready.runPixels (p := p) _ hleft.ge
    obtain ⟨u, hfinal, hdone⟩ := ready'.finish (p := p) (by omega)
    refine ⟨u, ?_, hdone⟩
    rw [Nat.add_comm 2, run_succ hheader, run_add hrun, run_succ hfinal]
    rfl

/-! ### A decode pass -/

/-- A decoder between two groups of a pass whose input is all supplied. -/
structure Draining (d : State) : Prop extends Decoding d d.inQueue where
  inEnd : d.inEnd = true
  counted : d.pixCount.toNat ≤ d.n
  count : d.byteCount.toNat + d.inQueue.length < 2 ^ 64

section
variable {p : Params} {d : State}

/-- Where no whole group is left, end of input raises (R201, R202). -/
theorem decodeStep_of_error {err : DecodeError} (hwanted : d.pixCount.toNat < d.n) (hend : d.inEnd = true)
    (hdecode : decodeAt .groups d.inQueue = .error err) :
    ∃ cause k, k ≤ d.inQueue.length ∧ decodeStep d = .next ((d.takeInput k).raise cause d.byteCount) := by
  rw [decodeStep, if_pos hwanted, hdecode]
  cases err with
  | noByte => exact ⟨.opcodeShort, 0, Nat.zero_le _, by rw [State.takeInput_zero]; exact if_pos hend⟩
  | operandShort => exact ⟨.operandShort, _, le_rfl, if_pos hend⟩
  | noMarker => exact ⟨.operandShort, _, le_rfl, if_pos hend⟩

/-- While pixels are wanted a step gives at least one or raises. -/
theorem Draining.stepWith (ready : Draining d) (hwanted : d.pixCount.toNat < d.n) :
    ∃ t, stepWith p d = .next t ∧ t.n = d.n ∧ (t.phase = .error ∨ (Draining t ∧ t.left < d.left)) := by
  have hturn := State.coreTurn_of_turns ready.turns
  have hsame := State.afterTurn_of_turns ready.turns
  have hbody : d.phase = .body := by rw [ready.phase, if_neg hwanted.ne]
  have hcount := ready.count
  cases hdecode : decodeAt .groups d.inQueue with
  | error err =>
    obtain ⟨cause, k, hk, haction⟩ := decodeStep_of_error hwanted ready.inEnd hdecode
    rw [← hsame] at haction
    obtain ⟨t, hstep, hraises, -⟩ := stepWith_raises (p := p) k hturn ready.mode (by omega)
      ((coreAction_body_decode (s := d.afterTurn) hbody ready.mode).trans haction)
    exact ⟨t, hstep, hraises.n, .inl hraises.phase⟩
  | ok group =>
    obtain ⟨i, rest⟩ := group
    obtain ⟨hwf, hqueue⟩ := encode_of_decodeGroup hdecode
    have hgroup := decodeGroup_not_endMarker hdecode
    obtain ⟨t, hexec⟩ := exec_next i (d.takeInput (lengthBytes i))
    obtain ⟨new, c, k, hk, hkn, -, -, ht⟩ := exec_decode (s := d.takeInput (lengthBytes i)) ready.mode hwanted hgroup hexec
    have hwanted' : d.pixCount.toNat + k ≤ d.n := by
      have hkn' : k ≤ d.n - d.pixCount.toNat := hkn
      omega
    have hlen : (encode i).length + rest.length = d.inQueue.length := by rw [hqueue, List.length_append]
    have decoding : Decoding d (encode i ++ rest) := hqueue ▸ ready.toDecoding
    have hpix : (d.afterGroup i c new k).pixCount.toNat = d.pixCount.toNat + k :=
      count_add _ _ (hwanted'.trans_lt ready.fits)
    have next := decoding.afterGroup (c := c) (new := new) hk hwanted'
    refine ⟨_, decoding.stepWith_group hk hwanted' hwf hgroup (by omega) (hexec.trans (congrArg _ ht)), rfl, .inr ⟨?_, ?_⟩⟩
    · refine ⟨by rwa [next.queue], ready.inEnd, hpix ▸ hwanted', ?_⟩
      have hbytes : (d.afterGroup i c new k).byteCount = d.byteCount + BitVec.ofNat 64 (encode i).length := by
        rw [encode_length]
        exact State.takeInput_byteCount_decode _ _ ready.mode
      rw [next.queue, hbytes, count_add _ _ (by omega)]
      omega
    · rw [State.left, State.left, hpix]
      show d.n - (d.pixCount.toNat + k) < d.n - d.pixCount.toNat
      omega

/-- With no pixel left the pass is over. -/
theorem Draining.ended_of_left (ready : Draining d) (hleft : d.left = 0) : d.ended = true := by
  rw [State.left] at hleft
  rw [State.ended, ready.phase, if_pos (ready.counted.antisymm (Nat.le_of_sub_eq_zero hleft))]
  rfl

/-- The pass ends within as many steps as pixels are left. -/
theorem Draining.ends (m : Nat) (ready : Draining d) (hleft : d.left ≤ m) :
    ∃ k t, (coreWith p).run k d = .next t ∧ t.ended = true ∧ k ≤ m ∧ t.n = d.n := by
  induction m generalizing d with
  | zero => exact ⟨0, d, rfl, ready.ended_of_left (Nat.le_zero.1 hleft), le_rfl, rfl⟩
  | succ m ih =>
    by_cases hdone : d.left = 0
    case pos => exact ⟨0, d, rfl, ready.ended_of_left hdone, Nat.zero_le _, rfl⟩
    rw [State.left] at hdone
    obtain ⟨t, hstep, hn, herror | ⟨ready', hless⟩⟩ := ready.stepWith (p := p) (by omega)
    · exact ⟨1, t, run_succ hstep 0, by rw [State.ended, herror]; rfl, by omega, hn⟩
    · obtain ⟨k, u, hrun, hended, hk, hn'⟩ := ih ready' (by omega)
      exact ⟨k + 1, u, (run_succ hstep k).trans hrun, hended, by omega, hn'.trans hn⟩

end

/-- What a decoder's header step leaves, end of input given: an error, or a pass of `N` pixels with room for them all. -/
theorem decodeHeader_ends (p : Params) (s : State) {input : List Byte} {room : Nat} (hinput : input.length < 2 ^ 64)
    (hroom : p.maxBufferBytes ≤ room) :
    ∃ t, stepWith p (s.passStart .decode input true room) = .next t ∧
      (t.phase = .error ∨ (Draining t ∧ t.pixCount = 0)) := by
  obtain ⟨hparsed, hfailed, hshort⟩ := decodeHeaderStep p (s.passStart .decode input true room) rfl rfl rfl
    (show 0 + 14 < 2 ^ 64 by decide)
  by_cases hlen : 14 ≤ input.length
  case neg =>
    obtain ⟨t, hstep, hraises, -⟩ := hshort (not_le.1 hlen) rfl
    exact ⟨t, hstep, .inl hraises.phase⟩
  cases hparse : parseHeader p (input.take 14) with
  | error cause =>
    obtain ⟨t, hstep, hraises, -⟩ := hfailed cause hlen hparse
    exact ⟨t, hstep, .inl hraises.phase⟩
  | ok h =>
    obtain ⟨t, hstep, -, -, hc, -, hn, hphase, hbytes, hqueue, -, htroom, -, -, -, hpix, hmode, -, -, -, hhost⟩ :=
      hparsed h hlen hparse
    obtain ⟨hlegal, hlimit⟩ := parseHeader_legal hparse
    replace hpix : t.pixCount = 0 := hpix
    replace htroom : t.outRoom = room := htroom
    replace hqueue : t.inQueue = input.drop 14 := hqueue
    replace hbytes : t.byteCount = 0 + 14 := hbytes
    have hzero : t.pixCount.toNat = 0 := by rw [hpix]; rfl
    refine ⟨t, hstep, .inr ⟨⟨⟨hhost.turns, ?_, hmode, hn ▸ toNat_mul_lt _ _, rfl, ?_⟩, hhost.inEnd, ?_, ?_⟩, hpix⟩⟩
    · rw [hphase, hzero, hn]
      exact if_congr eq_comm rfl rfl
    · have hwidth : t.pixelWidth = h.channels.toNat := by
        rw [State.pixelWidth, hc]
        exact pixelSize_legal hlegal
      rw [hzero, hn, hwidth, htroom]
      exact hlimit.trans hroom
    · rw [hzero]
      exact Nat.zero_le _
    · have hfourteen : t.byteCount.toNat = 14 := by rw [hbytes]; rfl
      rw [hfourteen, hqueue, List.length_drop]
      omega

/-- Settles O58: the header step raises or leaves `N` pixels, and each further step gives at least one or raises. -/
theorem decodePassEnds : Obligations.DecodePassEnds := by
  unfold Obligations.DecodePassEnds
  intro p s input room hfree hinput hroom
  rw [State.started_eq hfree (by decide)]
  obtain ⟨t, hstep, herror | ⟨ready, hpix⟩⟩ := decodeHeader_ends p s hinput hroom
  · exact ⟨1, t, run_succ hstep 0, by rw [State.ended, herror]; rfl, Nat.le_add_right _ _⟩
  · have hleft : t.left = t.n := by rw [State.left, hpix]; rfl
    obtain ⟨k, u, hrun, hended, hk, hn⟩ := ready.ends (p := p) _ hleft.le
    exact ⟨k + 1, u, (run_succ hstep k).trans hrun, hended, by omega⟩

end Sys2Proof.Machine

/-! The lockstep of encoder and decoder, pixel by pixel (R176): each branch of the chain, and the decoder's steps that follow. -/

namespace Sys2Proof.Machine

/-! ### A decoder that executes a group -/

/-- A decoder between two groups, with only the core left to move: `queue` is next in its channel, the host is ready for `room` more
output bytes, and its byte counter has room for `count` more. -/
structure Listening (d : State) (queue : List Byte) (room count : Nat) : Prop where
  turns : d.turns = []
  phase : d.phase = if d.pixCount.toNat = d.n then .done else .body
  mode : d.mode = .decode
  fits : d.n < 2 ^ 64
  queue : d.inQueue = queue
  room : room ≤ d.outRoom
  count : d.byteCount.toNat + count < 2 ^ 64

theorem Listening.mono {d : State} {queue : List Byte} {room room' count count' : Nat}
    (ready : Listening d queue room count) (hroom : room' ≤ room) (hcount : count' ≤ count) :
    Listening d queue room' count' :=
  { ready with
    room := hroom.trans ready.room
    count := (Nat.add_le_add_left hcount _).trans_lt ready.count }

/-- A group that gives `k` wanted pixels is executed, and takes up the room of its output and the count of its bytes. -/
theorem Listening.group {d : State} {i : Instr} {rest : List Byte} {c : Vector Pixel 64} {new : Pixel} {k room count : Nat}
    (ready : Listening d (encode i ++ rest) (room + 4 * k) (count + (encode i).length)) (hk : 1 ≤ k)
    (hwanted : d.pixCount.toNat + k ≤ d.n) (hwf : i.wf = true) (hgroup : i ≠ .endMarker)
    (hexec : exec i (d.takeInput (lengthBytes i)) = .next ((d.takeInput (lengthBytes i)).givePixels c new k)) :
    step d = .next (d.afterGroup i c new k) ∧ Listening (d.afterGroup i c new k) rest room count := by
  have hroom := ready.room
  have hcount := ready.count
  have hbody : d.phase = .body := by rw [ready.phase, if_neg (by omega)]
  have hpix : (d.pixCount + BitVec.ofNat 64 k).toNat = d.pixCount.toNat + k :=
    count_add _ _ (hwanted.trans_lt ready.fits)
  have hbytes : (d.takeInput (lengthBytes i)).byteCount = d.byteCount + BitVec.ofNat 64 (lengthBytes i) :=
    State.takeInput_byteCount_decode _ _ ready.mode
  have hlen : (runBytes d.channels new k).length ≤ 4 * k := by
    rw [runBytes_length, Nat.mul_comm]
    refine Nat.mul_le_mul_right _ ?_
    rw [pixelSize]
    split <;> decide
  have hdecode : decodeGroup d.inQueue = .ok (i, rest) := by
    rw [ready.queue]
    exact decodeGroup_encode hwf hgroup rest
  have haction : coreAction Config.params d.afterTurn =
      .next (finishAtN ((d.takeInput (lengthBytes i)).givePixels c new k)) := by
    rw [State.afterTurn_of_turns ready.turns, coreAction_body_decode hbody ready.mode,
      decodeStep_of_group (by omega) hdecode, execGroup, hexec]
  rw [finishAtN_eq] at haction
  rw [encode_length] at hcount
  refine ⟨stepWith_of_gives (lengthBytes i) (State.coreTurn_of_turns ready.turns) haction rfl (by omega) hbytes (by omega),
    ready.turns, ?_, ready.mode, ready.fits, ?_, ?_, ?_⟩
  · rw [State.afterGroup, hbody]
    rfl
  · show d.inQueue.drop (lengthBytes i) = rest
    rw [ready.queue, ← encode_length, List.drop_left]
  · show room ≤ d.outRoom - (runBytes d.channels new k).length
    omega
  · show (d.takeInput (lengthBytes i)).byteCount.toNat + count < 2 ^ 64
    rw [hbytes, count_add _ _ (by omega)]
    omega

/-! ### The lockstep across a pixel's two parts: the run flush, and the pixel itself -/

section
variable {e d t : State} {new : Pixel} {image bytes : List Byte} (lock : Lockstep e d image)
include lock

/-- A pixel that only lengthens the pending run. -/
theorem Lockstep.extend (consumed : Consumes e t e.prev bytes) (hrun : t.run.toNat = e.run.toNat + 1)
    (hcache : t.cache = e.cache) (hpix : e.pixCount.toNat + 1 < 2 ^ 64) :
    Lockstep t d (image ++ pixelBytes e.channels e.prev) where
  prev := lock.prev.trans consumed.prev.symm
  cache := lock.cache.trans hcache.symm
  n := lock.n.trans consumed.n.symm
  channels := lock.channels.trans consumed.channels.symm
  pixCount := by
    rw [consumed.pixCount, hrun, ← Nat.add_assoc, ← lock.pixCount]
    exact count_add _ 1 hpix
  out := by rw [consumed.channels, consumed.prev, hrun, runBytes_add, ← List.append_assoc, lock.out, runBytes_one]

/-- The pending run's byte, executed. -/
theorem Lockstep.flush (hmode : e.mode = .encode) (hpix : d.pixCount.toNat + e.run.toNat < 2 ^ 64) (i : Instr) :
    Lockstep (flushRun e) (d.afterGroup i d.cache d.prev e.run.toNat) image := by
  obtain ⟨hflush, hrun, hcache⟩ := flushRun_emits e hmode
  refine ⟨lock.prev.trans hflush.prev.symm, lock.cache.trans hcache.symm, lock.n.trans hflush.rest.n.symm,
    lock.channels.trans hflush.rest.config.channels.symm, ?_, ?_⟩
  · rw [hflush.pixCount, hrun, lock.pixCount]
    exact (count_add _ _ hpix).symm
  · rw [hrun, ← lock.out, ← lock.channels, ← lock.prev]
    exact List.append_nil _

/-- The group of a pixel that differs from `PREV`, executed, where no run is pending. -/
theorem Lockstep.changed (consumed : Consumes e t new bytes) (hrun : e.run = 0) (hrun' : t.run = 0)
    (hcache : t.cache = e.cacheAfter new) (i : Instr) :
    Lockstep t (d.afterGroup i (e.cacheAfter new) new 1) (image ++ pixelBytes e.channels new) := by
  have hcounted := lock.pixCount
  have hout := lock.out
  rw [hrun] at hcounted hout
  refine ⟨consumed.prev.symm, hcache.symm, lock.n.trans consumed.n.symm, lock.channels.trans consumed.channels.symm, ?_, ?_⟩
  · have hsame : e.pixCount = d.pixCount := BitVec.eq_of_toNat_eq hcounted
    rw [consumed.pixCount, hrun', hsame]
    rfl
  · rw [hrun', ← hout, ← lock.channels, ← runBytes_one]
    simp [State.afterGroup, State.givePixels]

end

/-- The decoder executes a pending run's byte (R199, R238). -/
theorem exec_pendingRun {e d : State} (hmode : d.mode = .decode) (hpending : e.run ≠ 0)
    (hwanted : d.pixCount.toNat + e.run.toNat ≤ d.n) :
    exec (.run (e.run - 1)) d = .next (d.givePixels d.cache d.prev e.run.toNat) := by
  have hlen : (e.run - 1).toNat + 1 = e.run.toNat := by
    have hpos : e.run.toNat ≠ 0 := fun h => hpending (BitVec.eq_of_toNat_eq h)
    bv_omega
  rw [exec_run_decode _ hmode, hlen, Nat.min_eq_left (by omega)]

/-- The decoder executes what the encoder's run flush gives, in at most one step. -/
theorem Lockstep.flush_run {e d : State} {image rest : List Byte} {room count : Nat} (lock : Lockstep e d image)
    (hmode : e.mode = .encode) (hrun : e.run.toNat ≤ 62) (hpix : e.pixCount.toNat ≤ e.n)
    (ready : Listening d (e.flushBytes ++ rest) (room + 248) (count + 1)) :
    ∃ k d', k ≤ 1 ∧ Sys2Proof.core.run k d = .next d' ∧ Lockstep (flushRun e) d' image ∧
      Listening d' rest room count := by
  by_cases hpending : e.run = 0
  case pos =>
    have hquiet : flushRun e = e := if_neg (by rw [hpending]; decide)
    rw [State.flushBytes_of_zero hpending] at ready
    rw [hquiet]
    exact ⟨0, d, Nat.zero_le _, rfl, lock, ready.mono (Nat.le_add_right _ _) (Nat.le_add_right _ _)⟩
  have hwanted : d.pixCount.toNat + e.run.toNat ≤ d.n := by rw [← lock.pixCount, lock.n]; exact hpix
  have hpos : e.run.toNat ≠ 0 := fun h => hpending (BitVec.eq_of_toNat_eq h)
  rw [State.flushBytes_pending hpending] at ready
  obtain ⟨hstep, ready'⟩ := (ready.mono (room' := room + 4 * e.run.toNat) (by omega) le_rfl).group
    (Nat.one_le_iff_ne_zero.2 hpos) hwanted (decide_eq_true (by bv_omega)) nofun
    (exec_pendingRun (d := d.takeInput 1) ready.mode hpending hwanted)
  exact ⟨1, _, le_rfl, run_succ hstep 0, lock.flush hmode (hwanted.trans_lt ready.fits) _, ready'⟩

/-! ### The pixel step and the decoder's steps, branch by branch -/

/-- A pixel step that gives `bytes`, which the decoder executes in at most two steps, in lockstep again after them. -/
structure PixelMirrored (e d t : State) (new : Pixel) (image bytes : List Byte) : Prop where
  step : step e = .next t
  taken : PixelTaken e t new bytes
  mirror : ∀ rest, Listening d (bytes ++ rest) 252 6 →
    ∃ k d', k ≤ 2 ∧ Sys2Proof.core.run k d = .next d' ∧ Lockstep t d' (image ++ pixelBytes e.channels new) ∧
      Listening d' rest 0 0

section
variable {e d : State} {new : Pixel} {image : List Byte} (hnew : PixelReady e new) (lock : Lockstep e d image)
include hnew lock

/-- Below the cap the decoder waits for the run to end (R236). -/
theorem pixelMirrored_extension (hsame : new = e.prev) (hcap : e.run.toNat < 62) :
    ∃ t bytes, PixelMirrored e d t new image bytes := by
  obtain ⟨t, hstep, taken, hrun, hcache⟩ := runExtension e new hnew hsame hcap
  have hlonger : t.run.toNat = e.run.toNat + 1 := by
    rw [hrun]
    bv_omega
  subst hsame
  have := hnew.wanted
  have := hnew.fits
  exact ⟨t, [], hstep, taken, fun rest ready => ⟨0, d, Nat.zero_le _, rfl,
    lock.extend (taken.consumes (x := []) (Emits.refl e)) hlonger hcache (by omega),
    ready.mono (Nat.zero_le _) (Nat.zero_le _)⟩⟩

/-- At the cap the decoder executes the run of 62 (R237). -/
theorem pixelMirrored_cap (hsame : new = e.prev) (hcap : e.run = 62) :
    ∃ t bytes, PixelMirrored e d t new image bytes := by
  obtain ⟨t, hstep, taken, hrun, hcache⟩ := runAtCapSplits e new hnew hsame hcap
  obtain ⟨hflush, hfrun, hfcache⟩ := flushRun_emits e hnew.mode
  have hbytes : [0xFD] = e.flushBytes := by
    rw [State.flushBytes, hcap]
    rfl
  rw [hbytes] at taken
  refine ⟨t, e.flushBytes, hstep, taken, fun rest ready => ?_⟩
  obtain ⟨k, d', hk, hrun', lock', ready'⟩ := lock.flush_run hnew.mode (by rw [hcap]; decide) hnew.wanted.le
    (ready.mono (room' := 0 + 248) (count' := 0 + 1) (by decide) (by decide))
  rw [← List.append_nil e.flushBytes] at taken
  have consumed := taken.consumes hflush
  rw [hsame, ← hflush.prev] at consumed
  have := hnew.wanted
  have := hnew.fits
  have lock'' := lock'.extend consumed (by rw [hrun, hfrun]; rfl) (hcache.trans hfcache.symm)
    (by rw [hflush.pixCount]; omega)
  rw [hflush.prev, hflush.rest.config.channels, ← hsame] at lock''
  exact ⟨k, d', hk.trans (by decide), hrun', lock'', ready'⟩

/-- Where the pixel changes the decoder executes the pending run, then the pixel's group (R238 to R245). -/
theorem pixelMirrored_changed (hrun : e.run.toNat ≤ 62) (hne : new ≠ e.prev) :
    ∃ t bytes, PixelMirrored e d t new image bytes := by
  obtain ⟨t, hstep, taken, htrun, hcache⟩ := step_changed hnew hne
  obtain ⟨hflush, hfrun, hfcache⟩ := flushRun_emits e hnew.mode
  have hgroup := State.chosenGroup_congr hflush.prev hfcache new
  obtain ⟨hwf, hnotEnd⟩ := e.chosenGroup_wf new
  have hfive := encode_length_le hnotEnd
  refine ⟨t, _, hstep, taken, fun rest ready => ?_⟩
  rw [List.append_assoc] at ready
  obtain ⟨j, d₁, hj, hrun₁, lock₁, ready₁⟩ := lock.flush_run (room := 4) (count := 5) hnew.mode hrun hnew.wanted.le ready
  have hwanted : d₁.pixCount.toNat + 1 ≤ d₁.n := by
    have hcounted := lock₁.pixCount
    rw [hfrun, hflush.pixCount] at hcounted
    rw [lock₁.n, hflush.rest.n]
    exact (Nat.succ_le_succ hcounted.ge).trans hnew.wanted
  have consumed := taken.consumes hflush
  rw [← hgroup] at consumed ready₁ hfive hwf hnotEnd
  obtain ⟨hstep₂, ready₂⟩ := (ready₁.mono (room' := 0 + 4 * 1) (count' := 0 + _) le_rfl (by rwa [Nat.zero_add])).group
    le_rfl hwanted hwf hnotEnd (exec_chosenGroup ready₁.mode lock₁.prev lock₁.cache)
  have lock₂ := lock₁.changed consumed hfrun htrun (hcache.trans (State.cacheAfter_congr hfcache new).symm)
    ((flushRun e).chosenGroup new)
  rw [hflush.rest.config.channels] at lock₂
  exact ⟨j + 1, _, by omega, (run_add hrun₁ 1).trans (run_succ hstep₂ 0), lock₂, ready₂⟩

/-- One pixel, whichever branch of the chain it takes (R235). -/
theorem pixelMirrored (hrun : e.run.toNat ≤ 62) : ∃ t bytes, PixelMirrored e d t new image bytes := by
  by_cases hsame : new = e.prev
  case neg => exact pixelMirrored_changed hnew lock hrun hsame
  by_cases hcap : e.run.toNat < 62
  case pos => exact pixelMirrored_extension hnew lock hsame hcap
  case neg =>
    have hfull : e.run.toNat = 62 := by omega
    exact pixelMirrored_cap hnew lock hsame (BitVec.eq_of_toNat_eq hfull)

end

/-- Settles O59: the pixel's bytes are the pending run's and the pixel's own, and the decoder executes each as one group. -/
theorem lockstepPerPixel : Obligations.LockstepPerPixel := by
  unfold Obligations.LockstepPerPixel
  intro e d e' new image bytes rest hnew _ hrun lock hstep hbytes hturns hphase hmode hqueue hroom hcount
  obtain ⟨t, given, mirrored⟩ := pixelMirrored hnew lock hrun
  obtain rfl : t = e' := Host.Outcome.next.inj (mirrored.step.symm.trans hstep)
  obtain rfl : given = bytes := List.append_cancel_left (mirrored.taken.out.symm.trans hbytes)
  have hwanted : d.pixCount.toNat < d.n := by
    have := lock.pixCount
    have := hnew.wanted
    rw [lock.n]
    omega
  obtain ⟨k, d', hk, hrun', lock', ready'⟩ := mirrored.mirror rest
    ⟨hturns, by rw [hphase, if_neg hwanted.ne], hmode, lock.n ▸ hnew.fits, hqueue, hroom, hcount⟩
  have hn : d'.n = d.n := by rw [lock'.n, mirrored.taken.n, lock.n]
  exact ⟨k, d', hk, hrun', ready'.queue, lock', hn ▸ ready'.phase⟩

end Sys2Proof.Machine
